-- ==== Sys2Proof/Word.lean ====
section
/-! DEFINITION. The bit widths the block's registers and ports have (00_scope.md R10). -/

namespace Sys2Proof

/-- A byte: a sample, a threshold, a payload byte, an SPI byte. -/
abbrev Byte := BitVec 8

/-- A 16-bit coordinate field of a packet. -/
abbrev Half := BitVec 16

/-- A 32-bit word: a packet word, a status-port word, an overlay handle. -/
abbrev Word := BitVec 32

end Sys2Proof
end

