-- ==== Sys2Proof/Config.lean ====
section
/-! DEFINITION. The configuration of 00_scope.md R8, fixed at construction, and the free values: what the spec
leaves open, as constants without a body, so that no proof can lean on a value of theirs. -/

namespace Sys2Proof

/-- One listed glyph of the built-in table: row r of the bitmap is `rows[r]`, top first, read as a number of GLYPH_SIZE
bits of which column k is bit GLYPH_SIZE − 1 − k: at the size of 8 a row byte whose bit 7 − k is column k
(40_datapath.md R73). The form for another size is the model's (DESIGN CHOICE, log 23). -/
structure GlyphEntry where
  code : Byte
  rows : List Nat
  deriving DecidableEq, Repr

/-- The parameters of 00_scope.md R8. An OPEN parameter with a range is stored as its distance from the lower end
of the range, so that a value outside the range cannot be written down. Times are whole nanoseconds (DESIGN
CHOICE, log 13). -/
structure Config where
  /-- WIDTH, in pixels. -/
  width : Nat
  /-- HEIGHT, in pixels. -/
  height : Nat
  /-- GLYPH_SIZE, the side of a glyph in pixels. R7 makes it a parameter; that any size from 1 up is admitted is the
  model's (DESIGN CHOICE, log 23). -/
  glyphSize : Nat
  /-- STRIP_ROWS, the rows of the indicator strip. As GLYPH_SIZE (DESIGN CHOICE, log 23). -/
  stripRows : Nat
  /-- The listed part of GLYPH; a code that is not listed has the free bitmap `Config.freeGlyph` (log 15). -/
  glyphs : List GlyphEntry
  /-- DITHER2, indexed `[x mod 2][y mod 2]`. -/
  dither2 : Vector (Vector Byte 2) 2
  /-- DITHER4, indexed `[x mod 4][y mod 4]`. -/
  dither4 : Vector (Vector Byte 4) 4
  /-- CUTOFF_RESET. R8 gives the value 128 and no range; that every byte is admitted is the model's (DESIGN CHOICE,
  log 4). -/
  cutoffReset : Byte
  /-- MAX_OVERLAYS. -/
  maxOverlays : Nat
  /-- OVERLAYS_ENABLED. -/
  overlaysEnabled : Bool
  /-- INDICATORS_ENABLED. -/
  indicatorsEnabled : Bool
  /-- CMD_WRITE_LINES. -/
  cmdWriteLines : Byte
  /-- CMD_CLEAR. -/
  cmdClear : Byte
  /-- FINAL_TRAILER_BYTES. -/
  finalTrailerBytes : Nat
  /-- CS_ACTIVE_HIGH. -/
  csActiveHigh : Bool
  /-- T_CS_SETUP is this many nanoseconds above 10 ns; 10 ns ≤ T_CS_SETUP < 100 ns. -/
  csSetupAbove : Fin 90
  /-- T_CS_HOLD is this many nanoseconds above 10 ns; 10 ns ≤ T_CS_HOLD < 100 ns. -/
  csHoldAbove : Fin 90
  /-- T_CS_IDLE, in nanoseconds. No rule reads it (41_transport.md R89). -/
  csIdle : Nat
  /-- SPI_MODE. No rule reads it (41_transport.md R87). -/
  spiMode : Fin 4
  /-- SPI_CLOCK_HZ. No rule reads it (41_transport.md R87). R8 says only OPEN; that it is a whole number of hertz, 0
  included, is the model's (DESIGN CHOICE, log 24). -/
  spiClockHz : Nat
  /-- T_SETTLE is this many nanoseconds above 5 ms. -/
  settleAbove : Nat
  /-- VCOM_PERIOD is this many nanoseconds above 500 ms; 500 ms ≤ P ≤ 1 s. No rule counts it (43_power_vcom.md R109). -/
  vcomPeriodAbove : Fin 500000001
  deriving DecidableEq, Repr

namespace Config

/-- MAX_INDICATORS, the number of indicator slots (fixed at 6: 00_scope.md R8). -/
abbrev maxIndicators : Nat := 6

/-- MAX_HANDLE, the largest overlay handle (00_scope.md R8). -/
abbrev maxHandle : Word := 0xFFFFFFFF#32

/-- BPR, the payload bytes of a row (00_scope.md R8). -/
def bytesPerRow (c : Config) : Nat := c.width / 8

/-- S, the stride of a tagged row (00_scope.md R8). -/
def stride (c : Config) : Nat := 2 + c.bytesPerRow

/-- T_CS_SETUP in nanoseconds. -/
def csSetupTime (c : Config) : Nat := c.csSetupAbove.val + 10

/-- T_CS_HOLD in nanoseconds. -/
def csHoldTime (c : Config) : Nat := c.csHoldAbove.val + 10

/-- T_SETTLE in nanoseconds. -/
def settleTime (c : Config) : Nat := c.settleAbove + 5000000

/-- VCOM_PERIOD in nanoseconds. -/
def vcomPeriod (c : Config) : Nat := c.vcomPeriodAbove.val + 500000000

/-- The constraints of 00_scope.md R8 that the types do not carry. A configuration that breaks one has no model
(R9): the machine's step refuses it. That a glyph and the strip have at least one row is the model's (log 23). -/
def ok (c : Config) : Bool :=
  decide (8 ≤ c.width) && decide (c.width ≤ 65528) && decide (c.width % 8 = 0) &&
    decide (1 ≤ c.height) && decide (c.height ≤ 255) && decide (1 ≤ c.maxOverlays) && decide (1 ≤ c.glyphSize) &&
    decide (1 ≤ c.stripRows)

/-! The free values. Each is applied to what it may depend on: the number of draws made, an address, a code. -/

/-- The bitmap row of a glyph code that the configuration does not list (GLYPH is OPEN: 00_scope.md R8, log 15). -/
opaque freeGlyph : Byte → Nat → Nat

/-- The n-th sample the frame source answers (20_memory.md R42, log 2). -/
opaque freeFrame : Nat → Byte

/-- The n-th answer of the bus, true for no error (41_transport.md R88, log 2). -/
opaque freeBus : Nat → Bool

/-- The n-th answer of the VCOM pin, true for a write that takes (43_power_vcom.md R105, log 2). -/
opaque freeVpin : Nat → Bool

/-- How many ticks the VCOM timer takes before the n-th event it may precede (20_memory.md R51, log 1). -/
opaque freeTicks : Nat → Nat

/-- What an unwritten byte of GRAY reads as, after so many resets, at this offset (10_state.md R32, log 5). -/
opaque freeGray : Nat → Nat → Byte

/-- What an unwritten byte of TAGGED reads as, after so many resets, at this offset (10_state.md R33, log 5). -/
opaque freeTagged : Nat → Nat → Byte

/-- The OPEN parameter T_CS_SETUP of the default configuration, above 10 ns (log 13). -/
opaque openCsSetup : Fin 90

/-- The OPEN parameter T_CS_HOLD of the default configuration, above 10 ns (log 13). -/
opaque openCsHold : Fin 90

/-- The OPEN parameter T_CS_IDLE of the default configuration (log 13). -/
opaque openCsIdle : Nat

/-- The OPEN parameter SPI_MODE of the default configuration (log 13). -/
opaque openSpiMode : Fin 4

/-- The OPEN parameter SPI_CLOCK_HZ of the default configuration, a whole number of hertz (log 24). -/
opaque openSpiClockHz : Nat

/-- The OPEN parameter T_SETTLE of the default configuration, above 5 ms (log 13). -/
opaque openSettle : Nat

/-- The OPEN parameter VCOM_PERIOD of the default configuration, above 500 ms (log 13). -/
opaque openVcomPeriod : Fin 500000001

/-- The default DITHER2 of 40_datapath.md R77, one inner vector per column. -/
def defaultDither2 : Vector (Vector Byte 2) 2 :=
  #v[#v[32, 224], #v[160, 96]]

/-- The default DITHER4 of 40_datapath.md R77, one inner vector per column. -/
def defaultDither4 : Vector (Vector Byte 4) 4 :=
  #v[#v[8, 200, 56, 248], #v[136, 72, 184, 120], #v[40, 232, 24, 216], #v[168, 104, 152, 88]]

/-- The configuration with every parameter at the default of 00_scope.md R8, and every OPEN one free. -/
def default : Config where
  width := 400
  height := 240
  glyphSize := 8
  stripRows := 8
  glyphs := []
  dither2 := defaultDither2
  dither4 := defaultDither4
  cutoffReset := 128
  maxOverlays := 16
  overlaysEnabled := true
  indicatorsEnabled := true
  cmdWriteLines := 0x80
  cmdClear := 0x20
  finalTrailerBytes := 0
  csActiveHigh := true
  csSetupAbove := openCsSetup
  csHoldAbove := openCsHold
  csIdle := openCsIdle
  spiMode := openSpiMode
  spiClockHz := openSpiClockHz
  settleAbove := openSettle
  vcomPeriodAbove := openVcomPeriod

end Config

end Sys2Proof
end

