-- ==== Sys2Proof/Syntax.lean ====
section
/-! DEFINITION. The instructions: one constructor for every row of spec/opcode_table.json, the thirteen commands of
30_encoding.md R63 and the two wire forms of R69; and what is delivered to the block, before it is decoded. -/

namespace Sys2Proof

/-- The binarization that DITHER_MODE selects (10_state.md R21). The reserved value 3 names no mode: it is refused at
decode (30_encoding.md R65) and never held. -/
inductive DitherMode where
  /-- 0: the global cutoff. -/
  | off
  /-- 1: the 2×2 matrix. -/
  | two
  /-- 2: the 4×4 matrix. -/
  | four
  deriving DecidableEq, Repr

/-- The rows of spec/opcode_table.json. -/
inductive Instr where
  /-- ENABLE (43_power_vcom.md R103). -/
  | enable
  /-- DISABLE (43_power_vcom.md R104). -/
  | disable
  /-- DAMAGE x1, x2, y1, y2 (42_update.md R100). -/
  | damage (x1 x2 y1 y2 : Half)
  /-- REFRESH (42_update.md R101). -/
  | refresh
  /-- SET_INVERT v (44_control.md R111). -/
  | setInvert (v : Bool)
  /-- SET_DITHER mode (44_control.md R112). -/
  | setDither (mode : DitherMode)
  /-- SET_CUTOFF c (44_control.md R113). -/
  | setCutoff (c : Byte)
  /-- SET_INDICATOR idx, g (44_control.md R114). -/
  | setIndicator (idx g : Byte)
  /-- OVL_ADD x, y, w, h, pixels (45_overlay.md R115). -/
  | ovlAdd (x y w h : Half) (pix : List Byte)
  /-- OVL_REMOVE handle (45_overlay.md R116). -/
  | ovlRemove (handle : Word)
  /-- OVL_SHOW handle (45_overlay.md R117). -/
  | ovlShow (handle : Word)
  /-- OVL_HIDE handle (45_overlay.md R118). -/
  | ovlHide (handle : Word)
  /-- OVL_CLEAR (45_overlay.md R119). -/
  | ovlClear
  /-- The wire form WC, clear screen (30_encoding.md R69, 41_transport.md R91). -/
  | wireClear
  /-- The wire form WW(y1, y1 + n) of the n rows whose payloads are given, first row y1 (30_encoding.md R69,
  41_transport.md R90). -/
  | wireWriteLines (y1 : Byte) (rows : List (List Byte))
  deriving DecidableEq, Repr

namespace Instr

/-- The mnemonic of the instruction's row in spec/opcode_table.json. -/
def mnemonic : Instr → String
  | enable => "ENABLE"
  | disable => "DISABLE"
  | damage _ _ _ _ => "DAMAGE"
  | refresh => "REFRESH"
  | setInvert _ => "SET_INVERT"
  | setDither _ => "SET_DITHER"
  | setCutoff _ => "SET_CUTOFF"
  | setIndicator _ _ => "SET_INDICATOR"
  | ovlAdd _ _ _ _ _ => "OVL_ADD"
  | ovlRemove _ => "OVL_REMOVE"
  | ovlShow _ => "OVL_SHOW"
  | ovlHide _ => "OVL_HIDE"
  | ovlClear => "OVL_CLEAR"
  | wireClear => "WIRE_CLEAR"
  | wireWriteLines _ _ => "WIRE_WRITE_LINES"

/-- The pseudo-command DAMAGE_ROWS y1, y2 (30_encoding.md R68). -/
def damageRows (c : Config) (y1 y2 : Half) : Instr :=
  .damage 0 (BitVec.ofNat 16 c.width) y1 y2

/-- The pseudo-command INDICATOR_CLEAR idx (30_encoding.md R68). -/
def indicatorClear (idx : Byte) : Instr := .setIndicator idx 0

/-- The pseudo-command FULL_DAMAGE (30_encoding.md R68). -/
def fullDamage (c : Config) : Instr :=
  .damage 0 (BitVec.ofNat 16 c.width) 0 (BitVec.ofNat 16 c.height)

end Instr

/-- What is handed to a decoder: the words of a command packet (30_encoding.md R58), or the bytes of a wire form
(R69). -/
inductive Delivery where
  | packet (ws : List Word)
  | wire (bs : List Byte)
  deriving DecidableEq, Repr

end Sys2Proof
end

