-- ==== Sys2Proof/WellFormed.lean ====
section
/-! DEFINITION. What the operands of an instruction must satisfy beyond their widths. -/

namespace Sys2Proof.Instr

/-- OVL_ADD carries W·H pixel bytes (30_encoding.md R61). -/
def pixelsFit (w h : Half) (pix : List Byte) : Bool :=
  decide (pix.length = w.toNat * h.toNat)

/-- A multi-row write has at least one row (41_transport.md R90). -/
def someRow (rows : List (List Byte)) : Bool := !rows.isEmpty

/-- Every row of a multi-row write has BPR payload bytes (30_encoding.md R69). -/
def payloadsFit (c : Config) (rows : List (List Byte)) : Bool :=
  rows.all fun p => decide (p.length = c.bytesPerRow)

/-- The rows of a multi-row write lie on the panel (42_update.md R95, 0 ≤ y1 ≤ y2 ≤ HEIGHT). -/
def rowsOnPanel (c : Config) (y1 : Byte) (rows : List (List Byte)) : Bool :=
  decide (y1.toNat + rows.length ≤ c.height)

/-- The well-formedness of an instruction under a configuration. -/
def wf (c : Config) : Instr → Bool
  | enable => true
  | disable => true
  | damage _ _ _ _ => true
  | refresh => true
  | setInvert _ => true
  | setDither _ => true
  | setCutoff _ => true
  | setIndicator _ _ => true
  | ovlAdd _ _ w h pix => pixelsFit w h pix
  | ovlRemove _ => true
  | ovlShow _ => true
  | ovlHide _ => true
  | ovlClear => true
  | wireClear => true
  | wireWriteLines y1 rows => someRow rows && payloadsFit c rows && rowsOnPanel c y1 rows

end Sys2Proof.Instr
end

