-- ==== Sys2Proof/Decode.lean ====
section
/-! DEFINITION. The decoders of 30_encoding.md R64 (command packets) and R69 (wire forms), total on any input and
rejecting by name, and the encoder written from the same tables. -/

namespace Sys2Proof

/-- Why a delivery is no instruction. Every reason on a packet is the one result INVALID_COMMAND
(30_encoding.md R65); the first is a breach of the port's own rule (R58), and the last four are about wire bytes,
which the block sends and never receives. -/
inductive DecodeError where
  /-- The packet has no word: the port delivers none such (R58). -/
  | emptyPacket
  /-- OP is not in the table of R63 (R65 (a)). -/
  | reservedOpcode
  /-- A reserved header bit is set (R65 (b)). -/
  | reservedBit
  /-- SET_DITHER with MODE = 3 (R65 (c)). -/
  | reservedMode
  /-- The packet's length is not its format's (R65 (d)). -/
  | wrongLength
  /-- The first wire byte is not the command byte of a form of that length (R69). -/
  | wireCommand
  /-- The wire bytes are not a whole number of rows and the final trailer (R69). -/
  | wireLength
  /-- A row's trailer or a final trailer byte is not zero (R69). -/
  | wireTrailer
  /-- The rows' addresses do not ascend by one (R69). -/
  | wireRowOrder
  deriving DecidableEq, Repr

/-! ### Bit helpers -/

/-- The bit reversal of a byte, by the three swaps of 40_datapath.md R81. -/
def bitrev8 (b : Byte) : Byte :=
  let b1 := ((b &&& 0xF0#8) >>> 4) ||| ((b &&& 0x0F#8) <<< 4)
  let b2 := ((b1 &&& 0xCC#8) >>> 2) ||| ((b1 &&& 0x33#8) <<< 2)
  ((b2 &&& 0xAA#8) >>> 1) ||| ((b2 &&& 0x55#8) <<< 1)

/-- The address byte of panel row y, 0-based (40_datapath.md R82). -/
def rowAddress (y : Nat) : Byte := bitrev8 (BitVec.ofNat 8 (y + 1))

/-- The row that an address byte names: the inverse of `rowAddress` modulo 256. -/
def rowOfAddress (a : Byte) : Byte := bitrev8 a - 1

/-- Four pixel bytes in a word, the first lowest (20_memory.md R45). -/
def wordOfBytes (b0 b1 b2 b3 : Byte) : Word := b3 ++ b2 ++ b1 ++ b0

/-- The four bytes of a word, lowest first (20_memory.md R45). -/
def bytesOfWord (w : Word) : List Byte :=
  [w.extractLsb' 0 8, w.extractLsb' 8 8, w.extractLsb' 16 8, w.extractLsb' 24 8]

/-- Pixel bytes packed into data words; the unused high bytes of the last word are zero here and ignored by the
decoder (30_encoding.md R61). -/
def packPixels : List Byte → List Word
  | [] => []
  | [a] => [wordOfBytes a 0 0 0]
  | [a, b] => [wordOfBytes a b 0 0]
  | [a, b, c] => [wordOfBytes a b c 0]
  | a :: b :: c :: d :: rest => wordOfBytes a b c d :: packPixels rest

/-- The first n pixel bytes of the data words (30_encoding.md R61). -/
def unpackPixels (n : Nat) (ws : List Word) : List Byte :=
  (ws.flatMap bytesOfWord).take n

/-- ⌈n / 4⌉, the data words that n pixel bytes take. -/
def pixelWords (n : Nat) : Nat := (n + 3) / 4

/-- The low half of an operand word. -/
def lowHalf (w : Word) : Half := w.extractLsb' 0 16

/-- The high half of an operand word. -/
def highHalf (w : Word) : Half := w.extractLsb' 16 16

/-- An operand word of two halves, the high one first (30_encoding.md R59). -/
def wordOfHalves (high low : Half) : Word := high ++ low

/-! ### Command packets -/

/-- The packet formats of 30_encoding.md R59. -/
inductive Format where
  | f0 | fb | fm | fc | fi | fr | fh | fo
  deriving DecidableEq, Repr

/-- The header bits that a format reserves (30_encoding.md R59). -/
def Format.reserved : Format → BitVec 24
  | .f0 => 0xFFFFFF#24
  | .fb => 0xFFFFFE#24
  | .fm => 0xFFFFFC#24
  | .fc => 0xFFFF00#24
  | .fi => 0xFF0000#24
  | .fr => 0xFFFFFF#24
  | .fh => 0xFFFFFF#24
  | .fo => 0xFFFFFF#24

/-- The length in words of a packet of the format whose first words are these (30_encoding.md R59, R66): for FO the
words before the pixel data must be there, and a packet that lacks them has no length that fits. -/
def Format.length (f : Format) (p : List Word) : Nat :=
  match f with
  | .f0 => 1
  | .fb => 1
  | .fm => 1
  | .fc => 1
  | .fi => 1
  | .fr => 3
  | .fh => 2
  | .fo => 3 + pixelWords ((lowHalf (p.getD 2 0)).toNat * (highHalf (p.getD 2 0)).toNat)

/-- The format of an opcode of 30_encoding.md R63. -/
def opFormat (op : Byte) : Option Format :=
  match op.toNat with
  | 0x01 => some .f0
  | 0x02 => some .f0
  | 0x10 => some .fr
  | 0x11 => some .f0
  | 0x20 => some .fb
  | 0x21 => some .fm
  | 0x22 => some .fc
  | 0x30 => some .fi
  | 0x40 => some .fo
  | 0x41 => some .fh
  | 0x42 => some .fh
  | 0x43 => some .fh
  | 0x44 => some .f0
  | _ => none

/-- The dither mode of the MODE field; 3 names none (30_encoding.md R65). -/
def modeOfBits (m : BitVec 2) : Option DitherMode :=
  match m.toNat with
  | 0 => some .off
  | 1 => some .two
  | 2 => some .four
  | _ => none

/-- The MODE field of a dither mode (10_state.md R21). -/
def DitherMode.bits : DitherMode → BitVec 2
  | .off => 0
  | .two => 1
  | .four => 2

/-- The command an accepted packet stands for: opcode, header argument A, operand words (30_encoding.md R59 to R63). -/
def commandOf (op : Byte) (a : BitVec 24) (ops : List Word) : Option Instr :=
  let w1 := ops.getD 0 0
  let w2 := ops.getD 1 0
  match op.toNat with
  | 0x01 => some .enable
  | 0x02 => some .disable
  | 0x10 => some (.damage (lowHalf w1) (highHalf w1) (lowHalf w2) (highHalf w2))
  | 0x11 => some .refresh
  | 0x20 => some (.setInvert (a.getLsbD 0))
  | 0x21 => (modeOfBits (a.extractLsb' 0 2)).map .setDither
  | 0x22 => some (.setCutoff (a.extractLsb' 0 8))
  | 0x30 => some (.setIndicator (a.extractLsb' 8 8) (a.extractLsb' 0 8))
  | 0x40 => some (.ovlAdd (lowHalf w1) (highHalf w1) (lowHalf w2) (highHalf w2)
      (unpackPixels ((lowHalf w2).toNat * (highHalf w2).toNat) (ops.drop 2)))
  | 0x41 => some (.ovlRemove w1)
  | 0x42 => some (.ovlShow w1)
  | 0x43 => some (.ovlHide w1)
  | 0x44 => some .ovlClear
  | _ => none

/-- The decoder of command packets, its checks in the order of 30_encoding.md R64. -/
def decodePacket (p : List Word) : Except DecodeError Instr :=
  match p with
  | [] => .error .emptyPacket
  | header :: ops =>
    let op := header.extractLsb' 24 8
    let a := header.extractLsb' 0 24
    match opFormat op with
    | none => .error .reservedOpcode
    | some f =>
      if a &&& f.reserved ≠ 0 then .error .reservedBit
      else if f = .fm ∧ a.extractLsb' 0 2 = 3 then .error .reservedMode
      else if p.length ≠ f.length p then .error .wrongLength
      else
        match commandOf op a ops with
        | none => .error .reservedOpcode
        | some i => .ok i

/-- The header word of an opcode and its header argument (30_encoding.md R58). -/
def headerWord (op : Byte) (a : BitVec 24) : Word := op ++ a

/-! ### Wire forms -/

/-- The bytes of the wire form WC (30_encoding.md R69). -/
def clearBytes (c : Config) : List Byte := [c.cmdClear, 0]

/-- One tagged row WR(y): address, payload, trailer (30_encoding.md R69). -/
def taggedRow (y : Nat) (payload : List Byte) : List Byte := rowAddress y :: (payload ++ [0])

/-- The tagged rows of consecutive panel rows from y on (30_encoding.md R69). -/
def taggedRows : Nat → List (List Byte) → List Byte
  | _, [] => []
  | y, payload :: rest => taggedRow y payload ++ taggedRows (y + 1) rest

/-- The bytes of the wire form WW of rows y, y + 1, … with these payloads (30_encoding.md R69). -/
def writeLinesBytes (c : Config) (y : Nat) (rows : List (List Byte)) : List Byte :=
  c.cmdWriteLines :: (taggedRows y rows ++ List.replicate c.finalTrailerBytes 0)

/-- Read n tagged rows of bpr payload bytes: the address and payload of each, and the bytes that are left; none where
the bytes run out or a trailer is not zero. -/
def splitRows (bpr : Nat) : Nat → List Byte → Option (List (Byte × List Byte) × List Byte)
  | 0, bs => some ([], bs)
  | n + 1, bs =>
    match bs with
    | [] => none
    | a :: rest =>
      if (rest.drop bpr).head? = some 0 then
        match splitRows bpr n (rest.drop (bpr + 1)) with
        | none => none
        | some (rows, tail) => some ((a, rest.take bpr) :: rows, tail)
      else none

/-- The addresses are those of consecutive panel rows from y on. -/
def addressesFrom : Nat → List Byte → Bool
  | _, [] => true
  | y, a :: rest => decide (a = rowAddress y) && addressesFrom (y + 1) rest

/-- The decoder of the wire form WW. -/
def decodeWriteLines (c : Config) (bs : List Byte) : Except DecodeError Instr :=
  match bs with
  | [] => .error .wireLength
  | cmd :: rest =>
    if cmd ≠ c.cmdWriteLines then .error .wireCommand
    else if rest.length < c.stride + c.finalTrailerBytes ∨
        (rest.length - c.finalTrailerBytes) % c.stride ≠ 0 then .error .wireLength
    else
      match splitRows c.bytesPerRow ((rest.length - c.finalTrailerBytes) / c.stride) rest with
      | none => .error .wireTrailer
      | some (rows, tail) =>
        if tail.any (· != 0) then .error .wireTrailer
        else
          let y1 := rowOfAddress ((rows.map Prod.fst).headD 0)
          if addressesFrom y1.toNat (rows.map Prod.fst) then
            .ok (.wireWriteLines y1 (rows.map Prod.snd))
          else .error .wireRowOrder

/-- The decoder of wire bytes: two bytes can only be WC, since a row takes at least three (30_encoding.md R69). -/
def decodeWire (c : Config) (bs : List Byte) : Except DecodeError Instr :=
  match bs with
  | [cmd, t] =>
    if cmd ≠ c.cmdClear then .error .wireCommand
    else if t ≠ 0 then .error .wireTrailer
    else .ok .wireClear
  | _ => decodeWriteLines c bs

/-! ### All deliveries -/

/-- The decoder: total, and rejecting by name. -/
def decode (c : Config) : Delivery → Except DecodeError Instr
  | .packet ws => decodePacket ws
  | .wire bs => decodeWire c bs

/-- The encoder (30_encoding.md R59 to R63, R67, R69). -/
def encode (c : Config) : Instr → Delivery
  | .enable => .packet [headerWord 0x01 0]
  | .disable => .packet [headerWord 0x02 0]
  | .damage x1 x2 y1 y2 => .packet [headerWord 0x10 0, wordOfHalves x2 x1, wordOfHalves y2 y1]
  | .refresh => .packet [headerWord 0x11 0]
  | .setInvert v => .packet [headerWord 0x20 ((BitVec.ofBool v).zeroExtend 24)]
  | .setDither m => .packet [headerWord 0x21 (m.bits.zeroExtend 24)]
  | .setCutoff v => .packet [headerWord 0x22 (v.zeroExtend 24)]
  | .setIndicator idx g => .packet [headerWord 0x30 (0#8 ++ idx ++ g)]
  | .ovlAdd x y w h pix =>
    .packet (headerWord 0x40 0 :: wordOfHalves y x :: wordOfHalves h w :: packPixels pix)
  | .ovlRemove handle => .packet [headerWord 0x41 0, handle]
  | .ovlShow handle => .packet [headerWord 0x42 0, handle]
  | .ovlHide handle => .packet [headerWord 0x43 0, handle]
  | .ovlClear => .packet [headerWord 0x44 0]
  | .wireClear => .wire (clearBytes c)
  | .wireWriteLines y1 rows => .wire (writeLinesBytes c y1.toNat rows)

/-! ### The host's numbering of the opcode table -/

/-- A list made at least n long with zeros at its end. -/
def padTo {α : Type} (zero : α) (n : Nat) (l : List α) : List α :=
  l ++ List.replicate (n - l.length) zero

/-- The words of a table row's command: the first nbits bits from w, the operand words above them zero, as many as the
row's format has. -/
def tablePacket (nbits w : Nat) : List Word :=
  let given := (List.range ((nbits + 31) / 32)).map fun k => BitVec.ofNat 32 (w >>> (32 * k))
  match given with
  | [] => []
  | h :: _ =>
    match opFormat (h.extractLsb' 24 8) with
    | none => given
    | some f => padTo 0 (f.length given) given

/-- The bytes of a table row's wire form: the command byte from w and zeros, one row of them for a multi-row write. -/
def tableWire (c : Config) (w : Nat) : List Byte :=
  let cmd := BitVec.ofNat 8 w
  if cmd = c.cmdWriteLines then padTo 0 (1 + c.stride + c.finalTrailerBytes) [cmd]
  else padTo 0 2 [cmd]

/-- What a row of spec/opcode_table.json delivers: the wire forms are its rows of one byte, the commands its rows of 32
bits. -/
def tableDelivery (c : Config) (nbits w : Nat) : Delivery :=
  if nbits ≤ 8 then .wire (tableWire c w) else .packet (tablePacket nbits w)

/-- The instruction this decoder reads from a table row's bits, under the default configuration. -/
def decodeTableWord (nbits w : Nat) : Option Instr :=
  (decode Config.default (tableDelivery Config.default nbits w)).toOption

end Sys2Proof
end

