-- ==== Sys2Proof/Machine/State.lean ====
section
/-! DEFINITION. The state of the block: every piece of 10_state.md, the event trace of 00_scope.md R13, and the
model's own fields for what comes from outside (log 1, log 2, log 8, log 10). State is plain data. -/

namespace Sys2Proof.Machine

/-- Why the machine stops with a fault. -/
inductive Fault where
  /-- Raised by `step` at a state that is inside a command (EXEC's phase is BUSY) or inside a VCOM-lock section (the
  lock is held): a step runs commands and ticks whole, so it has no way on from the middle of one. Safe: no step leads
  to such a state from one that is not (10_state.md R18, R36; log 12). -/
  | midCommand
  deriving DecidableEq, Repr

/-- Why the machine gives no meaning. -/
inductive Refusal where
  /-- Raised by an arm of `exec` whose instruction has no meaning yet; no arm raises it. Safe. -/
  | notModelled (mnemonic : String)
  /-- Raised by `step` when the configuration breaks a constraint of 00_scope.md R8: such a configuration has no
  model (R9, R15 (4)). Safe. -/
  | badConfiguration
  /-- Raised by `step` on a packet without a word: the port delivers none (30_encoding.md R58). Safe. -/
  | emptyPacket
  /-- Raised by `step` on wire bytes that are neither form of 30_encoding.md R69: the transmitter sends no other.
  Safe (log 7). -/
  | badWireForm (reason : DecodeError)
  deriving DecidableEq, Repr

/-- PSTATE (10_state.md R19); the values 5 to 7 are never held. -/
inductive PowerState where
  | off
  | poweringUp
  | active
  | disabling
  | faultedAtPowerUp
  deriving DecidableEq, Repr

/-- The result codes of 60_exceptions.md R121; 10 to 15 are never written. -/
inductive ResultCode where
  | ok
  | transportError
  | powerSequenceError
  | invalidGeometry
  | invalidHandle
  | indexOutOfRange
  | capacityExceeded
  | invalidCommand
  | sequenceError
  | preconditionFault
  deriving DecidableEq, Repr

/-- The block's two internal agents (60_exceptions.md R134). -/
inductive Agent where
  | exec
  | vtimer
  deriving DecidableEq, Repr

/-- EXEC's phase (10_state.md R18); `busy none` is a packet that decodes to INVALID_COMMAND. -/
inductive Phase where
  | idle
  | busy (command : Option Instr)
  deriving DecidableEq, Repr

/-- The names of the waits (00_scope.md R13). -/
inductive WaitName where
  | csSetup
  | csHold
  | settle
  deriving DecidableEq, Repr

/-- The externally visible events of 00_scope.md R13. -/
inductive Event where
  /-- CS(assert), CS(deassert). -/
  | cs (asserted : Bool)
  /-- SPI(b). -/
  | spi (b : Byte)
  /-- SPI_FAIL. -/
  | spiFail
  /-- WAIT(name, t), t in nanoseconds. -/
  | wait (name : WaitName) (t : Nat)
  /-- GPIO(DISP, l). -/
  | gpioDisp (level : Bool)
  /-- GPIO(VCOM, l). -/
  | gpioVcom (level : Bool)
  /-- GPIO_FAIL(VCOM). -/
  | gpioVcomFail
  /-- FRAME_READ(y1, y2). -/
  | frameRead (y1 y2 : Nat)
  /-- RESULT(code). -/
  | result (code : ResultCode)
  deriving DecidableEq, Repr

/-- A source of answers from outside: those already lined up, and how many have been drawn. A draw takes the next
lined-up answer; where none is left it takes the free value of its number (log 2). -/
structure Source (α : Type) where
  script : List α
  drawn : Nat
  deriving DecidableEq, Repr

/-- A byte space: the bytes written so far, by offset. Canonical form: offsets strictly rising (`Memory.wf`). An
unlisted offset has no value yet; what it then reads as is free (log 5). -/
abbrev Memory := List Host.Cell

/-- A live entry of the overlay registry (10_state.md R30): `live` is 1 exactly where a slot holds one. -/
structure Overlay where
  handle : Word
  x : Half
  y : Half
  w : Half
  h : Half
  visible : Bool
  pix : List Byte
  deriving DecidableEq, Repr

/-- What the VCOM lock covers (10_state.md R36 (b)), and the lock. -/
structure Vcom where
  /-- VCOM_TOGGLE (10_state.md R23). -/
  toggle : Bool
  /-- TIMER_RUNNING (10_state.md R24). -/
  running : Bool
  /-- VCOM_MISSED (10_state.md R25). -/
  missed : Word
  /-- VCOM_OUT (10_state.md R26). -/
  out : Bool
  /-- The VCOM lock and who holds it (10_state.md R36). -/
  lock : Option Agent
  deriving DecidableEq, Repr

/-- The pins, the VCOM timer, the event trace and what answers at the pins: all that EXEC's events and VTIMER's ticks
touch. -/
structure Io where
  vcom : Vcom
  /-- DISP_OUT (10_state.md R26). -/
  disp : Bool
  /-- CS_ASSERTED (10_state.md R26). -/
  cs : Bool
  /-- The event trace, oldest first (00_scope.md R13; log 3). -/
  trace : List Event
  /-- BUS: true for no error (41_transport.md R88). -/
  bus : Source Bool
  /-- VPIN: true for a write that takes (43_power_vcom.md R105). -/
  vpin : Source Bool
  /-- How many ticks fall before each next event (20_memory.md R51; log 1). -/
  ticks : Source Nat
  deriving DecidableEq, Repr

/-- What can come to the block from outside, one after another (log 8). -/
inductive Input where
  /-- HOST delivers a command packet (30_encoding.md R58). -/
  | packet (ws : List Word)
  /-- The SPI transmitter is driven with a wire form on its own (log 7). -/
  | wire (bs : List Byte)
  /-- HOST reads a register of the status port (10_state.md R35). -/
  | statusRead (i : BitVec 4)
  /-- VTIMER fires between two commands (43_power_vcom.md R105). -/
  | tick
  /-- The reset input is asserted between two commands (70_reset_and_hazards.md R137). -/
  | reset
  /-- HOST delivers a packet and the reset input is asserted after so many of the events that follow
  (70_reset_and_hazards.md R137; log 11). -/
  | resetDuring (ws : List Word) (events : Nat)
  deriving DecidableEq, Repr

/-- The state of the block. -/
structure State where
  /-- The configuration (00_scope.md R8). No step writes it. -/
  cfg : Config
  /-- How many resets there have been (the model's own, log 5). -/
  resets : Nat
  /-- EXEC's phase (10_state.md R18). -/
  phase : Phase
  /-- PSTATE (10_state.md R19). -/
  pstate : PowerState
  /-- INVERT (10_state.md R20). -/
  invert : Bool
  /-- DITHER_MODE (10_state.md R21). -/
  ditherMode : DitherMode
  /-- CUTOFF (10_state.md R22). -/
  cutoff : Byte
  /-- STATUS.RESULT (10_state.md R27). -/
  result : ResultCode
  /-- STATUS.SKIPPED (10_state.md R27). -/
  skipped : Bool
  /-- STATUS.FAULT (10_state.md R27, 60_exceptions.md R123). -/
  fault : Bool
  /-- RESULT_DATA (10_state.md R28). -/
  resultData : Word
  /-- IND[0..5] (10_state.md R29). -/
  ind : Vector Byte Config.maxIndicators
  /-- ENT (10_state.md R30): one item a slot, `none` where live = 0 (log 6). -/
  ent : List (Option Overlay)
  /-- NEXT_HANDLE (10_state.md R31). -/
  nextHandle : Word
  /-- GRAY (10_state.md R32). -/
  gray : Memory
  /-- TAGGED (10_state.md R33). -/
  tagged : Memory
  /-- FSRC's answers, one a sample (20_memory.md R42). -/
  frame : Source Byte
  /-- Pins, VCOM timer, trace. -/
  io : Io
  /-- What the status reads made so far answered, oldest first (the model's own, log 10). -/
  reads : List (BitVec 4 × Word)
  /-- What is still to come from outside, next first (the model's own, log 8). -/
  inputs : List Input
  deriving DecidableEq, Repr

/-- A source nothing has been drawn from, with nothing lined up. -/
def Source.fresh {α : Type} : Source α := ⟨[], 0⟩

/-- The VCOM state after reset (10_state.md R40). -/
def Vcom.reset : Vcom where
  toggle := false
  running := false
  missed := 0
  out := false
  lock := none

/-- The pins after reset (10_state.md R40), with an empty trace and nothing drawn. -/
def Io.reset : Io where
  vcom := Vcom.reset
  disp := false
  cs := false
  trace := []
  bus := Source.fresh
  vpin := Source.fresh
  ticks := Source.fresh

/-- The block of a configuration right after its first reset (10_state.md R40). -/
def State.powerOn (c : Config) : State where
  cfg := c
  resets := 0
  phase := .idle
  pstate := .off
  invert := false
  ditherMode := .off
  cutoff := c.cutoffReset
  result := .ok
  skipped := false
  fault := false
  resultData := 0
  ind := Vector.replicate Config.maxIndicators 0
  ent := List.replicate c.maxOverlays none
  nextHandle := 1
  gray := []
  tagged := []
  frame := Source.fresh
  io := Io.reset
  reads := []
  inputs := []

/-- The machine right after reset, at the default configuration (10_state.md R40). -/
def State.reset : State := State.powerOn Config.default

end Sys2Proof.Machine
end

