-- ==== Sys2Proof/Machine/Flags.lean ====
section
/-! DEFINITION. The STATUS fields (10_state.md R27, R28) and the words of the status port (10_state.md R34). -/

namespace Sys2Proof.Machine

/-- What a command's rule hands back to the command cycle: the code, SKIPPED and RESULT_DATA (42_update.md R93). -/
structure Reply where
  code : ResultCode
  skipped : Bool
  data : Word
  deriving DecidableEq, Repr

/-- `return OK` (00_scope.md R12). -/
def Reply.ok : Reply := ⟨.ok, false, 0⟩

/-- `return OK` of an update that was skipped outside Active (42_update.md R96). -/
def Reply.okSkipped : Reply := ⟨.ok, true, 0⟩

/-- `return OK` with the handle of a new entry (45_overlay.md R115). -/
def Reply.okData (d : Word) : Reply := ⟨.ok, false, d⟩

/-- `raise CODE`, and `return CODE` for a code other than OK: SKIPPED = 0 and RESULT_DATA = 0 (60_exceptions.md
R121, R122). -/
def Reply.error (c : ResultCode) : Reply := ⟨c, false, 0⟩

/-- The number of a result code (60_exceptions.md R121). -/
def ResultCode.bits : ResultCode → BitVec 4
  | .ok => 0
  | .transportError => 1
  | .powerSequenceError => 2
  | .invalidGeometry => 3
  | .invalidHandle => 4
  | .indexOutOfRange => 5
  | .capacityExceeded => 6
  | .invalidCommand => 7
  | .sequenceError => 8
  | .preconditionFault => 9

/-- The number of a power state (10_state.md R19). -/
def PowerState.bits : PowerState → BitVec 3
  | .off => 0
  | .poweringUp => 1
  | .active => 2
  | .disabling => 3
  | .faultedAtPowerUp => 4

/-- The entries of the registry with live = 1, in slot order (10_state.md R30). -/
def State.liveEntries (s : State) : List Overlay := s.ent.filterMap id

/-- Register 0, STATUS: [3:0] RESULT, [4] SKIPPED, [5] FAULT (10_state.md R34). -/
def State.statusReg (s : State) : Word :=
  0#26 ++ BitVec.ofBool s.fault ++ BitVec.ofBool s.skipped ++ s.result.bits

/-- Register 2, CONFIG: [0] INVERT, [2:1] DITHER_MODE, [15:8] CUTOFF (10_state.md R34). -/
def State.configReg (s : State) : Word :=
  0#16 ++ s.cutoff ++ 0#5 ++ s.ditherMode.bits ++ BitVec.ofBool s.invert

/-- Register 3, POWER: [2:0] PSTATE, [3] TIMER_RUNNING, [4] VCOM_TOGGLE, [5] DISP_OUT, [6] VCOM_OUT,
[7] CS_ASSERTED (10_state.md R34). -/
def State.powerReg (s : State) : Word :=
  0#24 ++ BitVec.ofBool s.io.cs ++ BitVec.ofBool s.io.vcom.out ++ BitVec.ofBool s.io.disp ++
    BitVec.ofBool s.io.vcom.toggle ++ BitVec.ofBool s.io.vcom.running ++ s.pstate.bits

/-- Register 5, IND_LO: IND[0] lowest to IND[3] highest (10_state.md R34). -/
def State.indLoReg (s : State) : Word := s.ind[3] ++ s.ind[2] ++ s.ind[1] ++ s.ind[0]

/-- Register 6, IND_HI: IND[4] lowest, then IND[5] (10_state.md R34). -/
def State.indHiReg (s : State) : Word := 0#16 ++ s.ind[5] ++ s.ind[4]

/-- Register 9, GEOMETRY: [15:0] WIDTH, [31:16] HEIGHT (10_state.md R34). -/
def State.geometryReg (s : State) : Word :=
  BitVec.ofNat 16 s.cfg.height ++ BitVec.ofNat 16 s.cfg.width

/-- The status port (10_state.md R34): the word of each index; 10 to 15 read 0. -/
def State.statusWord (s : State) (i : BitVec 4) : Word :=
  match i.toNat with
  | 0 => s.statusReg
  | 1 => s.resultData
  | 2 => s.configReg
  | 3 => s.powerReg
  | 4 => s.io.vcom.missed
  | 5 => s.indLoReg
  | 6 => s.indHiReg
  | 7 => BitVec.ofNat 32 s.liveEntries.length
  | 8 => s.nextHandle
  | 9 => s.geometryReg
  | _ => 0

end Sys2Proof.Machine
end

