-- ==== Sys2Proof/Machine/Ops.lean ====
section
/-! DEFINITION. The shared operations: byte spaces, the `for` loop, draws from outside, events and the ticks between
them, the VCOM tick and its cancel, the pins, raising and returning, the command cycle and reset. -/

namespace Sys2Proof.Machine

/-! ### Byte spaces (20_memory.md R41, 00_scope.md R12) -/

/-- The byte written last at an offset; none where nothing was written. -/
def Memory.get? : Memory → Nat → Option Byte
  | [], _ => none
  | (k, b) :: rest, a => if k = a then some b else Memory.get? rest a

/-- `MemRead(space, a, 1)`: an offset not yet written reads as the free value given (10_state.md R32, R33; log 5). -/
def Memory.read (free : Nat → Byte) (m : Memory) (a : Nat) : Byte :=
  (m.get? a).getD (free a)

/-- `MemWrite(space, a, 1, b)`. -/
def Memory.write : Memory → Nat → Byte → Memory
  | [], a, b => [(a, b)]
  | (k, v) :: rest, a, b =>
    if a < k then (a, b) :: (k, v) :: rest
    else if a = k then (a, b) :: rest
    else (k, v) :: Memory.write rest a b

/-- The canonical form of a byte space: offsets strictly rising. -/
def Memory.wf : Memory → Bool
  | [] => true
  | [_] => true
  | (k, _) :: (k', v') :: rest => decide (k < k') && Memory.wf ((k', v') :: rest)

/-! ### `for i in [a, b)` (00_scope.md R12) -/

/-- Run a body for n consecutive values from i up. -/
def forUp {σ : Type} : Nat → Nat → (Nat → σ → σ) → σ → σ
  | 0, _, _, x => x
  | n + 1, i, f, x => forUp n (i + 1) f (f i x)

/-- `for i in [a, b)`, ascending. -/
def forRange {σ : Type} (a b : Nat) (f : Nat → σ → σ) (x : σ) : σ := forUp (b - a) a f x

/-! ### Draws (00_scope.md R14) -/

/-- The answer a source will give to its k-th next draw. -/
def Source.peek {α : Type} (free : Nat → α) (s : Source α) (k : Nat) : α :=
  (s.script[k]?).getD (free (s.drawn + k))

/-- A source after n draws. -/
def Source.skip {α : Type} (s : Source α) (n : Nat) : Source α := ⟨s.script.drop n, s.drawn + n⟩

/-- One draw: the answer and the source after it. -/
def Source.draw {α : Type} (free : Nat → α) (s : Source α) : α × Source α :=
  (s.peek free 0, s.skip 1)

/-! ### The trace, the VCOM lock and the tick -/

/-- Append an event to the trace. -/
def Io.log (e : Event) (io : Io) : Io := { io with trace := io.trace ++ [e] }

/-- Take the VCOM lock (10_state.md R36 (b)). -/
def Io.acquire (a : Agent) (io : Io) : Io := { io with vcom := { io.vcom with lock := some a } }

/-- Give the VCOM lock back. -/
def Io.release (io : Io) : Io := { io with vcom := { io.vcom with lock := none } }

/-- VCOM_MISSED + 1, saturating at 2^32 − 1 (43_power_vcom.md R105, R107). -/
def missedSucc (v : Word) : Word := if v = BitVec.allOnes 32 then v else v + 1

/-- The VCOM write of a tick: on success both VCOM_OUT and VCOM_TOGGLE take the complement of VCOM_TOGGLE, on failure
only VCOM_MISSED counts (43_power_vcom.md R105, R106, R107). -/
def Io.toggleVcom (io : Io) : Io :=
  let level := !io.vcom.toggle
  let (taken, vpin) := io.vpin.draw Config.freeVpin
  let io := { io with vpin := vpin }
  if taken then
    Io.log (.gpioVcom level) { io with vcom := { io.vcom with out := level, toggle := level } }
  else
    Io.log .gpioVcomFail { io with vcom := { io.vcom with missed := missedSucc io.vcom.missed } }

/-- `VTick()` (43_power_vcom.md R105): VTIMER has a step only while TIMER_RUNNING = 1. -/
def Io.tick (io : Io) : Io :=
  if io.vcom.running then ((io.acquire .vtimer).toggleVcom).release else io

/-- n ticks one after another. -/
def Io.ticksDone : Nat → Io → Io
  | 0, io => io
  | n + 1, io => Io.ticksDone n io.tick

/-- A point where VTIMER may run: while TIMER_RUNNING = 1, any number of ticks (20_memory.md R51, log 1). -/
def Io.yieldTicks (io : Io) : Io :=
  if io.vcom.running then
    let (n, ticks) := io.ticks.draw Config.freeTicks
    Io.ticksDone n { io with ticks := ticks }
  else io

/-- VTIMER's part while EXEC waits: one tick, then any number more; nothing while TIMER_RUNNING = 0 (60_exceptions.md
R136). That a tick comes in every such step is the fairness of 20_memory.md R52 (a) (log 14). -/
def Io.idle (io : Io) : Io := io.tick.yieldTicks

/-- Write pins or registers and emit the event that goes with the write; ticks may fall before it. -/
def Io.act (f : Io → Io) (e : Event) (io : Io) : Io := (f io.yieldTicks).log e

/-- `emit E`; ticks may fall before it. -/
def Io.emit (e : Event) (io : Io) : Io := io.act id e

/-! ### The pins and the timer -/

/-- `DISP_OUT <- l; emit GPIO(DISP, l)`. -/
def Io.driveDisp (l : Bool) (io : Io) : Io := io.act (fun io => { io with disp := l }) (.gpioDisp l)

/-- `VCOM_OUT <- 0; VCOM_TOGGLE <- 0; emit GPIO(VCOM, 0)` (43_power_vcom.md R103, R104). -/
def Io.vcomLow (io : Io) : Io :=
  io.act (fun io => { io with vcom := { io.vcom with out := false, toggle := false } }) (.gpioVcom false)

/-- `CS_ASSERTED <- l; emit CS(l)`. -/
def Io.driveCs (l : Bool) (io : Io) : Io := io.act (fun io => { io with cs := l }) (.cs l)

/-- `TIMER_RUNNING <- 1` (43_power_vcom.md R103). -/
def Io.startTimer (io : Io) : Io := { io with vcom := { io.vcom with running := true } }

/-- `TIMER_RUNNING <- 0`. -/
def Io.stopTimer (io : Io) : Io := { io with vcom := { io.vcom with running := false } }

/-- `VTimerCancel()`: a tick in flight ends first, then no tick follows (43_power_vcom.md R108). It emits no event. -/
def Io.cancelTimer (io : Io) : Io := ((io.yieldTicks.acquire .exec).stopTimer).release

/-- The physical level of the chip select (10_state.md R26). -/
def State.csLevel (s : State) : Bool := s.io.cs == s.cfg.csActiveHigh

/-- The order in which the bits of an SPI byte go out on the line, bit 7 first (41_transport.md R87). -/
def spiLineBits (b : Byte) : List Bool := (List.range 8).map fun k => b.getLsbD (7 - k)

/-! ### Locks -/

/-- The update lock is held exactly while EXEC is BUSY (10_state.md R18, R36 (a)). -/
def State.updateLockHeld (s : State) : Bool := decide (s.phase ≠ .idle)

/-! ### Raising, returning and the command cycle (42_update.md R93)

The block has no trap (60_exceptions.md R125): what stands here in the place of taking an exception is `raise`, which
ends a command with a code, and `raiseFault`, which also sets the sticky FAULT; in the place of the return from one,
`finish`, by which every command gives its result to the host (R126). -/

/-- `raise CODE`: end the command with the code (00_scope.md R12). -/
def raise (c : ResultCode) (s : State) : State × Reply := (s, .error c)

/-- Set the sticky FAULT and raise PRECONDITION_FAULT (60_exceptions.md R123). -/
def raiseFault (s : State) : State × Reply := ({ s with fault := true }, .error .preconditionFault)

/-- The end of every command: STATUS and RESULT_DATA written, RESULT(code) emitted, EXEC idle (42_update.md R93,
10_state.md R18). -/
def finish (r : Reply) (s : State) : State :=
  { s with
    result := r.code
    skipped := r.skipped
    resultData := r.data
    io := s.io.emit (.result r.code)
    phase := .idle }

/-- The commands that execute while FAULT = 1: DISABLE alone (60_exceptions.md R123). The wire forms are no commands
and do not pass here. -/
def runsWhileFaulted : Instr → Bool
  | .enable => false
  | .disable => true
  | .damage _ _ _ _ => false
  | .refresh => false
  | .setInvert _ => false
  | .setDither _ => false
  | .setCutoff _ => false
  | .setIndicator _ _ => false
  | .ovlAdd _ _ _ _ _ => false
  | .ovlRemove _ => false
  | .ovlShow _ => false
  | .ovlHide _ => false
  | .ovlClear => false
  | .wireClear => false
  | .wireWriteLines _ _ => false

/-- The cycle of a packet that decodes to a command, whose rule is `rule` (42_update.md R93). -/
def commandCycle (i : Instr) (rule : State → State × Reply) (s : State) : State :=
  let s1 := { s with phase := .busy (some i) }
  let out :=
    if s1.fault && !runsWhileFaulted i then raise .preconditionFault s1 else rule s1
  finish out.2 out.1

/-- The cycle of a packet that decodes to INVALID_COMMAND: it is no DISABLE, so FAULT comes first (42_update.md R93,
60_exceptions.md R124). -/
def rejectPacket (s : State) : State :=
  let s1 := { s with phase := .busy none }
  let out := if s1.fault then raise .preconditionFault s1 else raise .invalidCommand s1
  finish out.2 out.1

/-! ### Reset (70_reset_and_hazards.md R137, R138) -/

/-- The pins at a reset: every pin low, the timer stopped; a chip select that was asserted is seen to deassert (R138).
The trace and the sources of draws go on (log 11). -/
def Io.afterReset (io : Io) : Io :=
  { io with
    vcom := Vcom.reset
    disp := false
    cs := false
    trace := if io.cs then io.trace ++ [.cs false] else io.trace }

/-- Reset: every piece of state at the value of 10_state.md R40; the configuration, the environment, the host's moves
and what it has read are not the block's state and stay. -/
def State.resetInput (s : State) : State :=
  { State.powerOn s.cfg with
    resets := s.resets + 1
    frame := s.frame
    io := s.io.afterReset
    reads := s.reads
    inputs := s.inputs }

/-- Whether the chip select is asserted after these events, from a level before them. -/
def csAfter : Bool → List Event → Bool
  | l, [] => l
  | _, .cs l :: rest => csAfter l rest
  | l, _ :: rest => csAfter l rest

/-- A reset that falls inside a command after so many of the events that follow: `done` is the state the command would
have left; of its events only the first happen, and the reset state follows (70_reset_and_hazards.md R137, R138;
log 11). -/
def State.resetWithin (s done : State) (events : Nat) : State :=
  let seen := (done.io.trace.drop s.io.trace.length).take events
  State.resetInput
    { done with io := { done.io with trace := s.io.trace ++ seen, cs := csAfter s.io.cs seen } }

end Sys2Proof.Machine
end

