-- ==== Sys2Proof/Machine/Operands.lean ====
section
/-! DEFINITION. What the commands make of their operands: rectangles, slot numbers, handles. Every operand is
unsigned and read as an unbounded number (30_encoding.md R62). -/

namespace Sys2Proof.Machine

/-- The DirtyRegion invariant that DAMAGE checks (42_update.md R100). -/
def rectInPanel (c : Config) (x1 x2 y1 y2 : Half) : Bool :=
  decide (x1.toNat ≤ x2.toNat ∧ x2.toNat ≤ c.width ∧ y1.toNat ≤ y2.toNat ∧ y2.toNat ≤ c.height)

/-- An overlay without pixels (45_overlay.md R115). -/
def emptyArea (w h : Half) : Bool := decide (w.toNat * h.toNat = 0)

/-- An overlay that exceeds the panel; the sums do not wrap (45_overlay.md R115). -/
def exceedsPanel (c : Config) (x y w h : Half) : Bool :=
  decide (x.toNat + w.toNat > c.width ∨ y.toNat + h.toNat > c.height)

/-- A slot whose entry is live and has the handle (45_overlay.md R116). -/
def slotHas (handle : Word) (slot : Option Overlay) : Bool :=
  match slot with
  | none => false
  | some e => decide (e.handle = handle)

/-- `e <- the entry with e.live = 1 and e.handle = HANDLE`, if there is one (45_overlay.md R116). -/
def State.entryOf (s : State) (handle : Word) : Option Overlay :=
  s.liveEntries.find? fun e => decide (e.handle = handle)

/-- Change the slot of the entry with a handle, and no other slot. -/
def State.updateEntry (s : State) (handle : Word) (f : Option Overlay → Option Overlay) : State :=
  { s with ent := s.ent.map fun slot => if slotHas handle slot then f slot else slot }

/-- Put an entry into the first slot with live = 0; a slot past the end of the list has live = 0 (45_overlay.md R115;
log 6). -/
def placeEntry (e : Overlay) : List (Option Overlay) → List (Option Overlay)
  | [] => [some e]
  | none :: rest => some e :: rest
  | some f :: rest => some f :: placeEntry e rest

/-- The handle after h: 0, exhausted, after MAX_HANDLE (10_state.md R31). -/
def handleAfter (h : Word) : Word := if h = Config.maxHandle then 0 else h + 1

/-- The rows of the strip on this panel, `min(8, HEIGHT)` (42_update.md R99, with STRIP_ROWS for its 8: 00_scope.md R7). -/
def stripRowsOf (c : Config) : Nat := min c.stripRows c.height

end Sys2Proof.Machine
end

