-- ==== Sys2Proof/Machine/Datapath.lean ====
section
/-! DEFINITION. The datapath of an update: compositor, dithering engine and line framer (40_datapath.md). -/

namespace Sys2Proof.Machine

/-! ### Compositor -/

/-- `FrameLoad(y1, y2)` without its event (40_datapath.md R71): each pixel of the rows is drawn from the frame source
once, in ascending y and then x (20_memory.md R42). -/
def frameLoad (c : Config) (y1 y2 : Nat) (p : Source Byte × Memory) : Source Byte × Memory :=
  forRange y1 y2 (fun y p =>
    forRange 0 c.width (fun x p =>
      let (sample, frame) := p.1.draw Config.freeFrame
      (frame, p.2.write (y * c.width + x) sample)) p) p

/-- Put an entry before the first one whose handle is not smaller. -/
def insertByHandle (e : Overlay) : List Overlay → List Overlay
  | [] => [e]
  | f :: rest => if e.handle ≤ f.handle then e :: f :: rest else f :: insertByHandle e rest

/-- Entries in ascending handle order (40_datapath.md R72). -/
def sortByHandle : List Overlay → List Overlay
  | [] => []
  | e :: rest => insertByHandle e (sortByHandle rest)

/-- The live and visible entries, by ascending handle (40_datapath.md R72). -/
def visibleEntries (ent : List (Option Overlay)) : List Overlay :=
  sortByHandle ((ent.filterMap id).filter (·.visible))

/-- Pixel (ox, oy) of an entry: byte oy·w + ox of its pixels (10_state.md R30). An entry holds w·h of them, so the
default is never read (log 16). -/
def Overlay.pixel (e : Overlay) (ox oy : Nat) : Byte := e.pix.getD (oy * e.w.toNat + ox) 0

/-- One entry's pixels copied into GRAY, clipped to the rows [y1, y2) (40_datapath.md R72). -/
def compositeEntry (c : Config) (y1 y2 : Nat) (e : Overlay) (gray : Memory) : Memory :=
  forRange 0 e.h.toNat (fun oy gray =>
    let sy := e.y.toNat + oy
    if y1 ≤ sy ∧ sy < y2 then
      forRange 0 e.w.toNat (fun ox gray =>
        let sx := e.x.toNat + ox
        gray.write (sy * c.width + sx) (e.pixel ox oy)) gray
    else gray) gray

/-- `OverlayComposite(y1, y2)` (40_datapath.md R72). -/
def overlayComposite (c : Config) (ent : List (Option Overlay)) (y1 y2 : Nat) (gray : Memory) : Memory :=
  (visibleEntries ent).foldl (fun gray e => compositeEntry c y1 y2 e gray) gray

/-- Row r of GLYPH(code) (00_scope.md R8): the listed row, or the free one (log 15). -/
def glyphRow (c : Config) (code : Byte) (r : Nat) : Nat :=
  match c.glyphs.find? (fun g => decide (g.code = code)) with
  | some g => (g.rows[r]?).getD (Config.freeGlyph code r)
  | none => Config.freeGlyph code r

/-- A glyph bit as a grayscale byte: on 0xFF, off 0x00 (40_datapath.md R73, 90_conflicts.md C9). -/
def glyphSample (on : Bool) : Byte := if on then 0xFF else 0x00

/-- The cell of slot i drawn with a glyph code, clipped to the panel and to the rows [y1, y2) (40_datapath.md R73, with
GLYPH_SIZE for its 8: 00_scope.md R7, log 23). -/
def compositeCell (c : Config) (y1 y2 i : Nat) (code : Byte) (gray : Memory) : Memory :=
  let x0 : Int := (c.width : Int) - (c.glyphSize : Int) * ((i : Int) + 1)
  forRange 0 c.glyphSize (fun r gray =>
    if r < c.height ∧ y1 ≤ r ∧ r < y2 then
      forRange 0 c.glyphSize (fun k gray =>
        let sx : Int := x0 + k
        if 0 ≤ sx then
          gray.write (r * c.width + sx.toNat) (glyphSample ((glyphRow c code r).testBit (c.glyphSize - 1 - k)))
        else gray) gray
    else gray) gray

/-- `IndicatorComposite(y1, y2)` (40_datapath.md R73, R74): code 0 is an empty slot. -/
def indicatorComposite (c : Config) (ind : Vector Byte Config.maxIndicators) (y1 y2 : Nat) (gray : Memory) :
    Memory :=
  forRange 0 Config.maxIndicators (fun i gray =>
    let code := ind.toList.getD i 0
    if code ≠ 0 then compositeCell c y1 y2 i code gray else gray) gray

/-! ### Dithering engine and line framer -/

/-- `Threshold(x, y)` (40_datapath.md R76). -/
def threshold (c : Config) (mode : DitherMode) (cutoff : Byte) (x y : Nat) : Byte :=
  match mode with
  | .off => cutoff
  | .two => (c.dither2.get ⟨x % 2, Nat.mod_lt _ (by decide)⟩).get ⟨y % 2, Nat.mod_lt _ (by decide)⟩
  | .four => (c.dither4.get ⟨x % 4, Nat.mod_lt _ (by decide)⟩).get ⟨y % 4, Nat.mod_lt _ (by decide)⟩

/-- What the converter reads besides GRAY: the configuration and the configuration registers (40_datapath.md R84). -/
structure ConvertSettings where
  cfg : Config
  invert : Bool
  mode : DitherMode
  cutoff : Byte
  deriving DecidableEq, Repr

/-- Payload byte j of row y: eight samples against their thresholds, packed with column 8j + k in bit 7 − k, then
complemented if INVERT = 1 (40_datapath.md R78, R79, R80). `gray` answers the GRAY byte at an offset. -/
def convertByte (cs : ConvertSettings) (gray : Nat → Byte) (y j : Nat) : Byte :=
  let d := forRange 0 8 (fun k d =>
    let x := 8 * j + k
    let s := gray (y * cs.cfg.width + x)
    if threshold cs.cfg cs.mode cs.cutoff x y ≤ s then d ||| (0x80#8 >>> k) else d) 0#8
  if cs.invert then ~~~d else d

/-- `ConvertRow(y, y1)` (40_datapath.md R84): the tagged line of row y, written at (y − y1)·S. -/
def convertRow (cs : ConvertSettings) (gray : Nat → Byte) (y1 y : Nat) (tagged : Memory) : Memory :=
  let base := (y - y1) * cs.cfg.stride
  let tagged := forRange 0 cs.cfg.bytesPerRow (fun j tagged =>
    tagged.write (base + 1 + j) (convertByte cs gray y j)) tagged
  let tagged := tagged.write base (rowAddress y)
  tagged.write (base + cs.cfg.stride - 1) 0x00

/-- `for y in [y1, y2): ConvertRow(y, y1)` (42_update.md R95). -/
def convertRows (cs : ConvertSettings) (gray : Nat → Byte) (y1 y2 : Nat) (tagged : Memory) : Memory :=
  forRange y1 y2 (fun y tagged => convertRow cs gray y1 y tagged) tagged

end Sys2Proof.Machine
end

