-- ==== Sys2Proof/Machine/Transport.lean ====
section
/-! DEFINITION. The SPI transmitter (41_transport.md). Each operation answers whether the transaction succeeded. -/

namespace Sys2Proof.Machine

/-- One answer of the bus (41_transport.md R88). -/
def Io.askBus (io : Io) : Bool × Io :=
  let (accepted, bus) := io.bus.draw Config.freeBus
  (accepted, { io with bus := bus })

/-- The bytes of a transaction one by one; the first that the bus refuses ends it. After the last byte the bus may
still report an error (41_transport.md R86, R88). -/
def Io.sendBytes : List Byte → Io → Io × Bool
  | [], io =>
    let (accepted, io) := io.askBus
    if accepted then (io, true) else (io.emit .spiFail, false)
  | b :: rest, io =>
    let (accepted, io) := io.askBus
    if accepted then Io.sendBytes rest (io.emit (.spi b)) else (io.emit .spiFail, false)

/-- `SpiTransaction(b)`: the bytes inside chip select and its guards, which every path closes (41_transport.md R86). -/
def Io.transaction (c : Config) (bytes : List Byte) (io : Io) : Io × Bool :=
  let opened := (io.driveCs true).emit (.wait .csSetup c.csSetupTime)
  let sent := Io.sendBytes bytes opened
  ((sent.1.emit (.wait .csHold c.csHoldTime)).driveCs false, sent.2)

/-- `ClearScreen()` (41_transport.md R91). -/
def Io.clearScreen (c : Config) (io : Io) : Io × Bool := io.transaction c (clearBytes c)

/-- The bytes of `WriteLines(n)`: the command byte, the first n·S bytes of TAGGED, the final trailer
(41_transport.md R90). `tagged` answers the TAGGED byte at an offset. -/
def writeLinesOf (c : Config) (tagged : Nat → Byte) (n : Nat) : List Byte :=
  c.cmdWriteLines ::
    ((List.range (n * c.stride)).map tagged ++ List.replicate c.finalTrailerBytes 0)

/-- `WriteLines(n)` (41_transport.md R90). -/
def Io.writeLines (c : Config) (tagged : Nat → Byte) (n : Nat) (io : Io) : Io × Bool :=
  io.transaction c (writeLinesOf c tagged n)

/-- The meaning of WIRE_CLEAR: the transmitter sends the form WC, one transaction (41_transport.md R91; log 7). -/
def execWireClear (s : State) : Host.Outcome State Fault Refusal :=
  .next { s with io := (s.io.clearScreen s.cfg).1 }

/-- The meaning of WIRE_WRITE_LINES: the transmitter sends the form WW of these rows, one transaction (41_transport.md
R90, 30_encoding.md R69; log 7). -/
def execWireWriteLines (y1 : Byte) (rows : List (List Byte)) (s : State) : Host.Outcome State Fault Refusal :=
  .next { s with io := (s.io.transaction s.cfg (writeLinesBytes s.cfg y1.toNat rows)).1 }

end Sys2Proof.Machine
end

