-- ==== Sys2Proof/Machine/Update.lean ====
section
/-! DEFINITION. The update procedure, the refresh triggers and the two update commands (42_update.md). -/

namespace Sys2Proof.Machine

/-- A byte of GRAY as the converter reads it. -/
def State.grayAt (s : State) (a : Nat) : Byte := s.gray.read (Config.freeGray s.resets) a

/-- A byte of TAGGED as the transmitter reads it. -/
def State.taggedAt (s : State) (a : Nat) : Byte := s.tagged.read (Config.freeTagged s.resets) a

/-- The converter's settings in a state. -/
def State.convertSettings (s : State) : ConvertSettings :=
  { cfg := s.cfg, invert := s.invert, mode := s.ditherMode, cutoff := s.cutoff }

/-- Compositing: load, overlays, indicators, in this order (40_datapath.md R70). -/
def composite (y1 y2 : Nat) (s : State) : State :=
  let loaded := frameLoad s.cfg y1 y2 (s.frame, s.gray)
  let g1 := if s.cfg.overlaysEnabled then overlayComposite s.cfg s.ent y1 y2 loaded.2 else loaded.2
  let g2 := if s.cfg.indicatorsEnabled then indicatorComposite s.cfg s.ind y1 y2 g1 else g1
  { s with frame := loaded.1, gray := g2, io := s.io.emit (.frameRead y1 y2) }

/-- Conversion and framing of the rows into TAGGED (40_datapath.md R84). -/
def convert (y1 y2 : Nat) (s : State) : State :=
  { s with tagged := convertRows s.convertSettings s.grayAt y1 y2 s.tagged }

/-- Transmission of the first n tagged rows (41_transport.md R90) and the code it gives (42_update.md R98). -/
def transmit (n : Nat) (s : State) : State × Reply :=
  let sent := s.io.writeLines s.cfg s.taggedAt n
  ({ s with io := sent.1 }, if sent.2 then .ok else .error .transportError)

/-- `Update(y1, y2)` (42_update.md R95). -/
def update (y1 y2 : Nat) (s : State) : State × Reply :=
  if s.pstate ≠ .active then (s, .okSkipped)
  else if y1 = y2 then (s, .ok)
  else transmit (y2 - y1) (convert y1 y2 (composite y1 y2 s))

/-- The FULL trigger (42_update.md R99). -/
def fullRefresh (s : State) : State × Reply := update 0 s.cfg.height s

/-- The STRIP trigger (42_update.md R99). -/
def stripRefresh (s : State) : State × Reply := update 0 (stripRowsOf s.cfg) s

/-- The rule of DAMAGE (42_update.md R100). -/
def damageRule (x1 x2 y1 y2 : Half) (s : State) : State × Reply :=
  if rectInPanel s.cfg x1 x2 y1 y2 then update y1.toNat y2.toNat s else raiseFault s

/-- The meaning of DAMAGE (42_update.md R100). -/
def execDamage (x1 x2 y1 y2 : Half) (s : State) : Host.Outcome State Fault Refusal :=
  .next (commandCycle (.damage x1 x2 y1 y2) (damageRule x1 x2 y1 y2) s)

/-- The meaning of REFRESH (42_update.md R101). -/
def execRefresh (s : State) : Host.Outcome State Fault Refusal :=
  .next (commandCycle .refresh fullRefresh s)

end Sys2Proof.Machine
end

