-- ==== Sys2Proof/Machine/Control.lean ====
section
/-! DEFINITION. The control commands (44_control.md). -/

namespace Sys2Proof.Machine

/-- The rule of SET_INVERT (44_control.md R111). -/
def setInvertRule (v : Bool) (s : State) : State × Reply :=
  let s1 := { s with invert := v }
  if v ≠ s.invert then fullRefresh s1 else (s1, .ok)

/-- The rule of SET_DITHER (44_control.md R112). -/
def setDitherRule (mode : DitherMode) (s : State) : State × Reply :=
  let s1 := { s with ditherMode := mode }
  if mode ≠ s.ditherMode then fullRefresh s1 else (s1, .ok)

/-- The rule of SET_CUTOFF (44_control.md R113). -/
def setCutoffRule (c : Byte) (s : State) : State × Reply :=
  let s1 := { s with cutoff := c }
  if c ≠ s.cutoff then fullRefresh s1 else (s1, .ok)

/-- The rule of SET_INDICATOR (44_control.md R114). -/
def setIndicatorRule (idx g : Byte) (s : State) : State × Reply :=
  if h : idx.toNat < Config.maxIndicators then
    stripRefresh { s with ind := s.ind.set idx.toNat g h }
  else raise .indexOutOfRange s

/-- The meaning of SET_INVERT (44_control.md R111). -/
def execSetInvert (v : Bool) (s : State) : Host.Outcome State Fault Refusal :=
  .next (commandCycle (.setInvert v) (setInvertRule v) s)

/-- The meaning of SET_DITHER (44_control.md R112). -/
def execSetDither (mode : DitherMode) (s : State) : Host.Outcome State Fault Refusal :=
  .next (commandCycle (.setDither mode) (setDitherRule mode) s)

/-- The meaning of SET_CUTOFF (44_control.md R113). -/
def execSetCutoff (c : Byte) (s : State) : Host.Outcome State Fault Refusal :=
  .next (commandCycle (.setCutoff c) (setCutoffRule c) s)

/-- The meaning of SET_INDICATOR (44_control.md R114). -/
def execSetIndicator (idx g : Byte) (s : State) : Host.Outcome State Fault Refusal :=
  .next (commandCycle (.setIndicator idx g) (setIndicatorRule idx g) s)

end Sys2Proof.Machine
end

