-- ==== Sys2Proof/Machine/Power.lean ====
section
/-! DEFINITION. ENABLE and DISABLE (43_power_vcom.md). -/

namespace Sys2Proof.Machine

/-- The pins of a power-up before the clear-screen command: display-enable raised, VCOM low, settle (43_power_vcom.md
R103). -/
def Io.powerUp (c : Config) (io : Io) : Io :=
  ((io.driveDisp true).vcomLow).emit (.wait .settle c.settleTime)

/-- The rule of ENABLE (43_power_vcom.md R103). -/
def enableRule (s : State) : State × Reply :=
  if s.pstate ≠ .off then raise .sequenceError s
  else
    let s1 := { s with pstate := .poweringUp, io := s.io.powerUp s.cfg }
    let cleared := s1.io.clearScreen s1.cfg
    if cleared.2 then
      ({ s1 with pstate := .active, io := cleared.1.startTimer }, .ok)
    else
      let s2 := { s1 with pstate := .faultedAtPowerUp, io := cleared.1.driveDisp false }
      ({ s2 with pstate := .off }, .error .powerSequenceError)

/-- The rule of DISABLE (43_power_vcom.md R104): the cancel comes before the pins are torn down. -/
def disableRule (s : State) : State × Reply :=
  if s.pstate ≠ .active then raise .sequenceError s
  else
    let s1 := { s with pstate := .disabling, io := s.io.cancelTimer }
    ({ s1 with pstate := .off, io := (s1.io.driveDisp false).vcomLow }, .ok)

/-- The meaning of ENABLE (43_power_vcom.md R103). -/
def execEnable (s : State) : Host.Outcome State Fault Refusal :=
  .next (commandCycle .enable enableRule s)

/-- The meaning of DISABLE (43_power_vcom.md R104). -/
def execDisable (s : State) : Host.Outcome State Fault Refusal :=
  .next (commandCycle .disable disableRule s)

end Sys2Proof.Machine
end

