-- ==== Sys2Proof/Machine/Registry.lean ====
section
/-! DEFINITION. The overlay registry commands (45_overlay.md). -/

namespace Sys2Proof.Machine

/-- The entry that OVL_ADD creates: hidden, its pixels copied (45_overlay.md R115). -/
def newEntry (handle : Word) (x y w h : Half) (pix : List Byte) : Overlay :=
  { handle := handle, x := x, y := y, w := w, h := h, visible := false, pix := pix }

/-- The rule of OVL_ADD (45_overlay.md R115), its checks in the order written there. -/
def ovlAddRule (x y w h : Half) (pix : List Byte) (s : State) : State × Reply :=
  if emptyArea w h then raise .invalidGeometry s
  else if exceedsPanel s.cfg x y w h then raise .invalidGeometry s
  else if s.nextHandle = 0 ∨ s.liveEntries.length = s.cfg.maxOverlays then raise .capacityExceeded s
  else
    ({ s with
        ent := placeEntry (newEntry s.nextHandle x y w h pix) s.ent
        nextHandle := handleAfter s.nextHandle },
      .okData s.nextHandle)

/-- The rule of OVL_REMOVE (45_overlay.md R116). -/
def ovlRemoveRule (handle : Word) (s : State) : State × Reply :=
  match s.entryOf handle with
  | none => raise .invalidHandle s
  | some e =>
    let s1 := s.updateEntry handle fun _ => none
    if e.visible then fullRefresh s1 else (s1, .ok)

/-- Set the visibility of an entry and refresh the whole panel: OVL_SHOW and OVL_HIDE (45_overlay.md R117, R118). -/
def setVisible (v : Bool) (handle : Word) (s : State) : State × Reply :=
  match s.entryOf handle with
  | none => raise .invalidHandle s
  | some _ =>
    fullRefresh (s.updateEntry handle fun slot => slot.map fun e => { e with visible := v })

/-- The rule of OVL_CLEAR (45_overlay.md R119). -/
def ovlClearRule (s : State) : State × Reply :=
  fullRefresh { s with ent := s.ent.map fun _ => none }

/-- The meaning of OVL_ADD (45_overlay.md R115). -/
def execOvlAdd (x y w h : Half) (pix : List Byte) (s : State) : Host.Outcome State Fault Refusal :=
  .next (commandCycle (.ovlAdd x y w h pix) (ovlAddRule x y w h pix) s)

/-- The meaning of OVL_REMOVE (45_overlay.md R116). -/
def execOvlRemove (handle : Word) (s : State) : Host.Outcome State Fault Refusal :=
  .next (commandCycle (.ovlRemove handle) (ovlRemoveRule handle) s)

/-- The meaning of OVL_SHOW (45_overlay.md R117). -/
def execOvlShow (handle : Word) (s : State) : Host.Outcome State Fault Refusal :=
  .next (commandCycle (.ovlShow handle) (setVisible true handle) s)

/-- The meaning of OVL_HIDE (45_overlay.md R118). -/
def execOvlHide (handle : Word) (s : State) : Host.Outcome State Fault Refusal :=
  .next (commandCycle (.ovlHide handle) (setVisible false handle) s)

/-- The meaning of OVL_CLEAR (45_overlay.md R119). -/
def execOvlClear (s : State) : Host.Outcome State Fault Refusal :=
  .next (commandCycle .ovlClear ovlClearRule s)

end Sys2Proof.Machine
end

