-- ==== Sys2Proof/Machine/Dispatch.lean ====
section
/-! DEFINITION. The meaning of every instruction: one arm a constructor. -/

namespace Sys2Proof.Machine

def exec (i : Instr) (s : State) : Host.Outcome State Fault Refusal :=
  match i with
  | .enable => Sys2Proof.Machine.execEnable s
  | .disable => Sys2Proof.Machine.execDisable s
  | .damage x1 x2 y1 y2 => Sys2Proof.Machine.execDamage x1 x2 y1 y2 s
  | .refresh => Sys2Proof.Machine.execRefresh s
  | .setInvert v => Sys2Proof.Machine.execSetInvert v s
  | .setDither mode => Sys2Proof.Machine.execSetDither mode s
  | .setCutoff c => Sys2Proof.Machine.execSetCutoff c s
  | .setIndicator idx g => Sys2Proof.Machine.execSetIndicator idx g s
  | .ovlAdd x y w h pix => Sys2Proof.Machine.execOvlAdd x y w h pix s
  | .ovlRemove handle => Sys2Proof.Machine.execOvlRemove handle s
  | .ovlShow handle => Sys2Proof.Machine.execOvlShow handle s
  | .ovlHide handle => Sys2Proof.Machine.execOvlHide handle s
  | .ovlClear => Sys2Proof.Machine.execOvlClear s
  | .wireClear => Sys2Proof.Machine.execWireClear s
  | .wireWriteLines y1 rows => Sys2Proof.Machine.execWireWriteLines y1 rows s

end Sys2Proof.Machine
end

