-- ==== Sys2Proof/Machine/Port.lean ====
section
/-! DEFINITION. What comes to the block from outside, and one move of the whole machine: command packets, status reads,
ticks between commands, the reset input (00_scope.md R14, 10_state.md R35, 70_reset_and_hazards.md R137). -/

namespace Sys2Proof.Machine

/-- EXEC takes a packet (42_update.md R93): a command runs, any other packet is INVALID_COMMAND; a packet without a
word is no packet (30_encoding.md R58). -/
def runPacket (ws : List Word) (s : State) : Host.Outcome State Fault Refusal :=
  match decodePacket ws with
  | .ok i => exec i s
  | .error .emptyPacket => .refused .emptyPacket
  | .error _ => .next (rejectPacket s)

/-- The transmitter is driven with wire bytes on its own (log 7). -/
def runWire (bs : List Byte) (s : State) : Host.Outcome State Fault Refusal :=
  match decodeWire s.cfg bs with
  | .ok i => exec i s
  | .error e => .refused (.badWireForm e)

/-- HOST reads a register of the status port; the block is not changed (10_state.md R35; log 10). -/
def readStatus (i : BitVec 4) (s : State) : State :=
  { s with reads := s.reads ++ [(i, s.statusWord i)] }

/-- The state is inside a command or inside a VCOM-lock section (log 12). -/
def State.midCommand (s : State) : Bool := s.updateLockHeld || s.io.vcom.lock.isSome

/-- What one move from outside does. -/
def runInput (input : Input) (s : State) : Host.Outcome State Fault Refusal :=
  match input with
  | .packet ws => runPacket ws s
  | .wire bs => runWire bs s
  | .statusRead i => .next (readStatus i s)
  | .tick => .next { s with io := s.io.tick }
  | .reset => .next s.resetInput
  | .resetDuring ws events =>
    match runPacket ws s with
    | .next done => .next (s.resetWithin done events)
    | .fault r => .fault r
    | .refused r => .refused r

/-- One move of the machine: the next input, if there is one; else EXEC waits (60_exceptions.md R136) and VTIMER alone
ticks, at least once while TIMER_RUNNING = 1 (20_memory.md R52 (a); log 14). A configuration that R8 does not admit has
no move (00_scope.md R9). -/
def nextMove (s : State) : Host.Outcome State Fault Refusal :=
  if !s.cfg.ok then .refused .badConfiguration
  else
    match s.inputs with
    | [] => if s.midCommand then .fault .midCommand else .next { s with io := s.io.idle }
    | .reset :: rest => runInput .reset { s with inputs := rest }
    | input :: rest =>
      if s.midCommand then .fault .midCommand else runInput input { s with inputs := rest }

/-- The input that delivers a row of spec/opcode_table.json. -/
def tableInput (c : Config) (nbits w : Nat) : Input :=
  match tableDelivery c nbits w with
  | .packet ws => .packet ws
  | .wire bs => .wire bs

end Sys2Proof.Machine
end

