-- ==== Sys2Proof/Machine/Step.lean ====
section
/-! DEFINITION. One step of the machine. -/

namespace Sys2Proof.Machine

/-- One step: the next move (log 8). -/
def step (s : State) : Host.Outcome State Fault Refusal := nextMove s

/-- The state with a table row's instruction as the very next input, where `step` takes it (log 8). -/
def State.withFetchWord (s : State) (nbits w : Nat) : State :=
  { s with inputs := tableInput s.cfg nbits w :: s.inputs }

end Sys2Proof.Machine
end

