-- ==== Sys2Proof/Safety.lean ====
section
/-! DEFINITION. What counts as a safe run, in the terms claims use: the invariant of the states between commands, what
a command adds to the trace, the picture an update must send, the monitors of the hazards of 70_reset_and_hazards.md
R142, and what VTIMER alone may touch. Nothing here is used by the machine. -/

namespace Sys2Proof.Machine

/-- A good final state is one without the sticky fault (60_exceptions.md R123). -/
def State.good (s : State) : Bool := !s.fault

/-! ### The invariant between commands -/

/-- A live entry lies inside the panel, is not empty, and holds its w·h pixels (45_overlay.md R115, 10_state.md R30). -/
def Overlay.fits (c : Config) (e : Overlay) : Prop :=
  e.w.toNat * e.h.toNat ≠ 0 ∧ e.x.toNat + e.w.toNat ≤ c.width ∧ e.y.toNat + e.h.toNat ≤ c.height ∧
    e.pix.length = e.w.toNat * e.h.toNat

/-- A live entry's handle was issued: it is not 0 and lies below NEXT_HANDLE, unless all are issued (10_state.md R31). -/
def Overlay.issued (next : Word) (e : Overlay) : Prop :=
  e.handle ≠ 0 ∧ (next ≠ 0 → e.handle < next)

/-- What holds between commands (10_state.md R18, R19, R30, R31, R36 to R39; 20_memory.md R41, R49). -/
structure Inv (s : State) : Prop where
  /-- The configuration is one that R8 admits. -/
  config : s.cfg.ok = true
  /-- EXEC is idle (10_state.md R18). -/
  idle : s.phase = .idle
  /-- Nobody holds the VCOM lock (10_state.md R36). -/
  unlocked : s.io.vcom.lock = none
  /-- CS_ASSERTED = 0 (10_state.md R39). -/
  deselected : s.io.cs = false
  /-- PSTATE is Off or Active (10_state.md R19). -/
  settled : s.pstate = .off ∨ s.pstate = .active
  /-- TIMER_RUNNING = 1 iff PSTATE = Active (10_state.md R38). -/
  timer : s.io.vcom.running = true ↔ s.pstate = .active
  /-- DISP_OUT = 1 iff PSTATE = Active (10_state.md R38). -/
  panel : s.io.disp = true ↔ s.pstate = .active
  /-- PSTATE = Off leaves VCOM_OUT = 0 (10_state.md R38). -/
  vcomLow : s.pstate = .off → s.io.vcom.out = false
  /-- VCOM_TOGGLE = VCOM_OUT (10_state.md R37). -/
  vcomLevel : s.io.vcom.toggle = s.io.vcom.out
  /-- SKIPPED = 1 only with RESULT = OK (42_update.md R96). -/
  skip : s.skipped = true → s.result = .ok
  /-- The registry has its MAX_OVERLAYS slots (10_state.md R30). -/
  slots : s.ent.length = s.cfg.maxOverlays
  /-- Every live entry fits the panel. -/
  entriesFit : ∀ e ∈ s.liveEntries, e.fits s.cfg
  /-- Every live entry's handle was issued. -/
  entriesIssued : ∀ e ∈ s.liveEntries, e.issued s.nextHandle
  /-- No two live entries have one handle (10_state.md R31). -/
  handlesDistinct : (s.liveEntries.map (·.handle)).Nodup
  /-- GRAY is in canonical form and inside its space (20_memory.md R41). -/
  grayForm : s.gray.wf = true
  grayInside : ∀ cell ∈ s.gray, cell.1 < s.cfg.width * s.cfg.height
  /-- TAGGED is in canonical form and inside its space (20_memory.md R41). -/
  taggedForm : s.tagged.wf = true
  taggedInside : ∀ cell ∈ s.tagged, cell.1 < s.cfg.height * s.cfg.stride

/-! ### What a command adds to the trace -/

/-- The events that come after those of an earlier state. -/
def newEvents (s t : State) : List Event := t.io.trace.drop s.io.trace.length

/-- The events on the VCOM pin. -/
def Event.onVcom : Event → Bool
  | .gpioVcom _ => true
  | .gpioVcomFail => true
  | .cs _ => false
  | .spi _ => false
  | .spiFail => false
  | .wait _ _ => false
  | .gpioDisp _ => false
  | .frameRead _ _ => false
  | .result _ => false

/-- The events that are not on the VCOM pin: VTIMER makes none of them (43_power_vcom.md R105). -/
def withoutVcom (evs : List Event) : List Event := evs.filter fun e => !e.onVcom

/-- The bytes that went out on the data line. -/
def spiBytes : List Event → List Byte
  | [] => []
  | .spi b :: rest => b :: spiBytes rest
  | _ :: rest => spiBytes rest

/-- Which draw of a transaction of n bytes the bus answers with an error: k < n refuses byte k, n is an error at the
end, none is success (41_transport.md R88). -/
def busRefusal (bus : Source Bool) (n : Nat) : Option Nat :=
  (List.range (n + 1)).find? fun k => !bus.peek Config.freeBus k

/-- The events of `SpiTransaction(bytes)` for an outcome of the bus (41_transport.md R86). -/
def transactionEvents (c : Config) (bytes : List Byte) (refusal : Option Nat) : List Event :=
  [.cs true, .wait .csSetup c.csSetupTime] ++ (bytes.take (refusal.getD bytes.length)).map .spi ++
    (if refusal.isSome then [.spiFail] else []) ++ [.wait .csHold c.csHoldTime, .cs false]

/-! ### The picture an update must send -/

/-- The sample an update from row y1 draws for pixel (x, y): rows in ascending order, columns ascending in each
(20_memory.md R42). -/
def State.sampleAt (s : State) (y1 x y : Nat) : Byte :=
  s.frame.peek Config.freeFrame ((y - y1) * s.cfg.width + x)

/-- The pixel lies in the entry's rectangle. -/
def Overlay.covers (e : Overlay) (x y : Nat) : Bool :=
  decide (e.x.toNat ≤ x ∧ x < e.x.toNat + e.w.toNat ∧ e.y.toNat ≤ y ∧ y < e.y.toNat + e.h.toNat)

/-- Of the visible live entries that cover the pixel, the one with the highest handle (40_datapath.md R72). -/
def topOverlay (ent : List (Option Overlay)) (x y : Nat) : Option Overlay :=
  (ent.filterMap id).foldl (fun best e =>
    if e.visible && e.covers x y && best.all (fun b => decide (b.handle ≤ e.handle)) then some e else best) none

/-- What the overlays put at a pixel. -/
def State.overlayByte (s : State) (x y : Nat) : Option Byte :=
  if s.cfg.overlaysEnabled then
    (topOverlay s.ent x y).map fun e => e.pixel (x - e.x.toNat) (y - e.y.toNat)
  else none

/-- What the indicators put at a pixel of the panel: slot i spans the GLYPH_SIZE columns that end GLYPH_SIZE·i columns
from the right edge (40_datapath.md R73). -/
def State.indicatorByte (s : State) (x y : Nat) : Option Byte :=
  let fromRight := s.cfg.width - 1 - x
  let slot := fromRight / s.cfg.glyphSize
  let code := s.ind.toList.getD slot 0
  if s.cfg.indicatorsEnabled ∧ y < s.cfg.glyphSize ∧ slot < Config.maxIndicators ∧ code ≠ 0 then
    some (glyphSample ((glyphRow s.cfg code y).testBit (fromRight % s.cfg.glyphSize)))
  else none

/-- The composited byte of a pixel in an update from row y1: indicators over overlays over the frame (40_datapath.md
R70). -/
def State.pictureByte (s : State) (y1 x y : Nat) : Byte :=
  (s.indicatorByte x y).getD ((s.overlayByte x y).getD (s.sampleAt y1 x y))

/-- Eight bits as a byte, the first most significant: Σ bit k · 2^(7 − k) (40_datapath.md R79). -/
def packBits (bit : Nat → Bool) : Byte :=
  BitVec.ofNat 8 (((List.range 8).map fun k => (bit k).toNat * 2 ^ (7 - k)).sum)

/-- Payload byte j of row y in an update from row y1 (40_datapath.md R78, R79, R80). -/
def State.payloadByte (s : State) (y1 y j : Nat) : Byte :=
  let d := packBits fun k =>
    decide (threshold s.cfg s.ditherMode s.cutoff (8 * j + k) y ≤ s.pictureByte y1 (8 * j + k) y)
  if s.invert then d ^^^ 0xFF#8 else d

/-- The payloads of the rows [y1, y2). -/
def State.pictureRows (s : State) (y1 y2 : Nat) : List (List Byte) :=
  (List.range (y2 - y1)).map fun r =>
    (List.range s.cfg.bytesPerRow).map fun j => s.payloadByte y1 (y1 + r) j

/-- The bytes that an update of the rows [y1, y2) sends: form WW of the picture (30_encoding.md R69). -/
def State.updateBytes (s : State) (y1 y2 : Nat) : List Byte :=
  writeLinesBytes s.cfg y1 (s.pictureRows y1 y2)

/-- The code of an update that sends n bytes: OK, or TRANSPORT_ERROR where the bus answers an error (42_update.md R98). -/
def State.busCode (s : State) (n : Nat) : ResultCode :=
  if (busRefusal s.io.bus n).isSome then .transportError else .ok

/-- The events, but for those on the VCOM pin, that a command with an update of the rows [y1, y2) emits in Active, from
a state that holds the picture's sources (42_update.md R95, R93). -/
def State.updateEvents (s : State) (y1 y2 : Nat) : List Event :=
  let bytes := s.updateBytes y1 y2
  .frameRead y1 y2 :: (transactionEvents s.cfg bytes (busRefusal s.io.bus bytes.length) ++
    [.result (s.busCode bytes.length)])

/-! ### Monitors of the hazards (70_reset_and_hazards.md R142) -/

/-- Where a chip-select transaction stands. -/
inductive BusPhase where
  | idle
  | selected
  | sending
  | failed
  | guarded
  deriving DecidableEq, Repr

/-- The order of the events of a transaction: assert, setup guard, bytes, at most one failure, hold guard, deassert
(41_transport.md R86). Events that are not on the bus may stand between transactions, those of the VCOM pin anywhere;
none where the order is broken. -/
def busStep (c : Config) : BusPhase → Event → Option BusPhase
  | p, .gpioVcom _ => some p
  | p, .gpioVcomFail => some p
  | .idle, .cs true => some .selected
  | .idle, .gpioDisp _ => some .idle
  | .idle, .frameRead _ _ => some .idle
  | .idle, .result _ => some .idle
  | .idle, .wait .settle _ => some .idle
  | .selected, .wait .csSetup t => if c.csSetupTime ≤ t then some .sending else none
  | .sending, .spi _ => some .sending
  | .sending, .spiFail => some .failed
  | .sending, .wait .csHold t => if c.csHoldTime ≤ t then some .guarded else none
  | .failed, .wait .csHold t => if c.csHoldTime ≤ t then some .guarded else none
  | .guarded, .cs false => some .idle
  | _, _ => none

/-- The bus monitor over a trace. -/
def busRun (c : Config) : BusPhase → List Event → Option BusPhase
  | p, [] => some p
  | p, e :: rest =>
    match busStep c p e with
    | none => none
    | some q => busRun c q rest

/-- Where the panel's power stands. -/
inductive PanelPhase where
  | off
  | raised
  | settled
  | clearing
  | clearFailed
  | running
  deriving DecidableEq, Repr

/-- The order of power-up and power-down: display-enable, settle, a clear-screen transaction; VCOM goes high or fails
only after a clear that succeeded and before display-enable goes low; bytes go out only to a settled panel
(43_power_vcom.md R102 to R105). None where the order is broken. -/
def panelStep (c : Config) : PanelPhase → Event → Option PanelPhase
  | .off, .gpioDisp true => some .raised
  | .off, .gpioVcom false => some .off
  | .off, .result _ => some .off
  | .raised, .gpioVcom false => some .raised
  | .raised, .wait .settle t => if c.settleTime ≤ t then some .settled else none
  | .settled, .cs true => some .clearing
  | .clearing, .wait _ _ => some .clearing
  | .clearing, .spi _ => some .clearing
  | .clearing, .spiFail => some .clearFailed
  | .clearing, .cs false => some .running
  | .clearFailed, .wait _ _ => some .clearFailed
  | .clearFailed, .cs false => some .clearFailed
  | .clearFailed, .gpioDisp false => some .off
  | .running, .gpioDisp false => some .off
  | .running, .gpioDisp true => none
  | .running, _ => some .running
  | _, _ => none

/-- The panel monitor over a trace. -/
def panelRun (c : Config) : PanelPhase → List Event → Option PanelPhase
  | p, [] => some p
  | p, e :: rest =>
    match panelStep c p e with
    | none => none
    | some q => panelRun c q rest

/-- The panel phase that goes with a power state held between commands. -/
def PowerState.panelPhase (p : PowerState) : PanelPhase :=
  if p = .active then .running else .off

/-! ### What VTIMER alone may touch -/

/-- The pins with all that a tick may change taken out: VCOM_TOGGLE, VCOM_OUT, VCOM_MISSED, the lock, the VCOM events,
and what VTIMER draws (43_power_vcom.md R105, 20_memory.md R51). -/
def Io.withoutVcom (io : Io) : Io :=
  { io with
    vcom := { io.vcom with toggle := false, out := false, missed := 0, lock := none }
    trace := Sys2Proof.Machine.withoutVcom io.trace
    vpin := Source.fresh
    ticks := Source.fresh }

/-- A state with all that a tick may change taken out. -/
def State.withoutVcom (s : State) : State := { s with io := s.io.withoutVcom }

/-! ### Events with ticks between them -/

/-- The pins after these events one by one, each with a number of ticks before it, and nothing else changed. -/
def Io.ticking : List (Nat × Event) → Io → Io
  | [], io => io
  | (n, e) :: rest, io => Io.ticking rest ((Io.ticksDone n io).log e)

/-- The second pins are the first after exactly these events, with some number of ticks before each (20_memory.md R51);
VTIMER's own source of tick numbers may have moved on, and only while the timer runs. Where the timer is stopped no tick
does anything, so the pins are then the first with the events added. -/
def Io.Emits (io : Io) (evs : List Event) (io' : Io) : Prop :=
  ∃ (counts : List Nat) (ticks : Source Nat), counts.length = evs.length ∧
    (io.vcom.running = false → ticks = io.ticks) ∧
    io' = { Io.ticking (counts.zip evs) io with ticks := ticks }

/-- The pins with so many answers of the bus drawn and the chip select deasserted: all that a transaction leaves behind
but its events. -/
def Io.sent (io : Io) (draws : Nat) : Io := { io with bus := io.bus.skip draws, cs := false }

/-- The levels driven onto the VCOM pin. -/
def vcomLevels : List Event → List Bool
  | [] => []
  | .gpioVcom l :: rest => l :: vcomLevels rest
  | _ :: rest => vcomLevels rest

/-- How many VCOM writes failed. -/
def vcomFailures (evs : List Event) : Nat := evs.countP fun e => decide (e = .gpioVcomFail)

/-! ### Runs -/

/-- A run that goes on forever; before each step the host may add inputs to those that wait (00_scope.md R14). -/
def OpenRun (run : Nat → State) (host : Nat → List Input) : Prop :=
  ∀ k, step { run k with inputs := (run k).inputs ++ host k } = .next (run (k + 1))

/-- Weak fairness of VTIMER: from every point on, the timer is stopped at some later point or ticks in some later step
(20_memory.md R52 (a), 70_reset_and_hazards.md R143). ENABLE and DISABLE, whose own VCOM event is no tick, find or leave
the timer stopped. -/
def Fair (run : Nat → State) : Prop :=
  ∀ k, ∃ m, k ≤ m ∧
    ((run m).io.vcom.running = false ∨ ∃ e ∈ newEvents (run m) (run (m + 1)), e.onVcom = true)

/-- The instruction is one of the thirteen commands, no wire form. -/
def isCommand : Instr → Bool
  | .enable => true
  | .disable => true
  | .damage _ _ _ _ => true
  | .refresh => true
  | .setInvert _ => true
  | .setDither _ => true
  | .setCutoff _ => true
  | .setIndicator _ _ => true
  | .ovlAdd _ _ _ _ _ => true
  | .ovlRemove _ => true
  | .ovlShow _ => true
  | .ovlHide _ => true
  | .ovlClear => true
  | .wireClear => false
  | .wireWriteLines _ _ => false

/-! ### What a command leaves -/

/-- The state as the end of a command leaves it: EXEC idle, the reply in STATUS and RESULT_DATA, the pins as given, all
else as in s (42_update.md R93). -/
def State.ended (s : State) (r : Reply) (io : Io) : State :=
  { s with phase := .idle, result := r.code, skipped := r.skipped, resultData := r.data, io := io }

/-- The state with a row range drawn from the frame source, and with these contents of GRAY and TAGGED. -/
def State.drawn (s : State) (y1 y2 : Nat) (gray tagged : Memory) : State :=
  { s with frame := s.frame.skip ((y2 - y1) * s.cfg.width), gray := gray, tagged := tagged }

/-- GRAY and TAGGED as an update of the rows [y1, y2) from s leaves them: the rows of GRAY hold the picture and no other
byte of GRAY changed; the first (y2 − y1)·S bytes of TAGGED are the tagged lines and no other byte of TAGGED changed
(40_datapath.md R71 to R73, R84; 20_memory.md R49). -/
def BuffersUpdated (s : State) (y1 y2 : Nat) (gray tagged : Memory) : Prop :=
  (∀ x y, x < s.cfg.width → y1 ≤ y → y < y2 →
      gray.read (Config.freeGray s.resets) (y * s.cfg.width + x) = s.pictureByte y1 x y) ∧
    (∀ a, ¬ (y1 * s.cfg.width ≤ a ∧ a < y2 * s.cfg.width) →
      gray.read (Config.freeGray s.resets) a = s.gray.read (Config.freeGray s.resets) a) ∧
    (∀ a, a < (y2 - y1) * s.cfg.stride →
      tagged.read (Config.freeTagged s.resets) a = (taggedRows y1 (s.pictureRows y1 y2)).getD a 0) ∧
    ∀ a, (y2 - y1) * s.cfg.stride ≤ a →
      tagged.read (Config.freeTagged s.resets) a = s.tagged.read (Config.freeTagged s.resets) a

/-- The instruction answers a next state in which the rows [y1, y2) of the picture of `stored` have been sent: `stored`
is s with what the command stores before its update. The code is OK or TRANSPORT_ERROR as the bus answers; GRAY, TAGGED,
the draws, the events and the pins are as the update leaves them, with some number of ticks before each event; all else
is as in `stored` (42_update.md R95, R98, R99). -/
def UpdateRuns (i : Instr) (s stored : State) (y1 y2 : Nat) : Prop :=
  let n := (stored.updateBytes y1 y2).length
  ∃ gray tagged io,
    exec i s = .next ((stored.drawn y1 y2 gray tagged).ended ⟨stored.busCode n, false, 0⟩ io) ∧
      BuffersUpdated stored y1 y2 gray tagged ∧
      Io.Emits (stored.io.sent ((busRefusal stored.io.bus n).getD n + 1)) (stored.updateEvents y1 y2) io

/-- The instruction answers a next state that is `stored`, with the reply written, and no event but RESULT and those of
some number of ticks before it. -/
def EndsQuietly (i : Instr) (s stored : State) (r : Reply) : Prop :=
  ∃ io, exec i s = .next (stored.ended r io) ∧ Io.Emits stored.io [.result r.code] io

/-- The registry with every live entry of a handle changed. -/
def mapHandle (handle : Word) (f : Overlay → Overlay) (ent : List (Option Overlay)) : List (Option Overlay) :=
  ent.map (Option.map fun e => if e.handle = handle then f e else e)

/-- The registry without the live entries of a handle. -/
def dropHandle (handle : Word) (ent : List (Option Overlay)) : List (Option Overlay) :=
  ent.map (Option.filter fun e => decide (e.handle ≠ handle))

/-- The first check that a command fails in a state, in the order of 60_exceptions.md R124: FAULT for any command but
DISABLE, then the command's own checks as its rule lists them. Decoding comes before, execution errors after. -/
def commandCheck (s : State) : Instr → Option ResultCode
  | .enable =>
    if s.fault then some .preconditionFault
    else if s.pstate ≠ .off then some .sequenceError else none
  | .disable => if s.pstate ≠ .active then some .sequenceError else none
  | .damage x1 x2 y1 y2 =>
    if s.fault ∨ ¬ (x1.toNat ≤ x2.toNat ∧ x2.toNat ≤ s.cfg.width ∧ y1.toNat ≤ y2.toNat ∧ y2.toNat ≤ s.cfg.height)
    then some .preconditionFault else none
  | .refresh => if s.fault then some .preconditionFault else none
  | .setInvert _ => if s.fault then some .preconditionFault else none
  | .setDither _ => if s.fault then some .preconditionFault else none
  | .setCutoff _ => if s.fault then some .preconditionFault else none
  | .setIndicator idx _ =>
    if s.fault then some .preconditionFault
    else if 6 ≤ idx.toNat then some .indexOutOfRange else none
  | .ovlAdd x y w h _ =>
    if s.fault then some .preconditionFault
    else if w = 0 ∨ h = 0 then some .invalidGeometry
    else if s.cfg.width < x.toNat + w.toNat ∨ s.cfg.height < y.toNat + h.toNat then some .invalidGeometry
    else if s.nextHandle = 0 ∨ s.liveEntries.length = s.cfg.maxOverlays then some .capacityExceeded else none
  | .ovlRemove handle =>
    if s.fault then some .preconditionFault
    else if ∀ e ∈ s.liveEntries, e.handle ≠ handle then some .invalidHandle else none
  | .ovlShow handle =>
    if s.fault then some .preconditionFault
    else if ∀ e ∈ s.liveEntries, e.handle ≠ handle then some .invalidHandle else none
  | .ovlHide handle =>
    if s.fault then some .preconditionFault
    else if ∀ e ∈ s.liveEntries, e.handle ≠ handle then some .invalidHandle else none
  | .ovlClear => if s.fault then some .preconditionFault else none
  | .wireClear => none
  | .wireWriteLines _ _ => none

/-- Every piece of the block's state at the value of 10_state.md R40; the configuration and what comes from outside are
not part of it. -/
structure AtReset (s : State) : Prop where
  phase : s.phase = .idle
  pstate : s.pstate = .off
  invert : s.invert = false
  ditherMode : s.ditherMode = .off
  cutoff : s.cutoff = s.cfg.cutoffReset
  vcom : s.io.vcom = ⟨false, false, 0, false, none⟩
  disp : s.io.disp = false
  cs : s.io.cs = false
  result : s.result = .ok
  skipped : s.skipped = false
  fault : s.fault = false
  resultData : s.resultData = 0
  ind : ∀ k < 6, s.ind.toList.getD k 1 = 0
  ent : s.liveEntries = []
  slots : s.ent.length = s.cfg.maxOverlays
  nextHandle : s.nextHandle = 1
  unlocked : s.updateLockHeld = false

/-- The next input is a command packet, a status read or a tick, or there is none: no wire form, no reset. -/
def ordinaryInput : List Input → Bool
  | [] => true
  | .packet _ :: _ => true
  | .statusRead _ :: _ => true
  | .tick :: _ => true
  | .wire _ :: _ => false
  | .reset :: _ => false
  | .resetDuring _ _ :: _ => false

/-- The next input is no reset that falls inside a command. -/
def wholeInput : List Input → Bool
  | [] => true
  | .packet _ :: _ => true
  | .statusRead _ :: _ => true
  | .tick :: _ => true
  | .wire _ :: _ => true
  | .reset :: _ => true
  | .resetDuring _ _ :: _ => false

/-- The next input is no reset at all. -/
def noReset : List Input → Bool
  | [] => true
  | .packet _ :: _ => true
  | .statusRead _ :: _ => true
  | .tick :: _ => true
  | .wire _ :: _ => true
  | .reset :: _ => false
  | .resetDuring _ _ :: _ => false

end Sys2Proof.Machine
end

