-- ==== Sys2Proof/Certificates/Slice0/Obligations.lean ====
section
/-! DEFINITION. The statements for the provers. Each docstring names the rules of spec/ that the statement formalises,
or the log entry where it is the model's own. -/

open Sys2Proof Sys2Proof.Machine

/-! ### Encoding -/

/-- Every well-formed instruction, with every operand, is what its encoding decodes to (30_encoding.md R59 to R66, R69). -/
def Obligations.EncodedInstructionsDecodeBack : Prop :=
  ∀ (c : Config) (i : Instr), i.wf c = true → decode c (encode c i) = .ok i

/-- A packet that decodes is the encoding of the well-formed command it decodes to, but for the pixel bytes of OVL_ADD
that R61 says are ignored: the encoding has its length, its first three words and its pixel bytes. -/
def Obligations.AcceptedPacketsAreEncodings : Prop :=
  ∀ (c : Config) (ws : List Word) (i : Instr), decodePacket ws = .ok i →
    i.wf c = true ∧ isCommand i = true ∧
      ∃ ws', encode c i = .packet ws' ∧ ws'.length = ws.length ∧ ws'.take 3 = ws.take 3 ∧
        ∀ x y w h pix, i = .ovlAdd x y w h pix →
          unpackPixels pix.length (ws.drop 3) = pix ∧ unpackPixels pix.length (ws'.drop 3) = pix

/-- A packet decodes to a command exactly where its opcode is in the table of R63, the header bits that its format
reserves are zero, its mode is not 3, and it has its format's length (30_encoding.md R59, R63, R64, R65, R66). -/
def Obligations.PacketsOutsideTheTableAreRefused : Prop :=
  ∀ (header : Word) (ops : List Word),
    let op := (header.extractLsb' 24 8).toNat
    let a := (header.extractLsb' 0 24).toNat
    let size := ops.getD 1 0
    let pixels := (size.extractLsb' 0 16).toNat * (size.extractLsb' 16 16).toNat
    (∃ i, decodePacket (header :: ops) = .ok i) ↔
      (op ∈ [0x01, 0x02, 0x11, 0x44] ∧ a = 0 ∧ ops.length = 0) ∨
      (op = 0x20 ∧ a < 2 ∧ ops.length = 0) ∨
      (op = 0x21 ∧ a < 3 ∧ ops.length = 0) ∨
      (op = 0x22 ∧ a < 256 ∧ ops.length = 0) ∨
      (op = 0x30 ∧ a < 65536 ∧ ops.length = 0) ∨
      (op = 0x10 ∧ a = 0 ∧ ops.length = 2) ∨
      (op ∈ [0x41, 0x42, 0x43] ∧ a = 0 ∧ ops.length = 1) ∨
      (op = 0x40 ∧ a = 0 ∧ 2 ≤ ops.length ∧ ops.length = 2 + (pixels + 3) / 4)

/-- A few words written out from R59, R61, R63 and R67 decode to the instruction they stand for. -/
def Obligations.SpecWordsDecodeAsListed : Prop :=
  decodePacket [0x01000000#32] = .ok .enable ∧
    decodePacket [0x10000000#32, 0x01900000#32, 0x000C000A#32] = .ok (.damage 0 400 10 12) ∧
    decodePacket [0x20000001#32] = .ok (.setInvert true) ∧
    decodePacket [0x21000002#32] = .ok (.setDither .four) ∧
    decodePacket [0x220000FF#32] = .ok (.setCutoff 255) ∧
    decodePacket [0x30000678#32] = .ok (.setIndicator 6 0x78) ∧
    decodePacket [0x40000000#32, 0x00000000#32, 0x00010003#32, 0xDD332211#32] =
      .ok (.ovlAdd 0 0 3 1 [0x11, 0x22, 0x33]) ∧
    decodePacket [0x43000000#32, 0x00000007#32] = .ok (.ovlHide 7)

/-- R81: bitrev8 reverses the eight bits of a byte, and is its own inverse. -/
def Obligations.BitReversalMirrorsTheByte : Prop :=
  ∀ b : Byte, (∀ k, k < 8 → (bitrev8 b).getLsbD k = b.getLsbD (7 - k)) ∧ bitrev8 (bitrev8 b) = b

/-- R82: the address byte of row y is the bit reversal of (y + 1) mod 256; no two rows of a panel share one, since a
panel has at most 255 rows (R8). -/
def Obligations.RowAddressesNameTheRow : Prop :=
  ∀ (c : Config) (y : Nat), c.ok = true → y < c.height →
    rowAddress y = bitrev8 (BitVec.ofNat 8 ((y + 1) % 256)) ∧ (bitrev8 (rowAddress y)).toNat = y + 1 ∧
      ∀ y', y' < c.height → rowAddress y' = rowAddress y → y' = y

/-- The bytes of a multi-row write (30_encoding.md R69, form WW): the command byte, then per row its address, its BPR
payload bytes and a zero, then FINAL_TRAILER_BYTES zeros; and the form WC. -/
def Obligations.WireBytesAreLaidOutInRows : Prop :=
  ∀ (c : Config) (y1 : Byte) (rows : List (List Byte)), (Instr.wireWriteLines y1 rows).wf c = true →
    clearBytes c = [c.cmdClear, 0] ∧
    (writeLinesBytes c y1.toNat rows).length = 1 + rows.length * c.stride + c.finalTrailerBytes ∧
    (writeLinesBytes c y1.toNat rows)[0]? = some c.cmdWriteLines ∧
    (∀ r, r < rows.length →
      (writeLinesBytes c y1.toNat rows)[1 + r * c.stride]? = some (rowAddress (y1.toNat + r)) ∧
      (∀ j, j < c.bytesPerRow →
        (writeLinesBytes c y1.toNat rows)[1 + r * c.stride + 1 + j]? = (rows.getD r [])[j]?) ∧
      (writeLinesBytes c y1.toNat rows)[1 + r * c.stride + c.stride - 1]? = some 0) ∧
    ∀ k, k < c.finalTrailerBytes →
      (writeLinesBytes c y1.toNat rows)[1 + rows.length * c.stride + k]? = some 0

/-! ### The machine -/

/-- One step takes the next input and runs the instruction it decodes to (42_update.md R93). That packets wait in a
queue of inputs is the model's choice (log 8), and so is a wire form as an input of its own (log 7). -/
def Obligations.StepRunsTheDecodedInstruction : Prop :=
  ∀ (s : State) (rest : List Input) (i : Instr), s.cfg.ok = true → s.midCommand = false →
    (∀ ws, s.inputs = .packet ws :: rest → decode s.cfg (.packet ws) = .ok i →
      step s = exec i { s with inputs := rest }) ∧
    (∀ bs, s.inputs = .wire bs :: rest → decode s.cfg (.wire bs) = .ok i →
      step s = exec i { s with inputs := rest })

/-- A packet that decodes to INVALID_COMMAND changes STATUS and RESULT_DATA and emits RESULT, and nothing else but ticks
before it; with FAULT = 1 its code is PRECONDITION_FAULT (30_encoding.md R64, R65; 60_exceptions.md R124). -/
def Obligations.RejectedPacketsHaveNoEffect : Prop :=
  ∀ (s : State) (rest : List Input) (ws : List Word) (e : DecodeError), s.cfg.ok = true → s.midCommand = false →
    s.inputs = .packet ws :: rest → decodePacket ws = .error e → ws ≠ [] →
    ∃ io, step s = .next (({ s with inputs := rest } : State).ended
        (.error (if s.fault then .preconditionFault else .invalidCommand)) io) ∧
      s.io.Emits [.result (if s.fault then .preconditionFault else .invalidCommand)] io

/-- The reset state is the one listed in R40, at the default configuration and at any other. -/
def Obligations.ResetStateIsAsListed : Prop :=
  AtReset State.reset ∧ State.reset.cfg.cutoffReset = 128 ∧ ∀ c : Config, AtReset (State.powerOn c)

/-- The reset input restores the reset state from any state, inside a command or not (70_reset_and_hazards.md R137,
R138). That the trace goes on and shows a chip select that was asserted as deasserted, and no other pin, is the model's
choice (log 11), and so is that GRAY and TAGGED, of any value by R40, list no byte (log 5). -/
def Obligations.ResetInputRestoresTheResetState : Prop :=
  ∀ (s : State) (rest : List Input), s.cfg.ok = true → s.inputs = .reset :: rest →
    ∃ t, step s = .next t ∧ AtReset t ∧ t.cfg = s.cfg ∧ t.gray = [] ∧ t.tagged = [] ∧ t.inputs = rest ∧
      t.reads = s.reads ∧ t.io.trace = s.io.trace ++ if s.io.cs then [.cs false] else []

/-- A reset inside a command cuts it: of the events the command would have emitted only the first happen, a chip select
that is then asserted is deasserted, no RESULT is emitted unless the command was over, and the state is the reset state
(70_reset_and_hazards.md R137, R138; the event at which it falls is the model's input, log 11). -/
def Obligations.ResetInsideACommandCutsIt : Prop :=
  ∀ (s : State) (rest : List Input) (ws : List Word) (events : Nat), s.cfg.ok = true → s.midCommand = false →
    s.inputs = .resetDuring ws events :: rest → ws ≠ [] →
    ∃ done t, runPacket ws { s with inputs := rest } = .next done ∧ step s = .next t ∧ AtReset t ∧ t.cfg = s.cfg ∧
      newEvents s t = (newEvents s done).take events ++
        (if csAfter s.io.cs ((newEvents s done).take events) then [.cs false] else []) ∧
      (events < (newEvents s done).length → ∀ code, .result code ∉ newEvents s t)

/-- A status read has no side effect on the block: it only answers, with the register as it stands (10_state.md R35;
where the answer is kept is the model's, log 10). -/
def Obligations.StatusReadsHaveNoSideEffect : Prop :=
  ∀ (s : State) (rest : List Input) (k : BitVec 4), s.cfg.ok = true → s.midCommand = false →
    s.inputs = .statusRead k :: rest →
    step s = .next { s with inputs := rest, reads := s.reads ++ [(k, s.statusWord k)] }

/-- The layout of the status port (10_state.md R34): each field at its bits, every bit not listed 0, and the words after
reset. -/
def Obligations.StatusPortLayout : Prop :=
  (List.range 16).map (fun k => State.reset.statusWord (BitVec.ofNat 4 k)) =
    [0, 0, 0x00008000, 0, 0, 0, 0, 0, 1, 0x00F00190, 0, 0, 0, 0, 0, 0] ∧
  ∀ s : State, s.cfg.ok = true →
    ((s.statusWord 0).extractLsb' 0 4 = s.result.bits ∧ (s.statusWord 0).getLsbD 4 = s.skipped ∧
      (s.statusWord 0).getLsbD 5 = s.fault ∧ (s.statusWord 0).extractLsb' 6 26 = 0) ∧
    s.statusWord 1 = s.resultData ∧
    ((s.statusWord 2).getLsbD 0 = s.invert ∧ (s.statusWord 2).extractLsb' 1 2 = s.ditherMode.bits ∧
      (s.statusWord 2).extractLsb' 3 5 = 0 ∧ (s.statusWord 2).extractLsb' 8 8 = s.cutoff ∧
      (s.statusWord 2).extractLsb' 16 16 = 0) ∧
    ((s.statusWord 3).extractLsb' 0 3 = s.pstate.bits ∧ (s.statusWord 3).getLsbD 3 = s.io.vcom.running ∧
      (s.statusWord 3).getLsbD 4 = s.io.vcom.toggle ∧ (s.statusWord 3).getLsbD 5 = s.io.disp ∧
      (s.statusWord 3).getLsbD 6 = s.io.vcom.out ∧ (s.statusWord 3).getLsbD 7 = s.io.cs ∧
      (s.statusWord 3).extractLsb' 8 24 = 0) ∧
    s.statusWord 4 = s.io.vcom.missed ∧
    (∀ k : Fin 4, (s.statusWord 5).extractLsb' (8 * k.val) 8 = s.ind.toList.getD k.val 0) ∧
    (∀ k : Fin 2, (s.statusWord 6).extractLsb' (8 * k.val) 8 = s.ind.toList.getD (4 + k.val) 0) ∧
    (s.statusWord 6).extractLsb' 16 16 = 0 ∧
    s.statusWord 7 = BitVec.ofNat 32 (s.ent.countP Option.isSome) ∧
    s.statusWord 8 = s.nextHandle ∧
    (((s.statusWord 9).extractLsb' 0 16).toNat = s.cfg.width ∧
      ((s.statusWord 9).extractLsb' 16 16).toNat = s.cfg.height) ∧
    ∀ k : BitVec 4, 10 ≤ k.toNat → s.statusWord k = 0

/-- A step answers a next state exactly where the configuration is one of R8 and the next input is the reset input, or
the state is between commands and the input is no empty packet and no wire bytes outside R69 (00_scope.md R9,
30_encoding.md R58; log 7, log 12): no command stops the machine. -/
def Obligations.StepStopsOnlyOutsideTheRules : Prop :=
  ∀ s : State, (∃ t, step s = .next t) ↔
    s.cfg.ok = true ∧
      match s.inputs with
      | [] => s.midCommand = false
      | .reset :: _ => True
      | .packet ws :: _ => s.midCommand = false ∧ ws ≠ []
      | .resetDuring ws _ :: _ => s.midCommand = false ∧ ws ≠ []
      | .wire bs :: _ => s.midCommand = false ∧ ∃ i, decode s.cfg (.wire bs) = .ok i
      | .statusRead _ :: _ => s.midCommand = false
      | .tick :: _ => s.midCommand = false

/-- With nothing from the host EXEC waits and VTIMER alone ticks, any number of times but at least once while it runs
(60_exceptions.md R136, 20_memory.md R51, R52 (a); the step without an input is the model's, log 8, and that each such
step has a tick is how the model keeps fairness, log 14). -/
def Obligations.IdleStepsOnlyTick : Prop :=
  ∀ s : State, s.cfg.ok = true → s.midCommand = false → s.inputs = [] →
    ∃ (n : Nat) (ticks : Source Nat),
      step s = .next { s with io := { Io.ticksDone n s.io with ticks := ticks } } ∧
        (s.io.vcom.running = true → 1 ≤ n) ∧ (s.io.vcom.running = false → step s = .next s)

/-- Every packet's events end with its one RESULT, whose code STATUS then holds, and EXEC is idle again (42_update.md
R93, 60_exceptions.md R126). -/
def Obligations.EveryPacketEndsWithItsResult : Prop :=
  ∀ (s t : State) (ws : List Word), runPacket ws s = .next t →
    ∃ evs, t.io.trace = s.io.trace ++ evs ++ [.result t.result] ∧ (∀ code, .result code ∉ evs) ∧ t.phase = .idle

/-- However many packets wait, and whatever they hold, the same number of steps runs them all to completion, with one
RESULT for each (20_memory.md R50, R52 (c)). That packets wait in a queue is the model's choice (log 8), and so is one
step a command (log 1). -/
def Obligations.EveryPacketIsAnsweredOnce : Prop :=
  ∀ s : State, Inv s → (∀ input ∈ s.inputs, ∃ ws, input = .packet ws ∧ ws ≠ []) →
    ∃ t : State, Host.Core.run Sys2Proof.core s.inputs.length s = .next t ∧ t.inputs = [] ∧ Inv t ∧
      ((newEvents s t).filter fun e => match e with
        | .result _ => true
        | _ => false).length = s.inputs.length

/-! ### Invariants -/

/-- The reset state meets the invariant, at every configuration that R8 admits. -/
def Obligations.ResetMeetsTheInvariant : Prop :=
  Inv State.reset ∧ ∀ c : Config, c.ok = true → Inv (State.powerOn c)

/-- Every step keeps the invariant: TIMER_RUNNING and DISP_OUT go with Active, VCOM_OUT is 0 in Off, CS is deasserted
and VCOM_TOGGLE = VCOM_OUT between commands (10_state.md R37, R38, R39), PSTATE is settled and the locks are free (R19,
R36), live entries fit the panel under distinct issued handles (R30, R31), GRAY and TAGGED stay inside their spaces
(20_memory.md R41). The canonical form of GRAY and TAGGED is the model's (log 5), and so is the list of slots (log 6). -/
def Obligations.StepKeepsTheInvariant : Prop :=
  ∀ s t : State, Inv s → step s = .next t → Inv t

/-- Nothing clears FAULT but reset (60_exceptions.md R123). -/
def Obligations.OnlyResetClearsFault : Prop :=
  ∀ s t : State, s.fault = true → noReset s.inputs = true → step s = .next t → t.fault = true

/-- Nothing sets FAULT but a DAMAGE rectangle outside its bounds (60_exceptions.md R123, 42_update.md R100). -/
def Obligations.OnlyABadRectangleSetsFault : Prop :=
  ∀ s t : State, s.fault = false → step s = .next t → t.fault = true →
    ∃ ws rest x1 x2 y1 y2, s.inputs = .packet ws :: rest ∧ decodePacket ws = .ok (.damage x1 x2 y1 y2) ∧
      ¬ (x1.toNat ≤ x2.toNat ∧ x2.toNat ≤ s.cfg.width ∧ y1.toNat ≤ y2.toNat ∧ y2.toNat ≤ s.cfg.height)

/-- The configuration does not change while the block runs (00_scope.md R8). -/
def Obligations.ConfigurationNeverChanges : Prop :=
  ∀ s t : State, step s = .next t → t.cfg = s.cfg

/-- A handle that was issued and names no live entry names none after any step without reset: handles are not reused
(10_state.md R31, 45_overlay.md R115). -/
def Obligations.IssuedHandlesAreNeverReused : Prop :=
  ∀ (s t : State) (handle : Word), handle ≠ 0 → (s.nextHandle = 0 ∨ handle < s.nextHandle) →
    (∀ e ∈ s.liveEntries, e.handle ≠ handle) → noReset s.inputs = true → step s = .next t →
    (t.nextHandle = 0 ∨ handle < t.nextHandle) ∧ ∀ e ∈ t.liveEntries, e.handle ≠ handle

/-! ### Errors -/

/-- A command that fails one of its checks ends with the code of the first, in the order of R124, and has no effect but
STATUS and RESULT_DATA, ticks apart; the rectangle check of DAMAGE also sets FAULT (60_exceptions.md R121 to R124). -/
def Obligations.FailedChecksHaveNoEffect : Prop :=
  ∀ (s : State) (i : Instr) (code : ResultCode), commandCheck s i = some code →
    EndsQuietly i s { s with fault := s.fault || decide (code = .preconditionFault) } (.error code)

/-- R122: a command that ends with a code from 3 to 9 has no effect beyond STATUS and RESULT_DATA = 0, and emits no
event but RESULT; what ticks change is VTIMER's. -/
def Obligations.PreciseErrorsHaveNoEffect : Prop :=
  ∀ (s t : State) (ws : List Word), runPacket ws s = .next t → 3 ≤ t.result.bits.toNat →
    ∃ io, t = ({ s with fault := s.fault || decide (t.result = .preconditionFault) } : State).ended
        (.error t.result) io ∧
      s.io.Emits [.result t.result] io

/-! ### Power and VCOM -/

/-- ENABLE from Off, on a bus that takes the clear-screen command: display-enable, VCOM low, settle, the clear, then the
timer starts and the block is Active; ticks may then fall before RESULT (43_power_vcom.md R103). -/
def Obligations.EnablePowersThePanelUp : Prop :=
  ∀ s : State, s.fault = false → s.pstate = .off → s.io.vcom.running = false →
    busRefusal s.io.bus 2 = none →
    ∃ (n : Nat) (ticks : Source Nat),
      let up := { s.io with
        disp := true
        cs := false
        bus := s.io.bus.skip 3
        vcom := { s.io.vcom with out := false, toggle := false, running := true }
        trace := s.io.trace ++ [.gpioDisp true, .gpioVcom false, .wait .settle s.cfg.settleTime, .cs true,
          .wait .csSetup s.cfg.csSetupTime, .spi s.cfg.cmdClear, .spi 0, .wait .csHold s.cfg.csHoldTime, .cs false] }
      exec .enable s = .next (({ s with pstate := .active } : State).ended .ok
        (({ Io.ticksDone n up with ticks := ticks } : Io).log (.result .ok)))

/-- ENABLE from Off, on a bus that refuses byte k of the clear-screen command or reports an error at its end (k = 2):
display-enable falls again, the timer never starts and the block is Off (43_power_vcom.md R103, R102). -/
def Obligations.FailedClearLeavesThePanelOff : Prop :=
  ∀ (s : State) (k : Nat), s.fault = false → s.pstate = .off → s.io.vcom.running = false →
    busRefusal s.io.bus 2 = some k →
    exec .enable s = .next (s.ended (.error .powerSequenceError)
      { s.io with
        disp := false
        cs := false
        bus := s.io.bus.skip (k + 1)
        vcom := { s.io.vcom with out := false, toggle := false }
        trace := s.io.trace ++ [.gpioDisp true, .gpioVcom false, .wait .settle s.cfg.settleTime, .cs true,
          .wait .csSetup s.cfg.csSetupTime] ++ ([s.cfg.cmdClear, 0].take k).map .spi ++
          [.spiFail, .wait .csHold s.cfg.csHoldTime, .cs false, .gpioDisp false, .result .powerSequenceError] })

/-- DISABLE in Active, with FAULT or without: ticks in flight end, the timer stops, display-enable and VCOM go low, and
no VCOM event of the timer falls after the cancel (43_power_vcom.md R104, R108). -/
def Obligations.DisablePowersThePanelDown : Prop :=
  ∀ s : State, s.pstate = .active →
    ∃ (n : Nat) (ticks : Source Nat),
      let joined := Io.ticksDone n s.io
      exec .disable s = .next (({ s with pstate := .off } : State).ended .ok
        { joined with
          ticks := ticks
          disp := false
          vcom := { joined.vcom with out := false, toggle := false, running := false, lock := none }
          trace := joined.trace ++ [.gpioDisp false, .gpioVcom false, .result .ok] })

/-- A tick while TIMER_RUNNING = 1 writes the complement of VCOM_TOGGLE, or, where the pin does not take it, counts it up
to 2^32 − 1; the timer keeps running; a tick while TIMER_RUNNING = 0 does nothing (43_power_vcom.md R105, R106, R107). -/
def Obligations.TicksToggleOrCount : Prop :=
  ∀ (s : State) (rest : List Input), s.cfg.ok = true → s.midCommand = false → s.inputs = .tick :: rest →
    (s.io.vcom.running = false → step s = .next { s with inputs := rest }) ∧
    (s.io.vcom.running = true → s.io.vpin.peek Config.freeVpin 0 = true →
      step s = .next { s with inputs := rest, io := { s.io with
        vpin := s.io.vpin.skip 1
        vcom := { s.io.vcom with toggle := !s.io.vcom.toggle, out := !s.io.vcom.toggle }
        trace := s.io.trace ++ [.gpioVcom !s.io.vcom.toggle] } }) ∧
    (s.io.vcom.running = true → s.io.vpin.peek Config.freeVpin 0 = false →
      step s = .next { s with inputs := rest, io := { s.io with
        vpin := s.io.vpin.skip 1
        vcom := { s.io.vcom with missed := BitVec.ofNat 32 (min (s.io.vcom.missed.toNat + 1) (2 ^ 32 - 1)) }
        trace := s.io.trace ++ [.gpioVcomFail] } })

/-- While the timer is stopped and no step starts it, VCOM_MISSED stands still and the VCOM pin is never driven high
(43_power_vcom.md R108, R105). -/
def Obligations.VtimerRestsUntilEnable : Prop :=
  ∀ s t : State, s.io.vcom.running = false → noReset s.inputs = true → step s = .next t →
    t.io.vcom.running = false →
    t.io.vcom.missed = s.io.vcom.missed ∧ (t.io.vcom.out = true → s.io.vcom.out = true) ∧
      ∀ e ∈ newEvents s t, e ≠ .gpioVcom true ∧ e ≠ .gpioVcomFail

/-- VCOM_MISSED counts exactly the failed VCOM writes, and stays at 2^32 − 1; VCOM_TOGGLE is the level last driven onto
the VCOM pin, and VCOM_OUT goes with it: whatever a step does, unless it is a reset (10_state.md R23, R25, R37;
43_power_vcom.md R105, R107). -/
def Obligations.VcomStateFollowsTheVcomEvents : Prop :=
  ∀ s t : State, noReset s.inputs = true → step s = .next t →
    t.io.vcom.missed.toNat = min (s.io.vcom.missed.toNat + vcomFailures (newEvents s t)) (2 ^ 32 - 1) ∧
    t.io.vcom.toggle = ((vcomLevels (newEvents s t)).getLast?).getD s.io.vcom.toggle ∧
    (s.io.vcom.toggle = s.io.vcom.out → t.io.vcom.toggle = t.io.vcom.out)

/-- In a step that finds and leaves the timer running, the levels driven onto the VCOM pin alternate, the first of them
the complement of VCOM_TOGGLE: no tick writes a constant (43_power_vcom.md R105, R106). -/
def Obligations.VcomLevelsAlternate : Prop :=
  ∀ s t : State, Inv s → s.io.vcom.running = true → step s = .next t → t.io.vcom.running = true →
    ∀ k l, (vcomLevels (newEvents s t))[k]? = some l → l = (s.io.vcom.toggle != decide (k % 2 = 0))

/-- A run to which the host adds nothing is fair: VTIMER ticks again and again unless the timer is stopped, however many
inputs wait at first (20_memory.md R52 (a), 43_power_vcom.md R109). That such a run goes on in steps of EXEC waiting is
the model's choice (log 8), and that each of them has a tick is how it keeps the rule (log 14). -/
def Obligations.ClosedRunsAreFair : Prop :=
  ∀ run : Nat → State, (∀ k, step (run k) = .next (run (k + 1))) → Fair run

/-- In a fair run whose timer runs from some point on, whatever the host adds, VCOM keeps alternating: from every later
point on each level is driven onto the pin again, unless a VCOM write fails again (70_reset_and_hazards.md R143, which
takes fairness as a premise; 20_memory.md R52 (a); 43_power_vcom.md R106, R107; runs are sequences of steps: log 8,
log 14). -/
def Obligations.FairRunsKeepVcomAlternating : Prop :=
  ∀ (run : Nat → State) (host : Nat → List Input) (start : Nat), OpenRun run host → Fair run → Inv (run 0) →
    (∀ k, start ≤ k → (run k).io.vcom.running = true) →
    ∀ (k : Nat) (level : Bool), ∃ m, k ≤ m ∧
      (.gpioVcom level ∈ newEvents (run m) (run (m + 1)) ∨ .gpioVcomFail ∈ newEvents (run m) (run (m + 1)))

/-- No instruction but ENABLE and DISABLE changes PSTATE, DISP_OUT or TIMER_RUNNING, whatever the bus answers
(10_state.md R19, 43_power_vcom.md R110). -/
def Obligations.OnlyEnableAndDisableMoveThePanel : Prop :=
  ∀ (i : Instr) (s t : State), i ≠ .enable → i ≠ .disable → exec i s = .next t →
    t.pstate = s.pstate ∧ t.io.disp = s.io.disp ∧ t.io.vcom.running = s.io.vcom.running

/-- No interleaving of ticks changes what an instruction does to anything but VCOM_TOGGLE, VCOM_OUT, VCOM_MISSED and the
VCOM events: from two states that differ only in those, in the lock and in what VTIMER draws, it answers two states that
differ only in those (20_memory.md R51, 60_exceptions.md R128). -/
def Obligations.InstructionsDoNotDependOnTicks : Prop :=
  ∀ (i : Instr) (s1 s2 t1 t2 : State), s1.withoutVcom = s2.withoutVcom → exec i s1 = .next t1 → exec i s2 = .next t2 →
    t1.withoutVcom = t2.withoutVcom

/-! ### Updates -/

/-- DAMAGE of at least one row in Active sends the rows' picture in one transaction, whatever its columns
(42_update.md R95, R97, R98, R100; 40_datapath.md R70 to R84). -/
def Obligations.DamageSendsThePicture : Prop :=
  ∀ (s : State) (x1 x2 y1 y2 : Half), Inv s → s.fault = false → s.pstate = .active →
    x1.toNat ≤ x2.toNat → x2.toNat ≤ s.cfg.width → y1.toNat < y2.toNat → y2.toNat ≤ s.cfg.height →
    UpdateRuns (.damage x1 x2 y1 y2) s s y1.toNat y2.toNat

/-- REFRESH in Active sends the whole panel's picture (42_update.md R101). -/
def Obligations.RefreshSendsTheWholePicture : Prop :=
  ∀ s : State, Inv s → s.fault = false → s.pstate = .active → UpdateRuns .refresh s s 0 s.cfg.height

/-- A changed INVERT, DITHER_MODE or CUTOFF is stored and the whole panel resent (44_control.md R111, R112, R113). -/
def Obligations.ChangedSettingsResendThePanel : Prop :=
  ∀ s : State, Inv s → s.fault = false → s.pstate = .active →
    (∀ v, v ≠ s.invert → UpdateRuns (.setInvert v) s { s with invert := v } 0 s.cfg.height) ∧
    (∀ m, m ≠ s.ditherMode → UpdateRuns (.setDither m) s { s with ditherMode := m } 0 s.cfg.height) ∧
    ∀ c, c ≠ s.cutoff → UpdateRuns (.setCutoff c) s { s with cutoff := c } 0 s.cfg.height

/-- SET_INDICATOR stores the code in its slot and resends the strip, also where the code is the old one
(44_control.md R114; STRIP_ROWS stands for the 8 rows of the strip: 00_scope.md R7, R8, log 23). -/
def Obligations.SetIndicatorResendsTheStrip : Prop :=
  ∀ (s : State) (idx g : Byte) (h : idx.toNat < 6), Inv s → s.fault = false → s.pstate = .active →
    UpdateRuns (.setIndicator idx g) s { s with ind := s.ind.set idx.toNat g h } 0 (min s.cfg.stripRows s.cfg.height)

/-- OVL_SHOW, OVL_HIDE, OVL_REMOVE of a visible entry and OVL_CLEAR change the registry and resend the whole panel
(45_overlay.md R116, R117, R118, R119). -/
def Obligations.OverlayChangesResendThePanel : Prop :=
  ∀ s : State, Inv s → s.fault = false → s.pstate = .active →
    (∀ e ∈ s.liveEntries,
      UpdateRuns (.ovlShow e.handle) s
        { s with ent := mapHandle e.handle (fun e => { e with visible := true }) s.ent } 0 s.cfg.height ∧
      UpdateRuns (.ovlHide e.handle) s
        { s with ent := mapHandle e.handle (fun e => { e with visible := false }) s.ent } 0 s.cfg.height ∧
      (e.visible = true →
        UpdateRuns (.ovlRemove e.handle) s { s with ent := dropHandle e.handle s.ent } 0 s.cfg.height)) ∧
    UpdateRuns .ovlClear s { s with ent := List.replicate s.ent.length none } 0 s.cfg.height

/-- Outside Active the state change of a command is kept, its update is skipped, the result is OK and SKIPPED = 1
(42_update.md R96, R99; the commands' own rules). -/
def Obligations.UpdatesOutsideActiveAreSkipped : Prop :=
  ∀ s : State, Inv s → s.fault = false → s.pstate ≠ .active →
    (∀ x1 x2 y1 y2, x1.toNat ≤ x2.toNat → x2.toNat ≤ s.cfg.width → y1.toNat ≤ y2.toNat → y2.toNat ≤ s.cfg.height →
      EndsQuietly (.damage x1 x2 y1 y2) s s .okSkipped) ∧
    EndsQuietly .refresh s s .okSkipped ∧
    (∀ v, v ≠ s.invert → EndsQuietly (.setInvert v) s { s with invert := v } .okSkipped) ∧
    (∀ m, m ≠ s.ditherMode → EndsQuietly (.setDither m) s { s with ditherMode := m } .okSkipped) ∧
    (∀ c, c ≠ s.cutoff → EndsQuietly (.setCutoff c) s { s with cutoff := c } .okSkipped) ∧
    (∀ (idx g : Byte) (h : idx.toNat < 6),
      EndsQuietly (.setIndicator idx g) s { s with ind := s.ind.set idx.toNat g h } .okSkipped) ∧
    (∀ e ∈ s.liveEntries,
      EndsQuietly (.ovlShow e.handle) s
        { s with ent := mapHandle e.handle (fun e => { e with visible := true }) s.ent } .okSkipped ∧
      EndsQuietly (.ovlHide e.handle) s
        { s with ent := mapHandle e.handle (fun e => { e with visible := false }) s.ent } .okSkipped ∧
      (e.visible = true → EndsQuietly (.ovlRemove e.handle) s { s with ent := dropHandle e.handle s.ent } .okSkipped)) ∧
    EndsQuietly .ovlClear s { s with ent := List.replicate s.ent.length none } .okSkipped

/-- A value that is already held, an entry that is hidden and an empty row range ask for no update: no transaction, the
result OK and SKIPPED = 0 (44_control.md R111 to R113, 45_overlay.md R116, 42_update.md R95). -/
def Obligations.UnchangedOutputSendsNothing : Prop :=
  ∀ s : State, Inv s → s.fault = false →
    EndsQuietly (.setInvert s.invert) s s .ok ∧
    EndsQuietly (.setDither s.ditherMode) s s .ok ∧
    EndsQuietly (.setCutoff s.cutoff) s s .ok ∧
    (∀ e ∈ s.liveEntries, e.visible = false →
      EndsQuietly (.ovlRemove e.handle) s { s with ent := dropHandle e.handle s.ent } .ok) ∧
    ∀ x1 x2 y, s.pstate = .active → x1.toNat ≤ x2.toNat → x2.toNat ≤ s.cfg.width → y.toNat ≤ s.cfg.height →
      EndsQuietly (.damage x1 x2 y y) s s .ok

/-- OVL_ADD that passes its checks makes a hidden entry with a copy of the pixels under the next handle, returns that
handle, and sends nothing (45_overlay.md R115). -/
def Obligations.OvlAddMakesAHiddenEntry : Prop :=
  ∀ (s : State) (x y w h : Half) (pix : List Byte), Inv s → s.fault = false →
    w ≠ 0 → h ≠ 0 → x.toNat + w.toNat ≤ s.cfg.width → y.toNat + h.toNat ≤ s.cfg.height → s.nextHandle ≠ 0 →
    s.liveEntries.length < s.cfg.maxOverlays →
    ∃ ent', EndsQuietly (.ovlAdd x y w h pix) s
        { s with ent := ent', nextHandle := if s.nextHandle = 0xFFFFFFFF#32 then 0 else s.nextHandle + 1 }
        (.okData s.nextHandle) ∧
      ent'.length = s.ent.length ∧
      (ent'.filterMap id).Perm (⟨s.nextHandle, x, y, w, h, false, pix⟩ :: s.liveEntries)

/-- A removed handle is stale at once: OVL_REMOVE, OVL_SHOW and OVL_HIDE of it end with INVALID_HANDLE and change
nothing (45_overlay.md R116). -/
def Obligations.RemovedHandlesAreStale : Prop :=
  ∀ (s : State) (e : Overlay), s.fault = false → e ∈ s.liveEntries →
    ∃ t, exec (.ovlRemove e.handle) s = .next t ∧
      EndsQuietly (.ovlRemove e.handle) t t (.error .invalidHandle) ∧
      EndsQuietly (.ovlShow e.handle) t t (.error .invalidHandle) ∧
      EndsQuietly (.ovlHide e.handle) t t (.error .invalidHandle)

/-- R68: the pseudo-commands are the commands they expand to, and FULL_DAMAGE does what REFRESH does. -/
def Obligations.PseudoCommandsExpand : Prop :=
  ∀ (c : Config), c.ok = true →
    (∀ y1 y2, ∃ w : Half, w.toNat = c.width ∧ Instr.damageRows c y1 y2 = .damage 0 w y1 y2) ∧
    (∀ idx, Instr.indicatorClear idx = .setIndicator idx 0) ∧
    (∃ w h : Half, w.toNat = c.width ∧ h.toNat = c.height ∧ Instr.fullDamage c = .damage 0 w 0 h) ∧
    ∀ s : State, s.cfg = c → exec (Instr.fullDamage c) s = exec .refresh s

/-! ### The transmitter -/

/-- Each wire form goes out as exactly one chip-select transaction, and nothing else of the block changes, ticks apart
(30_encoding.md R69, 41_transport.md R86, R88, R90, R91; that a wire form runs alone is the model's, log 7). -/
def Obligations.WireFormsAreOneTransaction : Prop :=
  ∀ s : State,
    (∃ io, exec .wireClear s = .next { s with io := io } ∧
      (s.io.sent ((busRefusal s.io.bus 2).getD 2 + 1)).Emits
        (transactionEvents s.cfg (clearBytes s.cfg) (busRefusal s.io.bus 2)) io) ∧
    ∀ y1 rows, (Instr.wireWriteLines y1 rows).wf s.cfg = true →
      let bytes := writeLinesBytes s.cfg y1.toNat rows
      ∃ io, exec (.wireWriteLines y1 rows) s = .next { s with io := io } ∧
        (s.io.sent ((busRefusal s.io.bus bytes.length).getD bytes.length + 1)).Emits
          (transactionEvents s.cfg bytes (busRefusal s.io.bus bytes.length)) io

/-! ### Hazards -/

/-- Whatever a step emits, unless a reset cuts a command in it, keeps the order of the bus: assert, setup guard, bytes,
at most one failure, hold guard, deassert, and every transaction that begins ends (70_reset_and_hazards.md R142,
41_transport.md R86, R89). A command that a reset cuts is left out: what it emits is in ResetInsideACommandCutsIt. -/
def Obligations.StepsKeepTheBusDiscipline : Prop :=
  ∀ s t : State, Inv s → wholeInput s.inputs = true → step s = .next t →
    ∃ evs, t.io.trace = s.io.trace ++ evs ∧ busRun s.cfg .idle evs = some .idle

/-- Whatever a step on a packet, a status read, a tick or no input emits keeps the order of the panel's power: settle
before the clear, no VCOM toggling before a good clear, the timer joined before the teardown, bytes only to a settled
panel (70_reset_and_hazards.md R142). Resets and wire forms sent alone are left out: a reset powers the panel off without
an event (log 11), and a wire form reaches the bus whatever PSTATE is (log 7). -/
def Obligations.StepsKeepThePanelDiscipline : Prop :=
  ∀ s t : State, Inv s → ordinaryInput s.inputs = true → step s = .next t →
    ∃ evs, t.io.trace = s.io.trace ++ evs ∧ panelRun s.cfg s.pstate.panelPhase evs = some t.pstate.panelPhase

/-! ### Datapath -/

/-- R120: a visible entry's bytes stand in GRAY just after compositing wherever no later entry and no indicator covers
them; an entry outside the rows, and the rows outside the update, are left alone. -/
def Obligations.OverlaysAreReproducedExactly : Prop :=
  ∀ (s : State) (y1 y2 : Nat), Inv s → y1 ≤ y2 → y2 ≤ s.cfg.height →
    (∀ e ∈ s.liveEntries, ∀ ox oy, s.cfg.overlaysEnabled = true → e.visible = true →
      ox < e.w.toNat → oy < e.h.toNat → y1 ≤ e.y.toNat + oy → e.y.toNat + oy < y2 →
      (∀ f ∈ s.liveEntries, f.visible = true → f.covers (e.x.toNat + ox) (e.y.toNat + oy) = true →
        f.handle ≤ e.handle) →
      s.indicatorByte (e.x.toNat + ox) (e.y.toNat + oy) = none →
      some ((composite y1 y2 s).grayAt ((e.y.toNat + oy) * s.cfg.width + (e.x.toNat + ox))) =
        e.pix[oy * e.w.toNat + ox]?) ∧
    (∀ e ∈ s.liveEntries, (e.y.toNat + e.h.toNat ≤ y1 ∨ y2 ≤ e.y.toNat) →
      ∀ m, compositeEntry s.cfg y1 y2 e m = m) ∧
    ∀ a, ¬ (y1 * s.cfg.width ≤ a ∧ a < y2 * s.cfg.width) → (composite y1 y2 s).grayAt a = s.grayAt a

/-- R73, R74: the cell of an occupied slot stands in GRAY just after compositing, on and off pixels, wherever the rows of
the update meet the strip; what lies left of column 0 is clipped. GLYPH_SIZE stands for the 8 of R73 (R7, log 23). -/
def Obligations.IndicatorCellsCoverTheStrip : Prop :=
  ∀ (s : State) (y1 y2 i r k x : Nat), Inv s → s.cfg.indicatorsEnabled = true → y2 ≤ s.cfg.height → i < 6 →
    r < s.cfg.glyphSize → y1 ≤ r → r < y2 → k < s.cfg.glyphSize →
    x + s.cfg.glyphSize * (i + 1) = s.cfg.width + k → s.ind.toList.getD i 0 ≠ 0 →
    (composite y1 y2 s).grayAt (r * s.cfg.width + x) =
      if (glyphRow s.cfg (s.ind.toList.getD i 0) r).testBit (s.cfg.glyphSize - 1 - k) then 0xFF else 0x00

/-- R76 and the tables of R77: the threshold in each mode, column first. -/
def Obligations.ThresholdsAreTheListedTables : Prop :=
  ∀ (c : Byte) (x y : Nat),
    threshold Config.default .off c x y = c ∧
    (threshold Config.default .two c x y).toNat =
      (([[32, 160], [224, 96]] : List (List Nat)).getD (y % 2) []).getD (x % 2) 0 ∧
    (threshold Config.default .four c x y).toNat =
      (([[8, 136, 40, 168], [200, 72, 232, 104], [56, 184, 24, 152], [248, 120, 216, 88]] :
        List (List Nat)).getD (y % 4) []).getD (x % 4) 0

/-- R78 with R43 and R80: bit 7 − k of payload byte j is 1 exactly where the sample of column 8j + k is at least its
threshold, the other way round where INVERT = 1. -/
def Obligations.PayloadBitsCompareWithTheThreshold : Prop :=
  ∀ (cs : ConvertSettings) (gray : Nat → Byte) (y j k : Nat), k < 8 →
    (convertByte cs gray y j).getLsbD (7 - k) =
      (decide ((threshold cs.cfg cs.mode cs.cutoff (8 * j + k) y).toNat ≤
        (gray (y * cs.cfg.width + (8 * j + k))).toNat) != cs.invert)

/-- The properties 1.1 and 1.2 of 95_test_vectors.md with the restriction of 90_conflicts.md C1: an all-zero group gives
0x00 (0xFF inverted) where no threshold is 0, an all-255 group gives the complement, and at cutoff 0 in mode 0 every
group gives 0xFF (0x00 inverted). -/
def Obligations.UniformGroupsGiveUniformBytes : Prop :=
  ∀ (cs : ConvertSettings) (gray : Nat → Byte) (y j : Nat),
    ((∀ k, k < 8 → gray (y * cs.cfg.width + (8 * j + k)) = 0 ∧
        threshold cs.cfg cs.mode cs.cutoff (8 * j + k) y ≠ 0) →
      convertByte cs gray y j = if cs.invert then 0xFF else 0x00) ∧
    ((∀ k, k < 8 → gray (y * cs.cfg.width + (8 * j + k)) = 255) →
      convertByte cs gray y j = if cs.invert then 0x00 else 0xFF) ∧
    (cs.mode = .off → cs.cutoff = 0 → convertByte cs gray y j = if cs.invert then 0x00 else 0xFF)

/-- R85: the tagged line of a row depends on its GRAY row, its number, DITHER_MODE, INVERT, the tables, and CUTOFF in
mode 0 alone; not on the row the update starts at, nor on what TAGGED held. -/
def Obligations.TaggedLinesHaveNoHiddenState : Prop :=
  ∀ (cs cs' : ConvertSettings) (gray gray' : Nat → Byte) (y y1 y1' : Nat) (m m' : Memory) (free free' : Nat → Byte),
    cs.cfg.width = cs'.cfg.width → cs.cfg.dither2 = cs'.cfg.dither2 → cs.cfg.dither4 = cs'.cfg.dither4 →
    cs.invert = cs'.invert → cs.mode = cs'.mode → (cs.mode = .off → cs.cutoff = cs'.cutoff) →
    (∀ x, x < cs.cfg.width → gray (y * cs.cfg.width + x) = gray' (y * cs.cfg.width + x)) →
    ∀ k, k < cs.cfg.stride →
      (convertRow cs gray y1 y m).read free ((y - y1) * cs.cfg.stride + k) =
        (convertRow cs' gray' y1' y m').read free' ((y - y1') * cs.cfg.stride + k)
end

