-- ==== Sys2Proof/Laws/State.lean ====
section
/-! SUPPORT. One lemma per field per named update, each true by unfolding once, so that no later proof unfolds a record
update. -/

namespace Sys2Proof.Machine

variable (io : Io) (e : Event) (a : Agent)

@[simp] theorem Io.log_vcom : (io.log e).vcom = io.vcom := rfl
@[simp] theorem Io.log_disp : (io.log e).disp = io.disp := rfl
@[simp] theorem Io.log_cs : (io.log e).cs = io.cs := rfl
@[simp] theorem Io.log_trace : (io.log e).trace = io.trace ++ [e] := rfl
@[simp] theorem Io.log_bus : (io.log e).bus = io.bus := rfl
@[simp] theorem Io.log_vpin : (io.log e).vpin = io.vpin := rfl
@[simp] theorem Io.log_ticks : (io.log e).ticks = io.ticks := rfl

@[simp] theorem Io.acquire_toggle : (io.acquire a).vcom.toggle = io.vcom.toggle := rfl
@[simp] theorem Io.acquire_running : (io.acquire a).vcom.running = io.vcom.running := rfl
@[simp] theorem Io.acquire_missed : (io.acquire a).vcom.missed = io.vcom.missed := rfl
@[simp] theorem Io.acquire_out : (io.acquire a).vcom.out = io.vcom.out := rfl
@[simp] theorem Io.acquire_lock : (io.acquire a).vcom.lock = some a := rfl
@[simp] theorem Io.acquire_disp : (io.acquire a).disp = io.disp := rfl
@[simp] theorem Io.acquire_cs : (io.acquire a).cs = io.cs := rfl
@[simp] theorem Io.acquire_trace : (io.acquire a).trace = io.trace := rfl
@[simp] theorem Io.acquire_bus : (io.acquire a).bus = io.bus := rfl
@[simp] theorem Io.acquire_vpin : (io.acquire a).vpin = io.vpin := rfl
@[simp] theorem Io.acquire_ticks : (io.acquire a).ticks = io.ticks := rfl

@[simp] theorem Io.release_toggle : io.release.vcom.toggle = io.vcom.toggle := rfl
@[simp] theorem Io.release_running : io.release.vcom.running = io.vcom.running := rfl
@[simp] theorem Io.release_missed : io.release.vcom.missed = io.vcom.missed := rfl
@[simp] theorem Io.release_out : io.release.vcom.out = io.vcom.out := rfl
@[simp] theorem Io.release_lock : io.release.vcom.lock = none := rfl
@[simp] theorem Io.release_disp : io.release.disp = io.disp := rfl
@[simp] theorem Io.release_cs : io.release.cs = io.cs := rfl
@[simp] theorem Io.release_trace : io.release.trace = io.trace := rfl
@[simp] theorem Io.release_bus : io.release.bus = io.bus := rfl
@[simp] theorem Io.release_vpin : io.release.vpin = io.vpin := rfl
@[simp] theorem Io.release_ticks : io.release.ticks = io.ticks := rfl

@[simp] theorem Io.startTimer_running : io.startTimer.vcom.running = true := rfl
@[simp] theorem Io.startTimer_toggle : io.startTimer.vcom.toggle = io.vcom.toggle := rfl
@[simp] theorem Io.startTimer_out : io.startTimer.vcom.out = io.vcom.out := rfl
@[simp] theorem Io.startTimer_missed : io.startTimer.vcom.missed = io.vcom.missed := rfl
@[simp] theorem Io.startTimer_lock : io.startTimer.vcom.lock = io.vcom.lock := rfl
@[simp] theorem Io.startTimer_disp : io.startTimer.disp = io.disp := rfl
@[simp] theorem Io.startTimer_cs : io.startTimer.cs = io.cs := rfl
@[simp] theorem Io.startTimer_trace : io.startTimer.trace = io.trace := rfl
@[simp] theorem Io.startTimer_bus : io.startTimer.bus = io.bus := rfl
@[simp] theorem Io.startTimer_vpin : io.startTimer.vpin = io.vpin := rfl
@[simp] theorem Io.startTimer_ticks : io.startTimer.ticks = io.ticks := rfl

@[simp] theorem Io.stopTimer_running : io.stopTimer.vcom.running = false := rfl
@[simp] theorem Io.stopTimer_toggle : io.stopTimer.vcom.toggle = io.vcom.toggle := rfl
@[simp] theorem Io.stopTimer_out : io.stopTimer.vcom.out = io.vcom.out := rfl
@[simp] theorem Io.stopTimer_missed : io.stopTimer.vcom.missed = io.vcom.missed := rfl
@[simp] theorem Io.stopTimer_lock : io.stopTimer.vcom.lock = io.vcom.lock := rfl
@[simp] theorem Io.stopTimer_disp : io.stopTimer.disp = io.disp := rfl
@[simp] theorem Io.stopTimer_cs : io.stopTimer.cs = io.cs := rfl
@[simp] theorem Io.stopTimer_trace : io.stopTimer.trace = io.trace := rfl
@[simp] theorem Io.stopTimer_bus : io.stopTimer.bus = io.bus := rfl
@[simp] theorem Io.stopTimer_vpin : io.stopTimer.vpin = io.vpin := rfl
@[simp] theorem Io.stopTimer_ticks : io.stopTimer.ticks = io.ticks := rfl

@[simp] theorem Io.afterReset_vcom : io.afterReset.vcom = Vcom.reset := rfl
@[simp] theorem Io.afterReset_disp : io.afterReset.disp = false := rfl
@[simp] theorem Io.afterReset_cs : io.afterReset.cs = false := rfl
@[simp] theorem Io.afterReset_bus : io.afterReset.bus = io.bus := rfl
@[simp] theorem Io.afterReset_vpin : io.afterReset.vpin = io.vpin := rfl
@[simp] theorem Io.afterReset_ticks : io.afterReset.ticks = io.ticks := rfl

variable (s : State) (r : Reply)

@[simp] theorem finish_cfg : (finish r s).cfg = s.cfg := rfl
@[simp] theorem finish_resets : (finish r s).resets = s.resets := rfl
@[simp] theorem finish_phase : (finish r s).phase = .idle := rfl
@[simp] theorem finish_pstate : (finish r s).pstate = s.pstate := rfl
@[simp] theorem finish_invert : (finish r s).invert = s.invert := rfl
@[simp] theorem finish_ditherMode : (finish r s).ditherMode = s.ditherMode := rfl
@[simp] theorem finish_cutoff : (finish r s).cutoff = s.cutoff := rfl
@[simp] theorem finish_result : (finish r s).result = r.code := rfl
@[simp] theorem finish_skipped : (finish r s).skipped = r.skipped := rfl
@[simp] theorem finish_fault : (finish r s).fault = s.fault := rfl
@[simp] theorem finish_resultData : (finish r s).resultData = r.data := rfl
@[simp] theorem finish_ind : (finish r s).ind = s.ind := rfl
@[simp] theorem finish_ent : (finish r s).ent = s.ent := rfl
@[simp] theorem finish_nextHandle : (finish r s).nextHandle = s.nextHandle := rfl
@[simp] theorem finish_gray : (finish r s).gray = s.gray := rfl
@[simp] theorem finish_tagged : (finish r s).tagged = s.tagged := rfl
@[simp] theorem finish_frame : (finish r s).frame = s.frame := rfl
@[simp] theorem finish_io : (finish r s).io = s.io.emit (.result r.code) := rfl
@[simp] theorem finish_reads : (finish r s).reads = s.reads := rfl
@[simp] theorem finish_inputs : (finish r s).inputs = s.inputs := rfl

@[simp] theorem raise_state (c : ResultCode) : (raise c s).1 = s := rfl
@[simp] theorem raise_reply (c : ResultCode) : (raise c s).2 = .error c := rfl
@[simp] theorem raiseFault_state : (raiseFault s).1 = { s with fault := true } := rfl
@[simp] theorem raiseFault_reply : (raiseFault s).2 = .error .preconditionFault := rfl

@[simp] theorem Reply.error_code (c : ResultCode) : (Reply.error c).code = c := rfl
@[simp] theorem Reply.error_skipped (c : ResultCode) : (Reply.error c).skipped = false := rfl
@[simp] theorem Reply.error_data (c : ResultCode) : (Reply.error c).data = 0 := rfl
@[simp] theorem Reply.ok_code : Reply.ok.code = .ok := rfl
@[simp] theorem Reply.ok_skipped : Reply.ok.skipped = false := rfl
@[simp] theorem Reply.ok_data : Reply.ok.data = 0 := rfl
@[simp] theorem Reply.okSkipped_code : Reply.okSkipped.code = .ok := rfl
@[simp] theorem Reply.okSkipped_skipped : Reply.okSkipped.skipped = true := rfl
@[simp] theorem Reply.okSkipped_data : Reply.okSkipped.data = 0 := rfl
@[simp] theorem Reply.okData_code (d : Word) : (Reply.okData d).code = .ok := rfl
@[simp] theorem Reply.okData_skipped (d : Word) : (Reply.okData d).skipped = false := rfl
@[simp] theorem Reply.okData_data (d : Word) : (Reply.okData d).data = d := rfl

theorem State.updateEntry_eq (h : Word) (f : Option Overlay → Option Overlay) :
    s.updateEntry h f = { s with ent := (s.updateEntry h f).ent } := rfl

theorem State.updateEntry_ent (h : Word) (f : Option Overlay → Option Overlay) :
    (s.updateEntry h f).ent = s.ent.map fun slot => if slotHas h slot then f slot else slot := rfl

end Sys2Proof.Machine
end

