-- ==== Sys2Proof/Laws/Io.lean ====
section
/-! SUPPORT. What ticks can do, said once (`Ticked`), and what each operation on the pins does, as a case of it. -/

namespace Sys2Proof.Machine

/-! ### Draws -/

theorem Source.peek_skip {α : Type} (free : Nat → α) (s : Source α) (n k : Nat) :
    (s.skip n).peek free k = s.peek free (n + k) := by
  simp [Source.peek, Source.skip, Nat.add_assoc]

theorem Source.skip_skip {α : Type} (s : Source α) (n m : Nat) : (s.skip n).skip m = s.skip (n + m) := by
  simp [Source.skip, Nat.add_assoc]

@[simp] theorem Source.skip_zero {α : Type} (s : Source α) : s.skip 0 = s := by
  simp [Source.skip]

@[simp] theorem Source.draw_fst {α : Type} (free : Nat → α) (s : Source α) : (s.draw free).1 = s.peek free 0 := rfl

@[simp] theorem Source.draw_snd {α : Type} (free : Nat → α) (s : Source α) : (s.draw free).2 = s.skip 1 := rfl

/-! ### Traces without the VCOM pin's events -/

@[simp] theorem withoutVcom_append (a b : List Event) : withoutVcom (a ++ b) = withoutVcom a ++ withoutVcom b := by
  simp [withoutVcom]

@[simp] theorem withoutVcom_nil : withoutVcom [] = [] := rfl

@[simp] theorem withoutVcom_cs (l : Bool) (t : List Event) : withoutVcom (.cs l :: t) = .cs l :: withoutVcom t := rfl
@[simp] theorem withoutVcom_spi (b : Byte) (t : List Event) :
    withoutVcom (.spi b :: t) = .spi b :: withoutVcom t := rfl
@[simp] theorem withoutVcom_spiFail (t : List Event) : withoutVcom (.spiFail :: t) = .spiFail :: withoutVcom t := rfl
@[simp] theorem withoutVcom_wait (w : WaitName) (n : Nat) (t : List Event) :
    withoutVcom (.wait w n :: t) = .wait w n :: withoutVcom t := rfl
@[simp] theorem withoutVcom_gpioDisp (l : Bool) (t : List Event) :
    withoutVcom (.gpioDisp l :: t) = .gpioDisp l :: withoutVcom t := rfl
@[simp] theorem withoutVcom_frameRead (a b : Nat) (t : List Event) :
    withoutVcom (.frameRead a b :: t) = .frameRead a b :: withoutVcom t := rfl
@[simp] theorem withoutVcom_result (c : ResultCode) (t : List Event) :
    withoutVcom (.result c :: t) = .result c :: withoutVcom t := rfl
@[simp] theorem withoutVcom_gpioVcom (l : Bool) (t : List Event) : withoutVcom (.gpioVcom l :: t) = withoutVcom t := rfl
@[simp] theorem withoutVcom_gpioVcomFail (t : List Event) : withoutVcom (.gpioVcomFail :: t) = withoutVcom t := rfl

theorem withoutVcom_of_onVcom {evs : List Event} (h : ∀ e ∈ evs, e.onVcom = true) : withoutVcom evs = [] := by
  simpa [withoutVcom, List.filter_eq_nil_iff] using h

/-- What a number of ticks, none included, can do to the pins (43_power_vcom.md R105): only VCOM_OUT, VCOM_TOGGLE,
VCOM_MISSED, the lock in passing, the VCOM events and VTIMER's own draws. -/
structure Ticked (io io' : Io) : Prop where
  disp : io'.disp = io.disp
  cs : io'.cs = io.cs
  bus : io'.bus = io.bus
  running : io'.vcom.running = io.vcom.running
  stopped : io.vcom.running = false → io' = io
  unlocked : io.vcom.lock = none → io'.vcom.lock = none
  level : io.vcom.toggle = io.vcom.out → io'.vcom.toggle = io'.vcom.out
  missed : io.vcom.missed ≤ io'.vcom.missed
  trace : ∃ evs, io'.trace = io.trace ++ evs ∧ ∀ e ∈ evs, e.onVcom = true

theorem Ticked.refl (io : Io) : Ticked io io :=
  ⟨rfl, rfl, rfl, rfl, fun _ => rfl, id, id, BitVec.le_refl _, [], by simp⟩

theorem Ticked.trans {a b c : Io} (h1 : Ticked a b) (h2 : Ticked b c) : Ticked a c := by
  obtain ⟨e1, t1, v1⟩ := h1.trace
  obtain ⟨e2, t2, v2⟩ := h2.trace
  refine ⟨h2.disp.trans h1.disp, h2.cs.trans h1.cs, h2.bus.trans h1.bus, h2.running.trans h1.running, fun h => ?_,
    h2.unlocked ∘ h1.unlocked, h2.level ∘ h1.level, BitVec.le_trans h1.missed h2.missed, e1 ++ e2, ?_, ?_⟩
  · rw [h2.stopped (h1.running.trans h), h1.stopped h]
  · rw [t2, t1, List.append_assoc]
  · simpa [or_imp, forall_and] using ⟨v1, v2⟩

theorem le_missedSucc (v : Word) : v ≤ missedSucc v := by
  unfold missedSucc
  split
  · exact BitVec.le_refl _
  · next h =>
    have h' : v.toNat ≠ 2 ^ 32 - 1 := fun e => h (BitVec.eq_of_toNat_eq (by simpa using e))
    have := v.isLt
    rw [BitVec.le_def, BitVec.toNat_add]
    simp
    omega

/-- What the VCOM write of a tick does: it takes, or it is counted (43_power_vcom.md R105, R107). -/
theorem Io.toggleVcom_cases (io : Io) :
    (io.vpin.peek Config.freeVpin 0 = true ∧
      io.toggleVcom = Io.log (.gpioVcom !io.vcom.toggle)
        { io with vpin := io.vpin.skip 1, vcom := { io.vcom with out := !io.vcom.toggle, toggle := !io.vcom.toggle } }) ∨
    (io.vpin.peek Config.freeVpin 0 = false ∧
      io.toggleVcom = Io.log .gpioVcomFail
        { io with vpin := io.vpin.skip 1, vcom := { io.vcom with missed := missedSucc io.vcom.missed } }) := by
  cases h : io.vpin.peek Config.freeVpin 0
  · exact .inr ⟨rfl, by simp [Io.toggleVcom, h]⟩
  · exact .inl ⟨rfl, by simp [Io.toggleVcom, h]⟩

theorem Io.tick_ticked (io : Io) : Ticked io io.tick := by
  cases hr : io.vcom.running with
  | false => simp only [Io.tick, hr]; exact Ticked.refl io
  | true =>
    have ht : io.tick = ((io.acquire .vtimer).toggleVcom).release := by simp [Io.tick, hr]
    rw [ht]
    rcases Io.toggleVcom_cases (io.acquire .vtimer) with ⟨-, h⟩ | ⟨-, h⟩ <;> rw [h]
    · exact ⟨rfl, rfl, rfl, rfl, fun hs => by simp [hr] at hs, fun _ => rfl, fun _ => rfl, BitVec.le_refl _,
        [.gpioVcom !io.vcom.toggle], rfl, by simp [Event.onVcom]⟩
    · exact ⟨rfl, rfl, rfl, rfl, fun hs => by simp [hr] at hs, fun _ => rfl, fun hl => hl, le_missedSucc _,
        [.gpioVcomFail], rfl, by simp [Event.onVcom]⟩

theorem Io.ticksDone_ticked (n : Nat) (io : Io) : Ticked io (io.ticksDone n) := by
  induction n generalizing io with
  | zero => exact Ticked.refl io
  | succ n ih => exact (Io.tick_ticked io).trans (ih io.tick)

/-- A point where VTIMER may run does what some number of ticks does. -/
theorem Io.yieldTicks_ticked (io : Io) : Ticked io io.yieldTicks := by
  cases hr : io.vcom.running with
  | false => simp only [Io.yieldTicks, hr]; exact Ticked.refl io
  | true =>
    have h := Io.ticksDone_ticked (io.ticks.peek Config.freeTicks 0) { io with ticks := io.ticks.skip 1 }
    have he : io.yieldTicks =
        ({ io with ticks := io.ticks.skip 1 } : Io).ticksDone (io.ticks.peek Config.freeTicks 0) := by
      simp [Io.yieldTicks, hr]
    rw [he]
    exact ⟨h.disp, h.cs, h.bus, h.running, fun hs => by simp [hr] at hs, h.unlocked, h.level, h.missed, h.trace⟩

/-- A tick neither reads nor writes the source of tick numbers. -/
theorem Io.ticksDone_ticks (n : Nat) (io : Io) (ticks : Source Nat) :
    ({ io with ticks := ticks } : Io).ticksDone n = { io.ticksDone n with ticks := ticks } := by
  induction n generalizing io with
  | zero => rfl
  | succ n ih =>
    have h : ({ io with ticks := ticks } : Io).tick = { io.tick with ticks := ticks } := by
      cases hr : io.vcom.running with
      | false => simp [Io.tick, hr]
      | true =>
        cases hp : io.vpin.peek Config.freeVpin 0 <;>
          simp [Io.tick, hr, Io.toggleVcom, Io.acquire, Io.release, Io.log, hp]
    rw [Io.ticksDone, h, ih]
    rfl

/-- A point where VTIMER may run is some number of ticks and some new source of tick numbers. -/
theorem Io.yieldTicks_eq (io : Io) : ∃ n ticks, io.yieldTicks = { io.ticksDone n with ticks := ticks } := by
  cases hr : io.vcom.running with
  | false => exact ⟨0, io.ticks, by simp [Io.yieldTicks, hr, Io.ticksDone]⟩
  | true =>
    refine ⟨io.ticks.peek Config.freeTicks 0, io.ticks.skip 1, ?_⟩
    rw [← Io.ticksDone_ticks]
    simp [Io.yieldTicks, hr]

theorem Io.yieldTicks_stopped {io : Io} (h : io.vcom.running = false) : io.yieldTicks = io := by
  simp [Io.yieldTicks, h]

/-- The new events of a yield, without the VCOM pin's: none. -/
theorem Ticked.withoutVcom_trace {io io' : Io} (h : Ticked io io') :
    Machine.withoutVcom io'.trace = Machine.withoutVcom io.trace := by
  obtain ⟨evs, ht, hv⟩ := h.trace
  rw [ht, withoutVcom_append, withoutVcom_of_onVcom hv, List.append_nil]

/-! ### Events -/

/-- An event with its write stands after some ticks. -/
theorem Io.act_cases (f : Io → Io) (e : Event) (io : Io) : ∃ io1, Ticked io io1 ∧ io.act f e = (f io1).log e :=
  ⟨io.yieldTicks, io.yieldTicks_ticked, rfl⟩

theorem Io.act_stopped {io : Io} (f : Io → Io) (e : Event) (h : io.vcom.running = false) :
    io.act f e = (f io).log e := by
  rw [Io.act, Io.yieldTicks_stopped h]

/-- What `emit E` does: some ticks, then the event. -/
theorem Io.emit_cases (e : Event) (io : Io) : ∃ io1, Ticked io io1 ∧ io.emit e = io1.log e :=
  Io.act_cases id e io

/-- Waiting does what some number of ticks does. -/
theorem Io.idle_ticked (io : Io) : Ticked io io.idle := io.tick_ticked.trans io.tick.yieldTicks_ticked

/-- Waiting is some number of ticks, at least one, and some new source of tick numbers. -/
theorem Io.idle_eq (io : Io) : ∃ n ticks, 1 ≤ n ∧ io.idle = { io.ticksDone n with ticks := ticks } := by
  obtain ⟨n, ticks, h⟩ := io.tick.yieldTicks_eq
  exact ⟨n + 1, ticks, by omega, h⟩

theorem Io.idle_stopped {io : Io} (h : io.vcom.running = false) : io.idle = io := by
  simp [Io.idle, Io.tick, Io.yieldTicks, h]

/-! ### Events with ticks between them -/

/-- Ticks neither read nor write CS and the bus. -/
theorem Io.ticksDone_bus_cs (n : Nat) (io : Io) (bus : Source Bool) (cs : Bool) :
    ({ io with bus := bus, cs := cs } : Io).ticksDone n = { io.ticksDone n with bus := bus, cs := cs } := by
  induction n generalizing io with
  | zero => rfl
  | succ n ih =>
    have h : ({ io with bus := bus, cs := cs } : Io).tick = { io.tick with bus := bus, cs := cs } := by
      cases hr : io.vcom.running with
      | false => simp [Io.tick, hr]
      | true =>
        cases hp : io.vpin.peek Config.freeVpin 0 <;>
          simp [Io.tick, hr, Io.toggleVcom, Io.acquire, Io.release, Io.log, hp]
    rw [Io.ticksDone, h, ih]
    rfl

theorem Io.ticking_ticks (zs : List (Nat × Event)) (io : Io) (ticks : Source Nat) :
    Io.ticking zs { io with ticks := ticks } = { Io.ticking zs io with ticks := ticks } := by
  induction zs generalizing io with
  | nil => rfl
  | cons z rest ih => rw [Io.ticking, Io.ticksDone_ticks]; exact ih ((Io.ticksDone z.1 io).log z.2)

theorem Io.ticking_bus_cs (zs : List (Nat × Event)) (io : Io) (bus : Source Bool) (cs : Bool) :
    Io.ticking zs { io with bus := bus, cs := cs } = { Io.ticking zs io with bus := bus, cs := cs } := by
  induction zs generalizing io with
  | nil => rfl
  | cons z rest ih => rw [Io.ticking, Io.ticksDone_bus_cs]; exact ih ((Io.ticksDone z.1 io).log z.2)

theorem Io.ticking_append (zs ws : List (Nat × Event)) (io : Io) :
    Io.ticking (zs ++ ws) io = Io.ticking ws (Io.ticking zs io) := by
  induction zs generalizing io with
  | nil => rfl
  | cons z rest ih => exact ih _

theorem Io.ticking_running (zs : List (Nat × Event)) (io : Io) :
    (Io.ticking zs io).vcom.running = io.vcom.running := by
  induction zs generalizing io with
  | nil => rfl
  | cons z rest ih => exact (ih _).trans (Io.ticksDone_ticked z.1 io).running

theorem Io.Emits.nil (io : Io) : io.Emits [] io := ⟨[], io.ticks, rfl, fun _ => rfl, rfl⟩

/-- What two operations emit, one after the other. -/
theorem Io.Emits.append {a b c : Io} {e1 e2 : List Event} (h1 : a.Emits e1 b) (h2 : b.Emits e2 c) :
    a.Emits (e1 ++ e2) c := by
  obtain ⟨n1, t1, l1, s1, rfl⟩ := h1
  obtain ⟨n2, t2, l2, s2, rfl⟩ := h2
  have hr : (Io.ticking (n1.zip e1) a).vcom.running = a.vcom.running := Io.ticking_running _ _
  refine ⟨n1 ++ n2, t2, by simp [l1, l2], fun h => (s2 (hr.trans h)).trans (s1 h), ?_⟩
  rw [List.zip_append l1, Io.ticking_append, Io.ticking_ticks]

/-- The pins with another bus and chip select, which neither events nor ticks touch. -/
def Io.wired (io : Io) (bus : Source Bool) (cs : Bool) : Io := { io with bus := bus, cs := cs }

@[simp] theorem Io.wired_wired (io : Io) (bus bus' : Source Bool) (cs cs' : Bool) :
    (io.wired bus cs).wired bus' cs' = io.wired bus' cs' := rfl
@[simp] theorem Io.wired_self (io : Io) : io.wired io.bus io.cs = io := rfl
@[simp] theorem Io.wired_bus (io : Io) (bus : Source Bool) (cs : Bool) : (io.wired bus cs).bus = bus := rfl
@[simp] theorem Io.wired_cs (io : Io) (bus : Source Bool) (cs : Bool) : (io.wired bus cs).cs = cs := rfl
@[simp] theorem Io.wired_vcom (io : Io) (bus : Source Bool) (cs : Bool) : (io.wired bus cs).vcom = io.vcom := rfl
@[simp] theorem Io.wired_disp (io : Io) (bus : Source Bool) (cs : Bool) : (io.wired bus cs).disp = io.disp := rfl
@[simp] theorem Io.wired_trace (io : Io) (bus : Source Bool) (cs : Bool) : (io.wired bus cs).trace = io.trace := rfl

theorem Io.Emits.bus {a b : Io} {evs : List Event} (h : a.Emits evs b) : b.bus = a.bus := by
  obtain ⟨n, t, l, s, rfl⟩ := h
  have h := congrArg Io.bus (Io.ticking_bus_cs (n.zip evs) a a.bus a.cs)
  exact h

/-- What an operation emits does not depend on the bus and CS. -/
theorem Io.Emits.wired {a b : Io} {evs : List Event} (h : a.Emits evs b) (bus : Source Bool) (cs : Bool) :
    (a.wired bus cs).Emits evs (b.wired bus cs) := by
  obtain ⟨n, t, l, s, rfl⟩ := h
  exact ⟨n, t, l, s, by rw [Io.wired, Io.wired, Io.ticking_bus_cs _ a bus cs]⟩

/-- What two operations emit, where the bus or CS is written between them. -/
theorem Io.Emits.append_wired {a b c : Io} {e1 e2 : List Event} {bus : Source Bool} {cs : Bool} (h1 : a.Emits e1 b)
    (h2 : (b.wired bus cs).Emits e2 c) : (a.wired bus cs).Emits (e1 ++ e2) c :=
  (h1.wired bus cs).append h2

/-- What is emitted before a transaction, and what the transaction emits. -/
theorem Io.Emits.append_sent {a b c : Io} {e1 e2 : List Event} {n : Nat} (h1 : a.Emits e1 b)
    (h2 : (b.sent n).Emits e2 c) : (a.sent n).Emits (e1 ++ e2) c := by
  have hb : a.sent n = a.wired (b.bus.skip n) false := by rw [h1.bus]; rfl
  rw [hb]
  exact h1.append_wired h2

/-- `emit E` emits E. -/
theorem Io.emit_emits (e : Event) (io : Io) : io.Emits [e] (io.emit e) := by
  obtain ⟨n, ticks, h⟩ := io.yieldTicks_eq
  refine ⟨[n], io.yieldTicks.ticks, rfl, fun hs => by rw [Io.yieldTicks_stopped hs], ?_⟩
  simp only [Io.emit, Io.act, h]
  rfl

/-- The chip select emits its event. -/
theorem Io.driveCs_emits (l : Bool) (io : Io) : (io.wired io.bus l).Emits [.cs l] (io.driveCs l) := by
  have he : io.driveCs l = (io.emit (.cs l)).wired io.yieldTicks.bus l := rfl
  rw [he, io.yieldTicks_ticked.bus]
  exact (io.emit_emits (.cs l)).wired io.bus l

/-- While the timer is stopped the events are all there is. -/
theorem Io.Emits.stopped {a b : Io} {evs : List Event} (h : a.Emits evs b) (hr : a.vcom.running = false) :
    b = { a with trace := a.trace ++ evs } := by
  obtain ⟨n, t, l, s, rfl⟩ := h
  have key : ∀ (evs : List Event) (n : List Nat) (a : Io), a.vcom.running = false → n.length = evs.length →
      Io.ticking (n.zip evs) a = { a with trace := a.trace ++ evs } := by
    intro evs
    induction evs with
    | nil => intro n a _ _; simp [Io.ticking]
    | cons e rest ih =>
      intro n a ha hl
      cases n with
      | nil => simp at hl
      | cons k ks =>
        rw [List.zip_cons_cons, Io.ticking, (Io.ticksDone_ticked k a).stopped ha,
          ih ks (a.log e) ha (by simpa using hl)]
        simp [Io.log]
  rw [key evs n a hr l, s hr]

/-- What emitting events keeps, and what it adds to the trace: its own events, in order, among those of ticks. -/
structure Io.Emitted (a b : Io) (evs : List Event) : Prop where
  disp : b.disp = a.disp
  cs : b.cs = a.cs
  bus : b.bus = a.bus
  running : b.vcom.running = a.vcom.running
  unlocked : a.vcom.lock = none → b.vcom.lock = none
  level : a.vcom.toggle = a.vcom.out → b.vcom.toggle = b.vcom.out
  still : a.vcom.running = false → b.vcom = a.vcom
  missed : a.vcom.missed ≤ b.vcom.missed
  trace : ∃ new, b.trace = a.trace ++ new ∧ Machine.withoutVcom new = Machine.withoutVcom evs

theorem Io.Emits.emitted {a b : Io} {evs : List Event} (h : a.Emits evs b) : Io.Emitted a b evs := by
  obtain ⟨n, t, l, -, rfl⟩ := h
  have key : ∀ (evs : List Event) (n : List Nat) (a : Io), n.length = evs.length →
      Io.Emitted a (Io.ticking (n.zip evs) a) evs := by
    intro evs
    induction evs with
    | nil =>
      intro n a _
      rw [List.zip_nil_right]
      exact ⟨rfl, rfl, rfl, rfl, id, id, fun _ => rfl, BitVec.le_refl _, [], (List.append_nil _).symm, rfl⟩
    | cons e rest ih =>
      intro n a hl
      cases n with
      | nil => simp at hl
      | cons k ks =>
        have h1 := Io.ticksDone_ticked k a
        have h2 := ih ks ((Io.ticksDone k a).log e) (by simpa using hl)
        obtain ⟨e1, t1, v1⟩ := h1.trace
        obtain ⟨e2, t2, v2⟩ := h2.trace
        refine ⟨h2.disp.trans h1.disp, h2.cs.trans h1.cs, h2.bus.trans h1.bus, h2.running.trans h1.running,
          h2.unlocked ∘ h1.unlocked, h2.level ∘ h1.level, fun hs => ?_, BitVec.le_trans h1.missed h2.missed,
          e1 ++ e :: e2, ?_, ?_⟩
        · exact (h2.still (h1.running.trans hs)).trans (by rw [Io.log_vcom, h1.stopped hs])
        · rw [List.zip_cons_cons, Io.ticking, t2, Io.log_trace, t1]; simp
        · rw [withoutVcom_append, withoutVcom_of_onVcom v1, List.nil_append]
          show Machine.withoutVcom ([e] ++ e2) = Machine.withoutVcom ([e] ++ rest)
          rw [withoutVcom_append, withoutVcom_append, v2]
  obtain ⟨h1, h2, h3, h4, h5, h6, h7, h8, h9⟩ := key evs n a l
  exact ⟨h1, h2, h3, h4, h5, h6, h7, h8, h9⟩

/-! ### The pins with all that a tick may change taken out -/

theorem Io.withoutVcom_toggleVcom (io : Io) : io.toggleVcom.withoutVcom = io.withoutVcom := by
  rcases io.toggleVcom_cases with ⟨-, h⟩ | ⟨-, h⟩ <;> rw [h] <;>
    simp [Io.withoutVcom, Io.log, Machine.withoutVcom, Event.onVcom]

theorem Io.withoutVcom_tick (io : Io) : io.tick.withoutVcom = io.withoutVcom := by
  unfold Io.tick
  split
  · have h := Io.withoutVcom_toggleVcom (io.acquire .vtimer)
    simpa [Io.withoutVcom, Io.acquire, Io.release] using h
  · rfl

theorem Io.withoutVcom_ticksDone (n : Nat) (io : Io) : (io.ticksDone n).withoutVcom = io.withoutVcom := by
  induction n generalizing io with
  | zero => rfl
  | succ n ih => exact (ih io.tick).trans io.withoutVcom_tick

/-- Ticks change nothing but what `withoutVcom` takes out. -/
theorem Io.withoutVcom_yieldTicks (io : Io) : io.yieldTicks.withoutVcom = io.withoutVcom := by
  unfold Io.yieldTicks
  split
  · exact Io.withoutVcom_ticksDone _ _
  · rfl

/-- An event that is not on the VCOM pin passes through, with any write that does not read what a tick changes. -/
theorem Io.withoutVcom_act {f : Io → Io} {e : Event} (io : Io) (he : e.onVcom = false)
    (hf : ∀ io, (f io).withoutVcom = (f io.withoutVcom).withoutVcom) :
    (io.act f e).withoutVcom = ((f io.withoutVcom).log e).withoutVcom := by
  have h1 : ∀ j : Io, (j.log e).withoutVcom = (j.withoutVcom).log e := by
    intro j; simp [Io.withoutVcom, Io.log, Machine.withoutVcom, he]
  rw [Io.act, h1, hf, Io.withoutVcom_yieldTicks, ← h1]

theorem Io.withoutVcom_idem (io : Io) : io.withoutVcom.withoutVcom = io.withoutVcom := by
  simp [Io.withoutVcom, Machine.withoutVcom, List.filter_filter]

end Sys2Proof.Machine
end

