-- ==== Sys2Proof/Laws/Loops.lean ====
section
/-! SUPPORT. The `for` loop: its two equations, and the one induction every later loop proof uses. -/

namespace Sys2Proof.Machine

@[simp] theorem forUp_zero {σ : Type} (i : Nat) (f : Nat → σ → σ) (x : σ) : forUp 0 i f x = x := rfl

theorem forUp_succ {σ : Type} (n i : Nat) (f : Nat → σ → σ) (x : σ) :
    forUp (n + 1) i f x = forUp n (i + 1) f (f i x) := rfl

theorem forUp_add {σ : Type} (n m i : Nat) (f : Nat → σ → σ) (x : σ) :
    forUp (n + m) i f x = forUp m (i + n) f (forUp n i f x) := by
  induction n generalizing i x with
  | zero => simp
  | succ n ih =>
    rw [show n + 1 + m = (n + m) + 1 by omega, forUp_succ, ih, forUp_succ, show i + 1 + n = i + (n + 1) by omega]

/-- The last round of a loop stands outside. -/
theorem forUp_last {σ : Type} (n i : Nat) (f : Nat → σ → σ) (x : σ) :
    forUp (n + 1) i f x = f (i + n) (forUp n i f x) := by
  rw [forUp_add n 1]; rfl

/-- An invariant indexed by the loop variable holds at the loop's end. -/
theorem forUp_induct {σ : Type} {P : Nat → σ → Prop} {f : Nat → σ → σ} (n i : Nat) {x : σ} (h0 : P i x)
    (hs : ∀ k y, i ≤ k → k < i + n → P k y → P (k + 1) (f k y)) : P (i + n) (forUp n i f x) := by
  induction n with
  | zero => simpa using h0
  | succ n ih =>
    rw [forUp_last]
    exact hs (i + n) _ (by omega) (by omega) (ih fun k y h1 h2 => hs k y h1 (by omega))

/-- An invariant indexed by the loop variable holds at the end of `for i in [a, b)`. -/
theorem forRange_induct {σ : Type} {P : Nat → σ → Prop} {f : Nat → σ → σ} {a b : Nat} {x : σ} (hab : a ≤ b)
    (h0 : P a x) (hs : ∀ k y, a ≤ k → k < b → P k y → P (k + 1) (f k y)) : P b (forRange a b f x) := by
  have h := forUp_induct (P := P) (f := f) (b - a) a h0 fun k y h1 h2 => hs k y h1 (by omega)
  rwa [Nat.add_sub_cancel' hab] at h

/-- A property that every round keeps holds at the end of a loop. -/
theorem forRange_keeps {σ : Type} {P : σ → Prop} {f : Nat → σ → σ} {a b : Nat} {x : σ} (h0 : P x)
    (hs : ∀ k y, a ≤ k → k < b → P y → P (f k y)) : P (forRange a b f x) := by
  by_cases hab : a ≤ b
  · exact forRange_induct (P := fun _ y => P y) hab h0 hs
  · simpa [forRange, Nat.sub_eq_zero_of_le (Nat.le_of_not_le hab)] using h0

/-- A loop over an empty range does nothing. -/
theorem forRange_empty {σ : Type} {a b : Nat} (h : b ≤ a) (f : Nat → σ → σ) (x : σ) : forRange a b f x = x := by
  simp [forRange, Nat.sub_eq_zero_of_le h]

end Sys2Proof.Machine
end

