-- ==== Sys2Proof/Laws/Memory.lean ====
section
/-! SUPPORT. Byte spaces: a read after a write, and the canonical form, which every write keeps. -/

namespace Sys2Proof.Machine

@[simp] theorem Memory.get?_nil (a : Nat) : Memory.get? [] a = none := rfl

theorem Memory.get?_write_same (m : Memory) (a : Nat) (b : Byte) : (m.write a b).get? a = some b := by
  induction m with
  | nil => simp [Memory.write, Memory.get?]
  | cons cell rest ih =>
    obtain ⟨k, v⟩ := cell
    by_cases h1 : a < k
    · simp [Memory.write, Memory.get?, h1]
    · by_cases h2 : a = k
      · simp [Memory.write, Memory.get?, h2]
      · have h3 : k ≠ a := fun h => h2 h.symm
        simp [Memory.write, Memory.get?, h1, h2, h3, ih]

theorem Memory.get?_write_other (m : Memory) {a a' : Nat} (b : Byte) (h : a' ≠ a) :
    (m.write a b).get? a' = m.get? a' := by
  have h' : a ≠ a' := fun e => h e.symm
  induction m with
  | nil => simp [Memory.write, Memory.get?, h']
  | cons cell rest ih =>
    obtain ⟨k, v⟩ := cell
    by_cases h1 : a < k
    · simp [Memory.write, Memory.get?, h1, h']
    · by_cases h2 : a = k
      · subst h2; simp [Memory.write, Memory.get?, h']
      · rw [Memory.write, if_neg h1, if_neg h2]
        simp [Memory.get?, ih]

/-- What a write does to every later look-up. -/
theorem Memory.get?_write (m : Memory) (a a' : Nat) (b : Byte) :
    (m.write a b).get? a' = if a' = a then some b else m.get? a' := by
  by_cases h : a' = a
  · subst h; simp [Memory.get?_write_same]
  · simp [h, Memory.get?_write_other]

/-- What a write does to every later read. -/
theorem Memory.read_write (free : Nat → Byte) (m : Memory) (a a' : Nat) (b : Byte) :
    (m.write a b).read free a' = if a' = a then b else m.read free a' := by
  by_cases h : a' = a <;> simp [Memory.read, Memory.get?_write, h]

/-- The canonical form, as a proposition on the list of offsets. -/
theorem Memory.wf_iff_pairwise (m : Memory) : m.wf = true ↔ (m.map Prod.fst).Pairwise (· < ·) := by
  induction m with
  | nil => simp [Memory.wf]
  | cons cell rest ih =>
    obtain ⟨k, v⟩ := cell
    cases rest with
    | nil => simp [Memory.wf]
    | cons cell' rest' =>
      obtain ⟨k', v'⟩ := cell'
      simp only [Memory.wf, Bool.and_eq_true, decide_eq_true_eq, ih, List.map_cons, List.pairwise_cons,
        List.mem_cons, forall_eq_or_imp]
      constructor
      · rintro ⟨h1, h2, h3⟩
        exact ⟨⟨h1, fun a ha => Nat.lt_trans h1 (h2 a ha)⟩, h2, h3⟩
      · rintro ⟨⟨h1, -⟩, h2, h3⟩
        exact ⟨h1, h2, h3⟩

/-- The offsets listed after a write. -/
theorem Memory.mem_keys_write {m : Memory} {a k : Nat} {b : Byte} (h : k ∈ (m.write a b).map Prod.fst) :
    k = a ∨ k ∈ m.map Prod.fst := by
  induction m with
  | nil => simpa [Memory.write] using h
  | cons cell rest ih =>
    obtain ⟨k', v⟩ := cell
    simp only [Memory.write] at h
    split at h
    · simpa using h
    · split at h
      · simp_all
      · simp only [List.map_cons, List.mem_cons] at h ⊢
        rcases h with h | h
        · exact .inr (.inl h)
        · exact (ih h).imp_right .inr

/-- A write keeps the canonical form. -/
theorem Memory.write_wf {m : Memory} (a : Nat) (b : Byte) (h : m.wf = true) : (m.write a b).wf = true := by
  rw [Memory.wf_iff_pairwise] at *
  induction m with
  | nil => simp [Memory.write]
  | cons cell rest ih =>
    obtain ⟨k, v⟩ := cell
    simp only [List.map_cons, List.pairwise_cons] at h
    simp only [Memory.write]
    split
    · next hlt =>
      simp only [List.map_cons, List.pairwise_cons, List.mem_cons, forall_eq_or_imp]
      exact ⟨⟨hlt, fun x hx => Nat.lt_trans hlt (h.1 x hx)⟩, h.1, h.2⟩
    · split
      · next _ heq => subst heq; simpa using h
      · next hnlt hne =>
        simp only [List.map_cons, List.pairwise_cons]
        refine ⟨fun x hx => ?_, ih h.2⟩
        rcases Memory.mem_keys_write hx with rfl | hx
        · omega
        · exact h.1 x hx

/-- A byte space with every listed offset below a bound. -/
def Memory.below (m : Memory) (n : Nat) : Prop := ∀ cell ∈ m, cell.1 < n

/-- A write below the bound keeps the listed offsets below it. -/
theorem Memory.write_below {m : Memory} {n a : Nat} (b : Byte) (h : m.below n) (ha : a < n) :
    (m.write a b).below n := by
  intro cell hc
  rcases Memory.mem_keys_write (List.mem_map_of_mem hc) with h1 | h1
  · omega
  · obtain ⟨c', hc', he⟩ := List.mem_map.1 h1
    have := h c' hc'
    omega

end Sys2Proof.Machine
end

