-- ==== Sys2Proof/Laws/Datapath.lean ====
section
/-! SUPPORT. What the datapath's loops leave in GRAY and TAGGED: for each stage one lemma that gives every byte after it. -/

namespace Sys2Proof.Machine

/-! ### Offsets -/

/-- A pixel's offset names its row and column (20_memory.md R49). -/
theorem offset_inj {w x y x' y' : Nat} (hx : x < w) (hx' : x' < w) (h : y * w + x = y' * w + x') :
    y = y' ∧ x = x' := by
  have h1 := congrArg (· / w) h
  have h2 := congrArg (· % w) h
  have hw : 0 < w := by omega
  simp only [Nat.mul_comm _ w, Nat.mul_add_div hw, Nat.div_eq_of_lt hx, Nat.div_eq_of_lt hx', Nat.mul_add_mod,
    Nat.mod_eq_of_lt hx, Nat.mod_eq_of_lt hx'] at h1 h2
  omega

theorem offset_lt {w h x y : Nat} (hx : x < w) (hy : y < h) : y * w + x < w * h := by
  have : (y + 1) * w ≤ h * w := Nat.mul_le_mul_right w hy
  rw [Nat.add_mul] at this
  rw [Nat.mul_comm w h]
  omega

/-! ### The frame load -/

/-- One row of the frame load. -/
theorem frameLoad_row (c : Config) (y : Nat) (p : Source Byte × Memory) :
    let q := forRange 0 c.width (fun x (p : Source Byte × Memory) =>
      let (sample, frame) := p.1.draw Config.freeFrame
      (frame, p.2.write (y * c.width + x) sample)) p
    q.1 = p.1.skip c.width ∧
      ∀ a, q.2.get? a = if y * c.width ≤ a ∧ a < y * c.width + c.width
        then some (p.1.peek Config.freeFrame (a - y * c.width)) else p.2.get? a := by
  refine forRange_induct
    (P := fun x (q : Source Byte × Memory) => q.1 = p.1.skip x ∧
      ∀ a, q.2.get? a = if y * c.width ≤ a ∧ a < y * c.width + x
        then some (p.1.peek Config.freeFrame (a - y * c.width)) else p.2.get? a)
    (Nat.zero_le _) ⟨by simp, fun a => ?_⟩ ?_
  · rw [if_neg (by omega)]
  · rintro x ⟨fs, m⟩ - - ⟨h1, h2⟩
    dsimp only at h1 h2
    subst h1
    refine ⟨by simp [Source.skip_skip], fun a => ?_⟩
    simp only [Source.draw_fst, Source.peek_skip, Nat.add_zero, Memory.get?_write, h2]
    by_cases ha : a = y * c.width + x
    · subst ha; simp
    · rw [if_neg ha]
      by_cases hb : y * c.width ≤ a ∧ a < y * c.width + x
      · rw [if_pos hb, if_pos (by omega)]
      · rw [if_neg hb, if_neg (by omega)]

/-- The frame load draws a sample for every pixel of the rows, in ascending y and then x, and writes it at the pixel's
offset; no other byte changes (40_datapath.md R71, 20_memory.md R42). -/
theorem frameLoad_spec (c : Config) {y1 y2 : Nat} (h : y1 ≤ y2) (p : Source Byte × Memory) :
    (frameLoad c y1 y2 p).1 = p.1.skip ((y2 - y1) * c.width) ∧
      ∀ a, (frameLoad c y1 y2 p).2.get? a = if y1 * c.width ≤ a ∧ a < y2 * c.width
        then some (p.1.peek Config.freeFrame (a - y1 * c.width)) else p.2.get? a := by
  refine forRange_induct
    (P := fun y (q : Source Byte × Memory) => q.1 = p.1.skip ((y - y1) * c.width) ∧
      ∀ a, q.2.get? a = if y1 * c.width ≤ a ∧ a < y * c.width
        then some (p.1.peek Config.freeFrame (a - y1 * c.width)) else p.2.get? a)
    h ⟨by simp, fun a => ?_⟩ ?_
  · rw [if_neg (by omega)]
  · rintro y q hy - ⟨h1, h2⟩
    obtain ⟨r1, r2⟩ := frameLoad_row c y q
    have hle : y1 * c.width ≤ y * c.width := Nat.mul_le_mul_right _ hy
    have hs : (y + 1) * c.width = y * c.width + c.width := by rw [Nat.add_mul, Nat.one_mul]
    refine ⟨?_, fun a => ?_⟩
    · rw [r1, h1, Source.skip_skip, ← Nat.succ_mul, Nat.succ_eq_add_one, show y - y1 + 1 = y + 1 - y1 by omega]
    · rw [r2, h2, hs]
      by_cases ha : y * c.width ≤ a ∧ a < y * c.width + c.width
      · rw [if_pos ha, if_pos ⟨by omega, ha.2⟩, h1, Source.peek_skip, Nat.sub_mul]
        congr 2
        omega
      · rw [if_neg ha]
        by_cases hb : y1 * c.width ≤ a ∧ a < y * c.width
        · rw [if_pos hb, if_pos (by omega)]
        · rw [if_neg hb, if_neg (by omega)]

/-! ### Overlays -/

/-- One entry composited: the pixels it covers in the rows, and no other (40_datapath.md R72). -/
theorem compositeEntry_get? {c : Config} {e : Overlay} (hw : e.x.toNat + e.w.toNat ≤ c.width) (y1 y2 : Nat)
    (m : Memory) {x y : Nat} (hx : x < c.width) :
    (compositeEntry c y1 y2 e m).get? (y * c.width + x) =
      if y1 ≤ y ∧ y < y2 ∧ e.covers x y = true then some (e.pixel (x - e.x.toNat) (y - e.y.toNat))
      else m.get? (y * c.width + x) := by
  have key := forRange_induct (a := 0) (b := e.h.toNat)
    (P := fun oy (g : Memory) => g.get? (y * c.width + x) =
      if y1 ≤ y ∧ y < y2 ∧ e.x.toNat ≤ x ∧ x < e.x.toNat + e.w.toNat ∧ e.y.toNat ≤ y ∧ y < e.y.toNat + oy
      then some (e.pixel (x - e.x.toNat) (y - e.y.toNat)) else m.get? (y * c.width + x))
    (f := fun oy gray =>
      let sy := e.y.toNat + oy
      if y1 ≤ sy ∧ sy < y2 then
        forRange 0 e.w.toNat (fun ox gray =>
          let sx := e.x.toNat + ox
          gray.write (sy * c.width + sx) (e.pixel ox oy)) gray
      else gray) (x := m) (Nat.zero_le _) (by rw [if_neg (by omega)]) ?_
  · rw [compositeEntry, key]
    simp only [Overlay.covers, decide_eq_true_eq]
  · rintro oy g - hoy hg
    dsimp only
    by_cases hrow : y1 ≤ e.y.toNat + oy ∧ e.y.toNat + oy < y2
    · rw [if_pos hrow]
      have inner := forRange_induct (a := 0) (b := e.w.toNat)
        (P := fun ox (g' : Memory) => g'.get? (y * c.width + x) =
          if y = e.y.toNat + oy ∧ e.x.toNat ≤ x ∧ x < e.x.toNat + ox
          then some (e.pixel (x - e.x.toNat) oy) else g.get? (y * c.width + x))
        (f := fun ox gray => gray.write ((e.y.toNat + oy) * c.width + (e.x.toNat + ox)) (e.pixel ox oy))
        (x := g) (Nat.zero_le _) (by rw [if_neg (by omega)]) ?_
      · rw [inner, hg]
        by_cases hy : y = e.y.toNat + oy
        · by_cases hxr : e.x.toNat ≤ x ∧ x < e.x.toNat + e.w.toNat
          · rw [if_pos ⟨hy, hxr.1, hxr.2⟩, if_pos (by omega)]
            congr 2; omega
          · rw [if_neg (by omega), if_neg (by omega), if_neg (by omega)]
        · rw [if_neg (by omega)]
          congr 1
          apply propext
          omega
      · rintro ox g' - hox hg'
        rw [Memory.get?_write, hg']
        by_cases ha : y * c.width + x = (e.y.toNat + oy) * c.width + (e.x.toNat + ox)
        · obtain ⟨rfl, rfl⟩ := offset_inj hx (by omega) ha
          rw [if_pos rfl, if_pos (by omega)]
          congr 2; omega
        · rw [if_neg ha]
          have : ¬ (y = e.y.toNat + oy ∧ x = e.x.toNat + ox) := by
            rintro ⟨rfl, rfl⟩; exact ha rfl
          congr 1
          apply propext
          omega
    · rw [if_neg hrow, hg]
      congr 1
      apply propext
      omega

/-- The last entry of a list that covers a pixel. -/
def lastCover (es : List Overlay) (x y : Nat) : Option Overlay :=
  es.foldl (fun best e => if e.covers x y then some e else best) none

theorem lastCover_append_one (es : List Overlay) (e : Overlay) (x y : Nat) :
    lastCover (es ++ [e]) x y = if e.covers x y then some e else lastCover es x y := by
  simp [lastCover]

/-- Entries composited one after another: a pixel holds the byte of the last one that covers it. -/
theorem compositeEntries_get? {c : Config} (es : List Overlay) (hw : ∀ e ∈ es, e.x.toNat + e.w.toNat ≤ c.width)
    (y1 y2 : Nat) (m : Memory) {x y : Nat} (hx : x < c.width) :
    (es.foldl (fun g e => compositeEntry c y1 y2 e g) m).get? (y * c.width + x) =
      if y1 ≤ y ∧ y < y2 then
        match lastCover es x y with
        | some e => some (e.pixel (x - e.x.toNat) (y - e.y.toNat))
        | none => m.get? (y * c.width + x)
      else m.get? (y * c.width + x) := by
  induction es using List.reverseRecOn with
  | nil => simp [lastCover]
  | append_singleton es e ih =>
    rw [List.foldl_append, List.foldl_cons, List.foldl_nil, compositeEntry_get? (hw e (by simp)) _ _ _ hx,
      ih (fun e' h => hw e' (by simp [h])), lastCover_append_one]
    by_cases hr : y1 ≤ y ∧ y < y2
    · by_cases hc : e.covers x y = true
      · simp [hr, hc]
      · simp [hr, hc]
    · rw [if_neg (by tauto), if_neg hr, if_neg hr]

theorem mem_insertByHandle {e f : Overlay} {l : List Overlay} : f ∈ insertByHandle e l ↔ f = e ∨ f ∈ l := by
  induction l with
  | nil => simp [insertByHandle]
  | cons g rest ih =>
    simp only [insertByHandle]
    split
    · simp
    · simp [ih]; tauto

theorem mem_sortByHandle {f : Overlay} {l : List Overlay} : f ∈ sortByHandle l ↔ f ∈ l := by
  induction l with
  | nil => simp [sortByHandle]
  | cons e rest ih => simp [sortByHandle, mem_insertByHandle, ih]

/-- The sorted entries ascend by handle (40_datapath.md R72). -/
theorem sortByHandle_sorted (l : List Overlay) : (sortByHandle l).Pairwise (fun a b => a.handle ≤ b.handle) := by
  induction l with
  | nil => simp [sortByHandle]
  | cons e rest ih =>
    rw [sortByHandle]
    generalize sortByHandle rest = s at ih
    induction s with
    | nil => simp [insertByHandle]
    | cons g t iht =>
      simp only [insertByHandle]
      have hg := List.pairwise_cons.1 ih
      split
      · next hle =>
        refine List.pairwise_cons.2 ⟨fun a ha => ?_, ih⟩
        rcases List.mem_cons.1 ha with rfl | ha
        · exact hle
        · exact BitVec.le_trans hle (hg.1 a ha)
      · next hle =>
        refine List.pairwise_cons.2 ⟨fun a ha => ?_, iht hg.2⟩
        rcases mem_insertByHandle.1 ha with rfl | ha
        · rw [BitVec.le_def] at hle ⊢; omega
        · exact hg.1 a ha

/-- What `lastCover` finds in an ascending list: a covering entry of the highest handle. -/
theorem lastCover_sorted {es : List Overlay} (hs : es.Pairwise (fun a b => a.handle ≤ b.handle)) (x y : Nat) :
    match lastCover es x y with
    | none => ∀ e ∈ es, e.covers x y = false
    | some e => e ∈ es ∧ e.covers x y = true ∧ ∀ f ∈ es, f.covers x y = true → f.handle ≤ e.handle := by
  induction es using List.reverseRecOn with
  | nil => simp [lastCover]
  | append_singleton es e ih =>
    rw [lastCover_append_one]
    have hs' := List.pairwise_append.1 hs
    by_cases hc : e.covers x y = true
    · simp only [hc, if_true]
      refine ⟨by simp, trivial, fun f hf _ => ?_⟩
      rcases List.mem_append.1 hf with hf | hf
      · exact hs'.2.2 f hf e (by simp)
      · simp at hf; subst hf; exact BitVec.le_refl _
    · have ih := ih hs'.1
      simp only [hc]
      cases hl : lastCover es x y with
      | none =>
        rw [hl] at ih
        simp only [Bool.false_eq_true, if_false]
        intro f hf
        rcases List.mem_append.1 hf with hf | hf
        · exact ih f hf
        · simp at hf; subst hf; simpa using hc
      | some g =>
        rw [hl] at ih
        simp only [Bool.false_eq_true, if_false]
        refine ⟨by simp [ih.1], ih.2.1, fun f hf hfc => ?_⟩
        rcases List.mem_append.1 hf with hf | hf
        · exact ih.2.2 f hf hfc
        · simp at hf; subst hf; exact absurd hfc hc

/-- What `topOverlay` finds: a visible live entry that covers the pixel, of the highest handle. -/
theorem topOverlay_spec (ent : List (Option Overlay)) (x y : Nat) :
    match topOverlay ent x y with
    | none => ∀ e ∈ ent.filterMap id, e.visible = true → e.covers x y = false
    | some e => (e ∈ ent.filterMap id ∧ e.visible = true) ∧ e.covers x y = true ∧
        ∀ f ∈ ent.filterMap id, f.visible = true → f.covers x y = true → f.handle ≤ e.handle := by
  rw [topOverlay]
  generalize ent.filterMap id = l
  induction l using List.reverseRecOn with
  | nil => simp
  | append_singleton l e ih =>
    rw [List.foldl_append, List.foldl_cons, List.foldl_nil]
    generalize List.foldl _ none l = best at ih ⊢
    by_cases hc : e.visible = true ∧ e.covers x y = true
    · cases best with
      | none =>
        simp only [hc.1, hc.2, Bool.and_self, Option.all_none, if_true]
        refine ⟨⟨by simp, trivial⟩, trivial, fun f hf hv hfc => ?_⟩
        rcases List.mem_append.1 hf with hf | hf
        · exact absurd hfc (by simp [ih f hf hv])
        · simp at hf; subst hf; exact BitVec.le_refl _
      | some b =>
        by_cases hb : b.handle ≤ e.handle
        · simp only [hc.1, hc.2, hb, Bool.and_self, Option.all_some, decide_true, if_true]
          refine ⟨⟨by simp, trivial⟩, trivial, fun f hf hv hfc => ?_⟩
          rcases List.mem_append.1 hf with hf | hf
          · exact BitVec.le_trans (ih.2.2 f hf hv hfc) hb
          · simp at hf; subst hf; exact BitVec.le_refl _
        · simp only [hc.1, hc.2, hb, Bool.and_self, Option.all_some, decide_false, Bool.and_false,
            Bool.false_eq_true, if_false]
          refine ⟨⟨by simp [ih.1.1], ih.1.2⟩, ih.2.1, fun f hf hv hfc => ?_⟩
          rcases List.mem_append.1 hf with hf | hf
          · exact ih.2.2 f hf hv hfc
          · simp at hf; subst hf; rw [BitVec.le_def] at hb ⊢; omega
    · have hn : (e.visible && e.covers x y && best.all fun b => decide (b.handle ≤ e.handle)) = false := by
        by_cases hv : e.visible = true
        · have : e.covers x y = false := by simpa using fun h => hc ⟨hv, h⟩
          simp [this]
        · simp [Bool.eq_false_iff.2 hv]
      rw [hn]
      simp only [Bool.false_eq_true, if_false]
      cases best with
      | none =>
        intro f hf hv
        rcases List.mem_append.1 hf with hf | hf
        · exact ih f hf hv
        · simp at hf; subst hf; simpa using fun h => hc ⟨hv, h⟩
      | some b =>
        refine ⟨⟨by simp [ih.1.1], ih.1.2⟩, ih.2.1, fun f hf hv hfc => ?_⟩
        rcases List.mem_append.1 hf with hf | hf
        · exact ih.2.2 f hf hv hfc
        · simp at hf; subst hf; exact absurd ⟨hv, hfc⟩ hc

/-- With distinct handles, compositing in ascending handle order leaves the top overlay of each pixel. -/
theorem lastCover_visibleEntries {ent : List (Option Overlay)} (hd : ((ent.filterMap id).map (·.handle)).Nodup)
    (x y : Nat) : lastCover (visibleEntries ent) x y = topOverlay ent x y := by
  have h1 := lastCover_sorted (sortByHandle_sorted ((ent.filterMap id).filter (·.visible))) x y
  have h2 := topOverlay_spec ent x y
  rw [← visibleEntries] at h1
  have hm : ∀ e, e ∈ visibleEntries ent ↔ e ∈ ent.filterMap id ∧ e.visible = true := by
    intro e; rw [visibleEntries, mem_sortByHandle, List.mem_filter]
  have hinj : ∀ e ∈ ent.filterMap id, ∀ f ∈ ent.filterMap id, e.handle = f.handle → e = f :=
    fun e he f hf h => List.inj_on_of_nodup_map hd he hf h
  cases ha : lastCover (visibleEntries ent) x y with
  | none =>
    rw [ha] at h1
    cases hb : topOverlay ent x y with
    | none => rfl
    | some e =>
      rw [hb] at h2
      exact absurd h2.2.1 (by simp [h1 e ((hm e).2 h2.1)])
  | some e =>
    rw [ha] at h1
    have he := (hm e).1 h1.1
    cases hb : topOverlay ent x y with
    | none =>
      rw [hb] at h2
      exact absurd h1.2.1 (by simp [h2 e he.1 he.2])
    | some f =>
      rw [hb] at h2
      have hle1 := h1.2.2 f ((hm f).2 h2.1) h2.2.1
      have hle2 := h2.2.2 e he.1 he.2 h1.2.1
      rw [hinj e he.1 f h2.1.1 (BitVec.le_antisymm hle2 hle1)]

/-- The overlays composited: each pixel of the rows holds its top overlay's byte, and no other byte changes
(40_datapath.md R72, 45_overlay.md R120). -/
theorem overlayComposite_get? {c : Config} {ent : List (Option Overlay)}
    (hw : ∀ e ∈ ent.filterMap id, e.x.toNat + e.w.toNat ≤ c.width)
    (hd : ((ent.filterMap id).map (·.handle)).Nodup) (y1 y2 : Nat) (m : Memory) {x y : Nat} (hx : x < c.width) :
    (overlayComposite c ent y1 y2 m).get? (y * c.width + x) =
      if y1 ≤ y ∧ y < y2 then
        match topOverlay ent x y with
        | some e => some (e.pixel (x - e.x.toNat) (y - e.y.toNat))
        | none => m.get? (y * c.width + x)
      else m.get? (y * c.width + x) := by
  rw [overlayComposite, compositeEntries_get? _ _ _ _ _ hx, lastCover_visibleEntries hd]
  intro e he
  rw [visibleEntries, mem_sortByHandle] at he
  exact hw e (List.mem_filter.1 he).1

end Sys2Proof.Machine
end

