-- ==== Sys2Proof/Laws/Picture.lean ====
section
/-! SUPPORT. The indicators, the converter and the framer: what each leaves, and with the earlier stages what an update's
GRAY and TAGGED hold. -/

namespace Sys2Proof.Machine

/-! ### Indicators -/

/-- Column k of slot i's cell is panel column x exactly where x stands in cell i from the right edge, n − 1 − k columns
from that cell's right end. -/
theorem cellColumn_iff {w n i k x : Nat} (hx : x < w) (hk : k < n) :
    (w : Int) - (n : Int) * ((i : Int) + 1) + k = x ↔ (w - 1 - x) / n = i ∧ (w - 1 - x) % n = n - 1 - k := by
  have hd := Nat.div_add_mod (w - 1 - x) n
  have hm := Nat.mod_lt (w - 1 - x) (by omega : 0 < n)
  constructor
  · intro h
    have hf : w - 1 - x = n - 1 - k + n * i := by
      have h' : (w : Int) - (n * i + n) + k = x := by rw [← h]; ring
      have hn : ((n * i : Nat) : Int) = (n : Int) * i := by push_cast; ring
      rw [← hn] at h'
      omega
    rw [hf, Nat.add_mul_div_left _ _ (by omega), Nat.add_mul_mod_self_left]
    exact ⟨by rw [Nat.div_eq_of_lt (by omega)]; omega, Nat.mod_eq_of_lt (by omega)⟩
  · rintro ⟨rfl, h⟩
    rw [h] at hd
    generalize (w - 1 - x) / n = i at hd ⊢
    have hn : ((n * i : Nat) : Int) = (n : Int) * i := by push_cast; ring
    have : (w : Int) - (n : Int) * ((i : Int) + 1) + k = w - (((n * i : Nat) : Int) + n) + k := by rw [hn]; ring
    rw [this]
    omega

/-- Every column of a cell lies left of the right edge. -/
theorem cellColumn_lt {w n k : Nat} (i : Nat) (hw : 0 < w) (hk : k < n) :
    ((w : Int) - (n : Int) * ((i : Int) + 1) + k).toNat < w := by
  have : (n : Int) ≤ (n : Int) * ((i : Int) + 1) := by nlinarith
  omega

/-- One cell drawn: the GLYPH_SIZE columns that end GLYPH_SIZE·i columns from the
right edge, in rows below GLYPH_SIZE (40_datapath.md R73). -/
theorem compositeCell_get? (c : Config) (y1 y2 i : Nat) (code : Byte) (m : Memory) {x y : Nat} (hx : x < c.width) :
    (compositeCell c y1 y2 i code m).get? (y * c.width + x) =
      if y1 ≤ y ∧ y < y2 ∧ y < c.glyphSize ∧ y < c.height ∧ (c.width - 1 - x) / c.glyphSize = i then
        some (glyphSample ((glyphRow c code y).testBit ((c.width - 1 - x) % c.glyphSize)))
      else m.get? (y * c.width + x) := by
  have key := forRange_induct (a := 0) (b := c.glyphSize)
    (P := fun r (g : Memory) => g.get? (y * c.width + x) =
      if y1 ≤ y ∧ y < y2 ∧ y < r ∧ y < c.height ∧ (c.width - 1 - x) / c.glyphSize = i then
        some (glyphSample ((glyphRow c code y).testBit ((c.width - 1 - x) % c.glyphSize)))
      else m.get? (y * c.width + x))
    (f := fun r gray =>
      if r < c.height ∧ y1 ≤ r ∧ r < y2 then
        forRange 0 c.glyphSize (fun k gray =>
          let sx : Int := ((c.width : Int) - (c.glyphSize : Int) * ((i : Int) + 1)) + k
          if 0 ≤ sx then
            gray.write (r * c.width + sx.toNat) (glyphSample ((glyphRow c code r).testBit (c.glyphSize - 1 - k)))
          else gray) gray
      else gray) (x := m) (Nat.zero_le _) (by rw [if_neg (by omega)]) ?_
  · rw [compositeCell, key]
  · rintro r g - hr hg
    dsimp only
    by_cases hrow : r < c.height ∧ y1 ≤ r ∧ r < y2
    · rw [if_pos hrow]
      have inner := forRange_induct (a := 0) (b := c.glyphSize)
        (P := fun k (g' : Memory) => g'.get? (y * c.width + x) =
          if y = r ∧ (c.width - 1 - x) / c.glyphSize = i ∧ c.glyphSize - 1 - (c.width - 1 - x) % c.glyphSize < k then
            some (glyphSample ((glyphRow c code r).testBit ((c.width - 1 - x) % c.glyphSize)))
          else g.get? (y * c.width + x))
        (f := fun k gray =>
          let sx : Int := ((c.width : Int) - (c.glyphSize : Int) * ((i : Int) + 1)) + k
          if 0 ≤ sx then
            gray.write (r * c.width + sx.toNat) (glyphSample ((glyphRow c code r).testBit (c.glyphSize - 1 - k)))
          else gray) (x := g) (Nat.zero_le _) (by rw [if_neg (by omega)]) ?_
      · rw [inner, hg]
        by_cases hy : y = r
        · subst hy
          by_cases hi : (c.width - 1 - x) / c.glyphSize = i
          · rw [if_pos (by omega), if_pos (by omega)]
          · rw [if_neg (by omega), if_neg (by omega), if_neg (by omega)]
        · rw [if_neg (by omega)]
          congr 1
          apply propext
          omega
      · rintro k g' - hk hg'
        dsimp only
        have hcol := cellColumn_iff (i := i) hx hk
        have hmod := Nat.mod_lt (c.width - 1 - x) (by omega : 0 < c.glyphSize)
        have hlt := cellColumn_lt i (by omega : 0 < c.width) hk
        generalize (c.width : Int) - (c.glyphSize : Int) * ((i : Int) + 1) + k = sx at hcol hlt ⊢
        by_cases hs : 0 ≤ sx
        · rw [if_pos hs, Memory.get?_write, hg']
          by_cases ha : y * c.width + x = r * c.width + sx.toNat
          · obtain ⟨rfl, hxe⟩ := offset_inj hx hlt ha
            have hm := hcol.1 (by omega)
            rw [if_pos ha, if_pos (by omega), hm.2]
          · rw [if_neg ha]
            have hne : ¬ (y = r ∧ sx = x) := by
              rintro ⟨rfl, h⟩; exact ha (by omega)
            congr 1
            apply propext
            rw [hcol] at hne
            omega
        · rw [if_neg hs, hg']
          congr 1
          apply propext
          have hne : ¬ sx = x := by omega
          rw [hcol] at hne
          omega
    · rw [if_neg hrow, hg]
      congr 1
      apply propext
      omega

/-- The indicators composited: each pixel of the strip in an occupied slot's cell holds its glyph's bit, and no other
byte changes (40_datapath.md R73). -/
theorem indicatorComposite_get? (c : Config) (ind : Vector Byte Config.maxIndicators) (y1 y2 : Nat) (m : Memory)
    {x y : Nat} (hx : x < c.width) :
    (indicatorComposite c ind y1 y2 m).get? (y * c.width + x) =
      if y1 ≤ y ∧ y < y2 ∧ y < c.glyphSize ∧ y < c.height ∧ (c.width - 1 - x) / c.glyphSize < Config.maxIndicators ∧
          ind.toList.getD ((c.width - 1 - x) / c.glyphSize) 0 ≠ 0 then
        some (glyphSample ((glyphRow c (ind.toList.getD ((c.width - 1 - x) / c.glyphSize) 0) y).testBit
          ((c.width - 1 - x) % c.glyphSize)))
      else m.get? (y * c.width + x) := by
  refine forRange_induct (a := 0) (b := Config.maxIndicators)
    (P := fun i (g : Memory) => g.get? (y * c.width + x) =
      if y1 ≤ y ∧ y < y2 ∧ y < c.glyphSize ∧ y < c.height ∧ (c.width - 1 - x) / c.glyphSize < i ∧
          ind.toList.getD ((c.width - 1 - x) / c.glyphSize) 0 ≠ 0 then
        some (glyphSample ((glyphRow c (ind.toList.getD ((c.width - 1 - x) / c.glyphSize) 0) y).testBit
          ((c.width - 1 - x) % c.glyphSize)))
      else m.get? (y * c.width + x))
    (Nat.zero_le _) (by rw [if_neg fun h => Nat.not_lt_zero _ h.2.2.2.2.1]) ?_
  rintro i g - hi hg
  dsimp only
  by_cases hcode : ind.toList.getD i 0 ≠ 0
  · rw [if_pos hcode, compositeCell_get? _ _ _ _ _ _ hx, hg]
    by_cases hs : (c.width - 1 - x) / c.glyphSize = i
    · simp only [hs, Nat.lt_irrefl, false_and, and_false, if_false, Nat.lt_succ_self, true_and, and_true]
      congr 1
      apply propext
      tauto
    · have : (c.width - 1 - x) / c.glyphSize < i + 1 ↔ (c.width - 1 - x) / c.glyphSize < i := by omega
      simp only [hs, and_false, if_false, this]
  · rw [if_neg hcode, hg]
    by_cases hs : (c.width - 1 - x) / c.glyphSize = i
    · subst hs
      simp only [hcode, and_false, if_false]
    · have : (c.width - 1 - x) / c.glyphSize < i + 1 ↔ (c.width - 1 - x) / c.glyphSize < i := by omega
      simp only [this]

/-! ### Converter -/

/-- One round of the packing loop. -/
def orBit (b : Bool) (k : Nat) (d : Byte) : Byte := if b then d ||| (0x80#8 >>> k) else d

/-- Eight bits or-ed in from the left are the packed byte (40_datapath.md R79). -/
theorem packLoop_eq (f : Nat → Bool) :
    forRange 0 8 (fun k (d : Byte) => if f k then d ||| (0x80#8 >>> k) else d) 0#8 = packBits f := by
  have h : ∀ b0 b1 b2 b3 b4 b5 b6 b7 : Bool,
      orBit b7 7 (orBit b6 6 (orBit b5 5 (orBit b4 4 (orBit b3 3 (orBit b2 2 (orBit b1 1 (orBit b0 0 0#8))))))) =
      BitVec.ofNat 8 (b0.toNat * 128 + (b1.toNat * 64 + (b2.toNat * 32 + (b3.toNat * 16 + (b4.toNat * 8 +
        (b5.toNat * 4 + (b6.toNat * 2 + b7.toNat))))))) := by decide
  have := h (f 0) (f 1) (f 2) (f 3) (f 4) (f 5) (f 6) (f 7)
  simpa [orBit, forRange, forUp, packBits, List.range, List.range.loop] using this

/-- A payload byte (40_datapath.md R78, R79, R80). -/
theorem convertByte_eq (cs : ConvertSettings) (gray : Nat → Byte) (y j : Nat) :
    convertByte cs gray y j =
      let d := packBits fun k =>
        decide (threshold cs.cfg cs.mode cs.cutoff (8 * j + k) y ≤ gray (y * cs.cfg.width + (8 * j + k)))
      if cs.invert then d ^^^ 0xFF#8 else d := by
  have hx : ∀ d : Byte, ~~~d = d ^^^ 0xFF#8 := by decide
  have := packLoop_eq fun k =>
    decide (threshold cs.cfg cs.mode cs.cutoff (8 * j + k) y ≤ gray (y * cs.cfg.width + (8 * j + k)))
  simp only [decide_eq_true_eq] at this
  simp only [convertByte, this, hx]

/-- The payload bytes of a row. -/
def rowPayload (cs : ConvertSettings) (gray : Nat → Byte) (y : Nat) : List Byte :=
  (List.range cs.cfg.bytesPerRow).map fun j => convertByte cs gray y j

theorem rowPayload_length (cs : ConvertSettings) (gray : Nat → Byte) (y : Nat) :
    (rowPayload cs gray y).length = cs.cfg.bytesPerRow := by simp [rowPayload]

/-- One row converted: its tagged line stands at (y − y1)·S, and no other byte changes (40_datapath.md R84). -/
theorem convertRow_get? (cs : ConvertSettings) (gray : Nat → Byte) (y1 y : Nat) (m : Memory) (a : Nat) :
    (convertRow cs gray y1 y m).get? a =
      if (y - y1) * cs.cfg.stride ≤ a ∧ a < (y - y1) * cs.cfg.stride + cs.cfg.stride then
        (taggedRow y (rowPayload cs gray y))[a - (y - y1) * cs.cfg.stride]?
      else m.get? a := by
  set base := (y - y1) * cs.cfg.stride with hbase
  have hS : cs.cfg.stride = 2 + cs.cfg.bytesPerRow := rfl
  have inner := forRange_induct (a := 0) (b := cs.cfg.bytesPerRow)
    (P := fun j (g : Memory) => g.get? a =
      if base + 1 ≤ a ∧ a < base + 1 + j then some (convertByte cs gray y (a - base - 1)) else m.get? a)
    (f := fun j tagged => tagged.write (base + 1 + j) (convertByte cs gray y j)) (x := m)
    (Nat.zero_le _) (by rw [if_neg (by omega)]) ?_
  · simp only [convertRow, ← hbase, Memory.get?_write, inner]
    by_cases h0 : a = base
    · subst h0
      rw [if_neg (by omega), if_pos rfl, if_pos (by omega)]
      simp [taggedRow]
    · by_cases h1 : a = base + cs.cfg.stride - 1
      · rw [if_pos h1, if_pos (by omega)]
        obtain ⟨n, hn⟩ : ∃ n, a - base = n + 1 := ⟨a - base - 1, by omega⟩
        rw [hn, taggedRow, List.getElem?_cons_succ, List.getElem?_append_right (by rw [rowPayload_length]; omega),
          rowPayload_length, show n - cs.cfg.bytesPerRow = 0 by omega]
        rfl
      · rw [if_neg h1, if_neg h0]
        by_cases h2 : base + 1 ≤ a ∧ a < base + 1 + cs.cfg.bytesPerRow
        · rw [if_pos h2, if_pos (by omega)]
          obtain ⟨n, hn⟩ : ∃ n, a - base = n + 1 := ⟨a - base - 1, by omega⟩
          rw [hn, taggedRow, List.getElem?_cons_succ, List.getElem?_append_left (by rw [rowPayload_length]; omega),
            rowPayload, List.getElem?_map, List.getElem?_range (by omega), show n + 1 - 1 = n by omega]
          rfl
        · rw [if_neg h2, if_neg (by omega)]
  · rintro j g - hj hg
    rw [Memory.get?_write, hg]
    by_cases ha : a = base + 1 + j
    · rw [if_pos ha, if_pos (by omega)]
      congr 2; omega
    · rw [if_neg ha]
      congr 1
      apply propext
      omega

theorem taggedRow_length (y : Nat) (p : List Byte) : (taggedRow y p).length = p.length + 2 := by
  simp [taggedRow]

theorem taggedRows_append_one (y : Nat) (rows : List (List Byte)) (p : List Byte) :
    taggedRows y (rows ++ [p]) = taggedRows y rows ++ taggedRow (y + rows.length) p := by
  induction rows generalizing y with
  | nil => simp [taggedRows]
  | cons q rest ih => simp [taggedRows, ih, Nat.add_assoc, Nat.add_comm 1]

theorem taggedRows_length {y n : Nat} {rows : List (List Byte)} (h : ∀ p ∈ rows, p.length = n) :
    (taggedRows y rows).length = rows.length * (2 + n) := by
  induction rows generalizing y with
  | nil => simp [taggedRows]
  | cons q rest ih =>
    simp only [taggedRows, List.length_append, taggedRow_length, List.length_cons]
    rw [ih fun p hp => h p (by simp [hp]), h q (by simp), Nat.add_mul]
    omega

/-- The payloads of n rows from y1 on. -/
def payloadRows (cs : ConvertSettings) (gray : Nat → Byte) (y1 n : Nat) : List (List Byte) :=
  (List.range n).map fun r => rowPayload cs gray (y1 + r)

theorem payloadRows_succ (cs : ConvertSettings) (gray : Nat → Byte) (y1 n : Nat) :
    payloadRows cs gray y1 (n + 1) = payloadRows cs gray y1 n ++ [rowPayload cs gray (y1 + n)] := by
  simp [payloadRows, List.range_succ]

theorem payloadRows_length (cs : ConvertSettings) (gray : Nat → Byte) (y1 n : Nat) :
    (payloadRows cs gray y1 n).length = n := by simp [payloadRows]

theorem payloadRows_tagged_length (cs : ConvertSettings) (gray : Nat → Byte) (y1 n : Nat) :
    (taggedRows y1 (payloadRows cs gray y1 n)).length = n * cs.cfg.stride := by
  rw [taggedRows_length (n := cs.cfg.bytesPerRow), payloadRows_length]; rfl
  intro p hp
  simp only [payloadRows, List.mem_map] at hp
  obtain ⟨r, -, rfl⟩ := hp
  exact rowPayload_length _ _ _

/-- The rows converted: TAGGED holds their tagged lines one after another from offset 0, and no other byte changes
(40_datapath.md R84, 20_memory.md R49). -/
theorem convertRows_get? (cs : ConvertSettings) (gray : Nat → Byte) {y1 y2 : Nat} (h : y1 ≤ y2) (m : Memory)
    (a : Nat) :
    (convertRows cs gray y1 y2 m).get? a =
      if a < (y2 - y1) * cs.cfg.stride then (taggedRows y1 (payloadRows cs gray y1 (y2 - y1)))[a]?
      else m.get? a := by
  refine forRange_induct
    (P := fun y (g : Memory) => g.get? a =
      if a < (y - y1) * cs.cfg.stride then (taggedRows y1 (payloadRows cs gray y1 (y - y1)))[a]?
      else m.get? a) h (by simp) ?_
  intro y g hy _ hg
  have hs : y + 1 - y1 = (y - y1) + 1 := by omega
  have hm : (y + 1 - y1) * cs.cfg.stride = (y - y1) * cs.cfg.stride + cs.cfg.stride := by
    rw [hs, Nat.add_mul, Nat.one_mul]
  rw [convertRow_get?, hg, hm, hs, payloadRows_succ, taggedRows_append_one, payloadRows_length,
    show y1 + (y - y1) = y by omega]
  have hl := payloadRows_tagged_length cs gray y1 (y - y1)
  by_cases h1 : (y - y1) * cs.cfg.stride ≤ a ∧ a < (y - y1) * cs.cfg.stride + cs.cfg.stride
  · rw [if_pos h1, if_pos h1.2, List.getElem?_append_right (by omega), hl]
  · rw [if_neg h1]
    by_cases h2 : a < (y - y1) * cs.cfg.stride
    · rw [if_pos h2, if_pos (by omega), List.getElem?_append_left (by omega)]
    · rw [if_neg h2, if_neg (by omega)]

/-- What the transmitter reads back after the rows are converted is their wire form (41_transport.md R90, 30_encoding.md
R69). -/
theorem writeLinesOf_convertRows (cs : ConvertSettings) (gray free : Nat → Byte) {y1 y2 : Nat} (h : y1 ≤ y2)
    (m : Memory) :
    writeLinesOf cs.cfg ((convertRows cs gray y1 y2 m).read free) (y2 - y1) =
      writeLinesBytes cs.cfg y1 (payloadRows cs gray y1 (y2 - y1)) := by
  have hr : (List.range ((y2 - y1) * cs.cfg.stride)).map ((convertRows cs gray y1 y2 m).read free) =
      taggedRows y1 (payloadRows cs gray y1 (y2 - y1)) := by
    have hl := payloadRows_tagged_length cs gray y1 (y2 - y1)
    apply List.ext_getElem?
    intro a
    by_cases ha : a < (y2 - y1) * cs.cfg.stride
    · rw [List.getElem?_map, List.getElem?_range ha, Option.map_some, Memory.read, convertRows_get? cs gray h,
        if_pos ha, List.getElem?_eq_getElem (by omega)]
      rfl
    · rw [List.getElem?_eq_none (by simp; omega), List.getElem?_eq_none (by omega)]
  rw [writeLinesOf, hr, writeLinesBytes]

/-! ### Canonical form and bounds of the two buffers -/

/-- A byte space in canonical form inside its bound. -/
def Memory.inForm (m : Memory) (n : Nat) : Prop := m.wf = true ∧ m.below n

theorem Memory.write_inForm {m : Memory} {n a : Nat} (b : Byte) (h : m.inForm n) (ha : a < n) :
    (m.write a b).inForm n := ⟨m.write_wf a b h.1, Memory.write_below b h.2 ha⟩

theorem frameLoad_inForm (c : Config) {y1 y2 : Nat} (h2 : y2 ≤ c.height) (p : Source Byte × Memory)
    (hp : p.2.inForm (c.width * c.height)) : (frameLoad c y1 y2 p).2.inForm (c.width * c.height) := by
  refine forRange_keeps (P := fun q : Source Byte × Memory => q.2.inForm (c.width * c.height)) hp ?_
  intro y q _ hy hq
  refine forRange_keeps (P := fun q : Source Byte × Memory => q.2.inForm (c.width * c.height)) hq ?_
  intro x q _ hx hq
  exact Memory.write_inForm _ hq (offset_lt hx (by omega))

theorem compositeEntry_inForm {c : Config} {e : Overlay} (hw : e.x.toNat + e.w.toNat ≤ c.width) {y1 y2 : Nat}
    (h2 : y2 ≤ c.height) {m : Memory} (hm : m.inForm (c.width * c.height)) :
    (compositeEntry c y1 y2 e m).inForm (c.width * c.height) := by
  refine forRange_keeps (P := fun q : Memory => q.inForm (c.width * c.height)) hm ?_
  intro oy q _ hoy hq
  dsimp only
  split
  · refine forRange_keeps (P := fun q : Memory => q.inForm (c.width * c.height)) hq ?_
    intro ox q _ hox hq
    exact Memory.write_inForm _ hq (offset_lt (by omega) (by omega))
  · exact hq

theorem overlayComposite_inForm {c : Config} {ent : List (Option Overlay)}
    (hw : ∀ e ∈ ent.filterMap id, e.x.toNat + e.w.toNat ≤ c.width) {y1 y2 : Nat} (h2 : y2 ≤ c.height) {m : Memory}
    (hm : m.inForm (c.width * c.height)) : (overlayComposite c ent y1 y2 m).inForm (c.width * c.height) := by
  have hv : ∀ e ∈ visibleEntries ent, e.x.toNat + e.w.toNat ≤ c.width := fun e he => by
    rw [visibleEntries, mem_sortByHandle] at he
    exact hw e (List.mem_filter.1 he).1
  rw [overlayComposite]
  generalize visibleEntries ent = es at hv
  induction es generalizing m with
  | nil => exact hm
  | cons e rest ih =>
    exact ih (compositeEntry_inForm (hv e (by simp)) h2 hm) fun e' h => hv e' (by simp [h])

theorem indicatorComposite_inForm {c : Config} (hw : 0 < c.width) (ind : Vector Byte Config.maxIndicators)
    {y1 y2 : Nat} {m : Memory}
    (hm : m.inForm (c.width * c.height)) : (indicatorComposite c ind y1 y2 m).inForm (c.width * c.height) := by
  refine forRange_keeps (P := fun q : Memory => q.inForm (c.width * c.height)) hm ?_
  intro i q _ hi hq
  dsimp only
  split
  · refine forRange_keeps (P := fun q : Memory => q.inForm (c.width * c.height)) hq ?_
    intro r q _ hr hq
    dsimp only
    split
    · next hrow =>
      refine forRange_keeps (P := fun q : Memory => q.inForm (c.width * c.height)) hq ?_
      intro k q _ hk hq
      split
      · exact Memory.write_inForm _ hq (offset_lt (cellColumn_lt i hw hk) hrow.1)
      · exact hq
    · exact hq
  · exact hq

theorem convertRows_inForm (cs : ConvertSettings) (gray : Nat → Byte) {y1 y2 : Nat} (h2 : y2 ≤ cs.cfg.height)
    {m : Memory} (hm : m.inForm (cs.cfg.height * cs.cfg.stride)) :
    (convertRows cs gray y1 y2 m).inForm (cs.cfg.height * cs.cfg.stride) := by
  refine forRange_keeps (P := fun q : Memory => q.inForm (cs.cfg.height * cs.cfg.stride)) hm ?_
  intro y q hy1 hy hq
  have hS : cs.cfg.stride = 2 + cs.cfg.bytesPerRow := rfl
  have hb : (y - y1) * cs.cfg.stride + cs.cfg.stride ≤ cs.cfg.height * cs.cfg.stride := by
    rw [← Nat.succ_mul]
    exact Nat.mul_le_mul_right _ (by omega)
  unfold convertRow
  refine Memory.write_inForm _ (Memory.write_inForm _ (forRange_keeps
    (P := fun q : Memory => q.inForm (cs.cfg.height * cs.cfg.stride)) hq ?_) ?_) ?_
  · intro j q _ hj hq
    exact Memory.write_inForm _ hq (by omega)
  · omega
  · omega

end Sys2Proof.Machine
end

