-- ==== Sys2Proof/Laws/Transport.lean ====
section
/-! SUPPORT. What a transaction does, said once: which bytes go out, what it answers, and what it keeps. -/

namespace Sys2Proof.Machine

@[simp] theorem Io.emit_cs (e : Event) (io : Io) : (io.emit e).cs = io.cs := io.yieldTicks_ticked.cs

@[simp] theorem Io.emit_bus (e : Event) (io : Io) : (io.emit e).bus = io.bus := io.yieldTicks_ticked.bus

@[simp] theorem Io.driveCs_cs (l : Bool) (io : Io) : (io.driveCs l).cs = l := rfl

@[simp] theorem Io.driveCs_bus (l : Bool) (io : Io) : (io.driveCs l).bus = io.bus := io.yieldTicks_ticked.bus

/-! ### The outcome of the bus -/

theorem busRefusal_zero (bus : Source Bool) :
    busRefusal bus 0 = if bus.peek Config.freeBus 0 then none else some 0 := by
  cases h : bus.peek Config.freeBus 0 <;> simp [busRefusal, h]

theorem busRefusal_succ (bus : Source Bool) (n : Nat) :
    busRefusal bus (n + 1) =
      if bus.peek Config.freeBus 0 then (busRefusal (bus.skip 1) n).map (· + 1) else some 0 := by
  rw [busRefusal, List.range_succ_eq_map, List.find?_cons]
  cases h : bus.peek Config.freeBus 0 with
  | false => simp
  | true =>
    simp only [Bool.not_true, List.find?_map]
    have : ((fun k => !bus.peek Config.freeBus k) ∘ Nat.succ) =
        fun k => !(bus.skip 1).peek Config.freeBus k := by
      funext k; simp [Source.peek_skip, Nat.add_comm]
    rw [this]
    simp [busRefusal]

/-- A refusal falls on one of the bytes or on the end. -/
theorem busRefusal_le {bus : Source Bool} {n k : Nat} (h : busRefusal bus n = some k) : k ≤ n := by
  have := List.mem_of_find?_eq_some h
  simp at this
  omega

/-- A bus that answers no error refuses nothing. -/
theorem busRefusal_of_accepts {bus : Source Bool} (h : ∀ k, bus.peek Config.freeBus k = true) (n : Nat) :
    busRefusal bus n = none := by
  simp [busRefusal, h]

/-- Everything `sendBytes` does (41_transport.md R86, R88): its answer, the answers of the bus it has drawn, and the
events it emits. -/
theorem Io.sendBytes_spec (bytes : List Byte) (io : Io) :
    let r := io.sendBytes bytes
    let refusal := busRefusal io.bus bytes.length
    r.2 = refusal.isNone ∧
      (io.wired (io.bus.skip (refusal.getD bytes.length + 1)) io.cs).Emits
        ((bytes.take (refusal.getD bytes.length)).map Event.spi ++ if refusal.isSome then [.spiFail] else []) r.1 := by
  have hask : ∀ io : Io, ({ io with bus := io.bus.skip 1 } : Io) = io.wired (io.bus.skip 1) io.cs := fun _ => rfl
  induction bytes generalizing io with
  | nil =>
    cases h : io.bus.peek Config.freeBus 0 with
    | true => simp [Io.sendBytes, Io.askBus, h, busRefusal_zero, hask, Io.Emits.nil]
    | false => simp [Io.sendBytes, Io.askBus, h, busRefusal_zero, hask, Io.emit_emits]
  | cons b rest ih =>
    cases h : io.bus.peek Config.freeBus 0 with
    | false => simp [Io.sendBytes, Io.askBus, h, busRefusal_succ, hask, Io.emit_emits]
    | true =>
      obtain ⟨h1, h2⟩ := ih ((io.wired (io.bus.skip 1) io.cs).emit (.spi b))
      have h3 := ((io.wired (io.bus.skip 1) io.cs).emit_emits (.spi b)).append_wired h2
      simp only [Io.emit_bus, Io.emit_cs, Io.wired_bus, Io.wired_cs, Io.wired_wired, Source.skip_skip] at h1 h3
      simp only [Io.sendBytes, Io.askBus, Source.draw_fst, Source.draw_snd, h, if_true, List.length_cons,
        busRefusal_succ, hask]
      refine ⟨?_, ?_⟩
      · rw [h1]; cases busRefusal (io.bus.skip 1) rest.length <;> rfl
      · rw [show 1 + (Option.getD (busRefusal (io.bus.skip 1) rest.length) rest.length + 1) =
          (Option.map (· + 1) (busRefusal (io.bus.skip 1) rest.length)).getD (rest.length + 1) + 1 by
            cases busRefusal (io.bus.skip 1) rest.length <;> simp [Nat.add_comm]] at h3
        cases hb : busRefusal (io.bus.skip 1) rest.length <;> simpa [hb] using h3

/-- Everything a transaction does (41_transport.md R86): its answer, the answers of the bus it has drawn, the chip
select at 0, and the events it emits. -/
theorem Io.transaction_spec (c : Config) (bytes : List Byte) (io : Io) :
    let r := io.transaction c bytes
    let refusal := busRefusal io.bus bytes.length
    r.2 = refusal.isNone ∧
      (io.sent (refusal.getD bytes.length + 1)).Emits (transactionEvents c bytes refusal) r.1 := by
  obtain ⟨h1, h2⟩ := Io.sendBytes_spec bytes ((io.driveCs true).emit (.wait .csSetup c.csSetupTime))
  have hopen := (Io.driveCs_emits true io).append (Io.emit_emits (.wait .csSetup c.csSetupTime) _)
  have hhold := (hopen.append_wired h2).append (Io.emit_emits (.wait .csHold c.csHoldTime) _)
  have hall := hhold.append_wired (Io.driveCs_emits false _)
  rw [hhold.emitted.bus] at hall
  simp only [Io.emit_bus, Io.driveCs_bus, Io.wired_wired, Io.wired_bus] at h1 hall
  refine ⟨h1, ?_⟩
  simp only [List.append_assoc, List.cons_append, List.nil_append] at hall
  simp only [transactionEvents, List.append_assoc, List.cons_append, List.nil_append]
  exact hall

/-- None of a transaction's own events is on the VCOM pin. -/
theorem withoutVcom_transactionEvents (c : Config) (bytes : List Byte) (refusal : Option Nat) :
    withoutVcom (transactionEvents c bytes refusal) = transactionEvents c bytes refusal := by
  have hb : ∀ l : List Byte, withoutVcom (l.map Event.spi) = l.map Event.spi := by
    intro l; simp [withoutVcom, Event.onVcom]
  cases refusal <;> simp [transactionEvents, -List.map_take, hb]

end Sys2Proof.Machine
end

