-- ==== Sys2Proof/Laws/Commands.lean ====
section
/-! SUPPORT. The update and the command cycle: what each does, said once. -/

namespace Sys2Proof.Machine

/-! ### The command cycle -/

/-- A command that passes the FAULT check runs its rule and finishes (42_update.md R93). -/
theorem commandCycle_runs {i : Instr} {s : State} (h : s.fault = false ∨ runsWhileFaulted i = true)
    (rule : State → State × Reply) :
    commandCycle i rule s =
      finish (rule { s with phase := .busy (some i) }).2 (rule { s with phase := .busy (some i) }).1 := by
  have : (s.fault && !runsWhileFaulted i) = false := by rcases h with h | h <;> simp [h]
  simp [commandCycle, this]

/-- A command that FAULT turns away only finishes (60_exceptions.md R123). -/
theorem commandCycle_faulted {i : Instr} {s : State} (hf : s.fault = true) (hi : runsWhileFaulted i = false)
    (rule : State → State × Reply) :
    commandCycle i rule s = finish (.error .preconditionFault) { s with phase := .busy (some i) } := by
  simp [commandCycle, hf, hi]

/-- The two ways a command can go. -/
theorem commandCycle_cases (i : Instr) (rule : State → State × Reply) (s : State) :
    (s.fault = true ∧ runsWhileFaulted i = false ∧
      commandCycle i rule s = finish (.error .preconditionFault) { s with phase := .busy (some i) }) ∨
    ((s.fault = false ∨ runsWhileFaulted i = true) ∧
      commandCycle i rule s =
        finish (rule { s with phase := .busy (some i) }).2 (rule { s with phase := .busy (some i) }).1) := by
  by_cases h : s.fault = false ∨ runsWhileFaulted i = true
  · exact .inr ⟨h, commandCycle_runs h rule⟩
  · simp only [not_or, Bool.not_eq_false, Bool.not_eq_true] at h
    exact .inl ⟨h.1, h.2, commandCycle_faulted h.1 h.2 rule⟩

/-! ### The update -/

/-- An update outside Active (42_update.md R96). -/
theorem update_skipped {s : State} (h : s.pstate ≠ .active) (y1 y2 : Nat) : update y1 y2 s = (s, .okSkipped) := by
  simp [update, h]

/-- An update of no rows in Active (42_update.md R95). -/
theorem update_empty {s : State} (h : s.pstate = .active) (y : Nat) : update y y s = (s, .ok) := by
  simp [update, h]

/-- The bytes an update has TAGGED ready to send. -/
def readyBytes (s : State) (y1 y2 : Nat) : List Byte :=
  let c := convert y1 y2 (composite y1 y2 s)
  writeLinesOf c.cfg c.taggedAt (y2 - y1)

/-- Everything an update in Active with at least one row does (42_update.md R95, R98). -/
theorem update_spec {s : State} (hact : s.pstate = .active) {y1 y2 : Nat} (hlt : y1 < y2) :
    let refusal := busRefusal s.io.bus (readyBytes s y1 y2).length
    ∃ io',
      update y1 y2 s =
        ({ s with
            frame := s.frame.skip ((y2 - y1) * s.cfg.width)
            gray := (composite y1 y2 s).gray
            tagged := (convert y1 y2 (composite y1 y2 s)).tagged
            io := io' },
          ⟨if refusal.isSome then .transportError else .ok, false, 0⟩) ∧
      (s.io.sent (refusal.getD (readyBytes s y1 y2).length + 1)).Emits
        (.frameRead y1 y2 :: transactionEvents s.cfg (readyBytes s y1 y2) refusal) io' := by
  obtain ⟨h1, h2⟩ := Io.transaction_spec s.cfg (readyBytes s y1 y2) (s.io.emit (.frameRead y1 y2))
  rw [Io.emit_bus] at h1 h2
  refine ⟨_, ?_, (s.io.emit_emits (.frameRead y1 y2)).append_sent h2⟩
  · have hu : update y1 y2 s = transmit (y2 - y1) (convert y1 y2 (composite y1 y2 s)) := by
      simp [update, hact, Nat.ne_of_lt hlt]
    have hf : (composite y1 y2 s).frame = s.frame.skip ((y2 - y1) * s.cfg.width) :=
      (frameLoad_spec s.cfg (Nat.le_of_lt hlt) (s.frame, s.gray)).1
    have hr : (Io.writeLines s.cfg (convert y1 y2 (composite y1 y2 s)).taggedAt (y2 - y1)
        (s.io.emit (.frameRead y1 y2))) =
        Io.transaction s.cfg (readyBytes s y1 y2) (s.io.emit (.frameRead y1 y2)) := rfl
    rw [hu, ← hf]
    refine Prod.ext rfl ?_
    show (if (Io.transaction s.cfg (readyBytes s y1 y2) (s.io.emit (.frameRead y1 y2))).2 = true
      then Reply.ok else .error .transportError) = _
    rw [h1]
    cases busRefusal s.io.bus (readyBytes s y1 y2).length <;> rfl

/-- What every update keeps, whatever the power state and the rows: all but FRAME's draws, GRAY, TAGGED and the pins. -/
theorem update_frame (s : State) (y1 y2 : Nat) :
    (update y1 y2 s).1 = { s with
      frame := (update y1 y2 s).1.frame
      gray := (update y1 y2 s).1.gray
      tagged := (update y1 y2 s).1.tagged
      io := (update y1 y2 s).1.io } := by
  unfold update
  split
  · rfl
  · split
    · rfl
    · rfl

/-! ### The picture -/

/-- What the picture needs of a state: a configuration that R8 admits, and a registry whose entries fit and have
distinct handles. -/
structure PictureReady (s : State) : Prop where
  config : s.cfg.ok = true
  fit : ∀ e ∈ s.liveEntries, e.fits s.cfg
  distinct : (s.liveEntries.map (·.handle)).Nodup

theorem Inv.pictureReady {s : State} (h : Inv s) : PictureReady s := ⟨h.config, h.entriesFit, h.handlesDistinct⟩

/-- The constraints of R8, as facts. -/
theorem Config.ok_iff (c : Config) : c.ok = true ↔
    8 ≤ c.width ∧ c.width ≤ 65528 ∧ c.width % 8 = 0 ∧ 1 ≤ c.height ∧ c.height ≤ 255 ∧ 1 ≤ c.maxOverlays ∧
      1 ≤ c.glyphSize ∧ 1 ≤ c.stripRows := by
  simp [Config.ok, and_assoc]

/-- After compositing, the GRAY bytes of the rows are the picture (40_datapath.md R70 to R75). -/
theorem composite_grayAt {s : State} (h : PictureReady s) {x y y1 y2 : Nat} (hx : x < s.cfg.width)
    (h2 : y2 ≤ s.cfg.height) (hy1 : y1 ≤ y) (hy2 : y < y2) :
    (composite y1 y2 s).grayAt (y * s.cfg.width + x) = s.pictureByte y1 x y := by
  have hsub : (y - y1) * s.cfg.width = y * s.cfg.width - y1 * s.cfg.width := Nat.sub_mul _ _ _
  have hle : y1 * s.cfg.width ≤ y * s.cfg.width := Nat.mul_le_mul_right _ hy1
  have hlt : y * s.cfg.width + s.cfg.width ≤ y2 * s.cfg.width := by
    rw [← Nat.succ_mul]; exact Nat.mul_le_mul_right _ hy2
  have hload : (frameLoad s.cfg y1 y2 (s.frame, s.gray)).2.get? (y * s.cfg.width + x) =
      some (s.sampleAt y1 x y) := by
    rw [(frameLoad_spec s.cfg (by omega) (s.frame, s.gray)).2, if_pos (by omega), State.sampleAt, hsub]
    congr 2; omega
  have hfit : ∀ e ∈ s.ent.filterMap id, e.x.toNat + e.w.toNat ≤ s.cfg.width := fun e he => (h.fit e he).2.1
  have hover : (if s.cfg.overlaysEnabled then
      overlayComposite s.cfg s.ent y1 y2 (frameLoad s.cfg y1 y2 (s.frame, s.gray)).2
      else (frameLoad s.cfg y1 y2 (s.frame, s.gray)).2).get? (y * s.cfg.width + x) =
      some ((s.overlayByte x y).getD (s.sampleAt y1 x y)) := by
    by_cases ho : s.cfg.overlaysEnabled = true
    · rw [if_pos ho, overlayComposite_get? hfit h.distinct _ _ _ hx, if_pos ⟨hy1, hy2⟩, State.overlayByte, if_pos ho]
      cases topOverlay s.ent x y with
      | none => simpa using hload
      | some e => rfl
    · rw [if_neg ho, hload, State.overlayByte, if_neg ho]; rfl
  have hind : (composite y1 y2 s).gray.get? (y * s.cfg.width + x) = some (s.pictureByte y1 x y) := by
    show (if s.cfg.indicatorsEnabled then _ else _ : Memory).get? _ = _
    rw [State.pictureByte, State.indicatorByte]
    by_cases hi : s.cfg.indicatorsEnabled = true
    · rw [if_pos hi, indicatorComposite_get? _ _ _ _ _ hx, hover]
      simp only [hi, hy1, hy2, true_and, show y < s.cfg.height by omega]
      split
      · rfl
      · rfl
    · rw [if_neg hi, hover]
      simp [hi]
  rw [State.grayAt, Memory.read, hind]
  rfl

/-- Compositing leaves the GRAY bytes of the other rows alone (40_datapath.md R71 to R73). -/
theorem composite_grayAt_other {s : State} (h : PictureReady s) {x y y1 y2 : Nat} (hx : x < s.cfg.width)
    (h12 : y1 ≤ y2) (hy : ¬ (y1 ≤ y ∧ y < y2)) :
    (composite y1 y2 s).grayAt (y * s.cfg.width + x) = s.grayAt (y * s.cfg.width + x) := by
  have hload : (frameLoad s.cfg y1 y2 (s.frame, s.gray)).2.get? (y * s.cfg.width + x) =
      s.gray.get? (y * s.cfg.width + x) := by
    rw [(frameLoad_spec s.cfg h12 (s.frame, s.gray)).2, if_neg]
    rintro ⟨ha, hb⟩
    apply hy
    constructor
    · by_contra hc
      have : (y + 1) * s.cfg.width ≤ y1 * s.cfg.width := Nat.mul_le_mul_right _ (by omega)
      rw [Nat.add_mul] at this
      omega
    · by_contra hc
      have : y2 * s.cfg.width ≤ y * s.cfg.width := Nat.mul_le_mul_right _ (by omega)
      omega
  have hfit : ∀ e ∈ s.ent.filterMap id, e.x.toNat + e.w.toNat ≤ s.cfg.width := fun e he => (h.fit e he).2.1
  have hget : (composite y1 y2 s).gray.get? (y * s.cfg.width + x) = s.gray.get? (y * s.cfg.width + x) := by
    show (if s.cfg.indicatorsEnabled then _ else _ : Memory).get? _ = _
    have hover : (if s.cfg.overlaysEnabled then
        overlayComposite s.cfg s.ent y1 y2 (frameLoad s.cfg y1 y2 (s.frame, s.gray)).2
        else (frameLoad s.cfg y1 y2 (s.frame, s.gray)).2).get? (y * s.cfg.width + x) =
        s.gray.get? (y * s.cfg.width + x) := by
      split
      · rw [overlayComposite_get? hfit h.distinct _ _ _ hx, if_neg hy, hload]
      · exact hload
    split
    · rw [indicatorComposite_get? _ _ _ _ _ hx, if_neg (by tauto), hover]
    · exact hover
  rw [State.grayAt, Memory.read, hget]
  rfl

/-- The payloads that conversion leaves are those of the picture (40_datapath.md R78 to R80, R84). -/
theorem payloadRows_composite {s : State} (h : PictureReady s) {y1 y2 : Nat} (h12 : y1 ≤ y2) (h2 : y2 ≤ s.cfg.height) :
    payloadRows (composite y1 y2 s).convertSettings (composite y1 y2 s).grayAt y1 (y2 - y1) = s.pictureRows y1 y2 := by
  have hw := ((Config.ok_iff s.cfg).1 h.config).2.2.1
  apply List.map_congr_left
  intro r hr
  rw [List.mem_range] at hr
  apply List.map_congr_left
  intro j hj
  rw [List.mem_range] at hj
  rw [convertByte_eq]
  have hj' : 8 * j + 8 ≤ s.cfg.width := by
    have hb : (composite y1 y2 s).convertSettings.cfg.bytesPerRow = s.cfg.width / 8 := rfl
    rw [hb] at hj
    omega
  have hbits : ∀ k < 8, (composite y1 y2 s).grayAt ((y1 + r) * s.cfg.width + (8 * j + k)) =
      s.pictureByte y1 (8 * j + k) (y1 + r) := fun k hk =>
    composite_grayAt h (by omega) h2 (by omega) (by omega)
  have hpack : ∀ f g : Nat → Bool, (∀ k < 8, f k = g k) → packBits f = packBits g := by
    intro f g hfg
    rw [packBits, packBits]
    congr 2
    apply List.map_congr_left
    intro k hk
    rw [hfg k (List.mem_range.1 hk)]
  have := hpack
    (fun k => decide (threshold s.cfg s.ditherMode s.cutoff (8 * j + k) (y1 + r) ≤
      (composite y1 y2 s).grayAt ((y1 + r) * s.cfg.width + (8 * j + k))))
    (fun k => decide (threshold s.cfg s.ditherMode s.cutoff (8 * j + k) (y1 + r) ≤
      s.pictureByte y1 (8 * j + k) (y1 + r)))
    fun k hk => by rw [hbits k hk]
  show (if s.invert = true then _ else _) = (if s.invert = true then _ else _)
  rw [← this]
  rfl

/-- The bytes an update has ready are the wire form of the picture (30_encoding.md R69). -/
theorem readyBytes_eq {s : State} (h : PictureReady s) {y1 y2 : Nat} (h12 : y1 ≤ y2) (h2 : y2 ≤ s.cfg.height) :
    readyBytes s y1 y2 = s.updateBytes y1 y2 := by
  rw [readyBytes, State.updateBytes, ← payloadRows_composite h h12 h2]
  exact writeLinesOf_convertRows (composite y1 y2 s).convertSettings (composite y1 y2 s).grayAt
    (Config.freeTagged s.resets) h12 (composite y1 y2 s).tagged

/-! ### What a command leaves on the pins -/

/-- The end of a command, from any phase. -/
theorem finish_ended (r : Reply) (s : State) (p : Phase) :
    finish r { s with phase := p } = s.ended r (s.io.emit (.result r.code)) := rfl

/-- A command that changes no pin ends quietly. -/
theorem finish_quiet (r : Reply) (s : State) (p : Phase) :
    ∃ io, finish r { s with phase := p } = s.ended r io ∧ s.io.Emits [.result r.code] io :=
  ⟨_, rfl, s.io.emit_emits _⟩

/-- GRAY and TAGGED after the rows [y1, y2) are composited and converted (40_datapath.md R71 to R73, R84). -/
theorem buffersUpdated {s : State} (hp : PictureReady s) {y1 y2 : Nat} (h12 : y1 ≤ y2) (h2 : y2 ≤ s.cfg.height) :
    BuffersUpdated s y1 y2 (composite y1 y2 s).gray (convert y1 y2 (composite y1 y2 s)).tagged := by
  have hw := (Config.ok_iff s.cfg).1 hp.config
  have hpos : 0 < s.cfg.width := by omega
  have htag : ∀ a, (convert y1 y2 (composite y1 y2 s)).tagged.get? a =
      if a < (y2 - y1) * s.cfg.stride then (taggedRows y1 (s.pictureRows y1 y2))[a]? else s.tagged.get? a := by
    intro a
    rw [← payloadRows_composite hp h12 h2]
    exact convertRows_get? (composite y1 y2 s).convertSettings (composite y1 y2 s).grayAt h12 s.tagged a
  have hlen : (taggedRows y1 (s.pictureRows y1 y2)).length = (y2 - y1) * s.cfg.stride := by
    rw [← payloadRows_composite hp h12 h2]
    exact payloadRows_tagged_length (composite y1 y2 s).convertSettings _ y1 (y2 - y1)
  refine ⟨fun x y hx hy1 hy2 => composite_grayAt hp hx h2 hy1 hy2, fun a ha => ?_, fun a ha => ?_, fun a ha => ?_⟩
  · have := composite_grayAt_other hp (x := a % s.cfg.width) (y := a / s.cfg.width) (Nat.mod_lt _ hpos) h12 fun hc =>
      ha ⟨(Nat.mul_le_mul_right _ hc.1).trans (Nat.div_mul_le_self _ _), (Nat.div_lt_iff_lt_mul hpos).1 hc.2⟩
    rwa [Nat.mul_comm, Nat.div_add_mod] at this
  · rw [Memory.read, htag, if_pos ha, List.getElem?_eq_getElem (by omega), List.getD_eq_getElem _ _ (by omega)]
    rfl
  · rw [Memory.read, htag, if_neg (by omega)]
    rfl

/-- Everything a command does whose rule ends with an update of at least one row in Active, from what it has stored
(42_update.md R93, R95, R98). -/
theorem finish_update {s : State} (hp : PictureReady s) (hact : s.pstate = .active) {y1 y2 : Nat} (hlt : y1 < y2)
    (h2 : y2 ≤ s.cfg.height) (p : Phase) :
    let n := (s.updateBytes y1 y2).length
    let out := update y1 y2 { s with phase := p }
    ∃ gray tagged io,
      finish out.2 out.1 = (s.drawn y1 y2 gray tagged).ended ⟨s.busCode n, false, 0⟩ io ∧
        BuffersUpdated s y1 y2 gray tagged ∧
        (s.io.sent ((busRefusal s.io.bus n).getD n + 1)).Emits (s.updateEvents y1 y2) io := by
  obtain ⟨io', hu, he⟩ := update_spec (s := { s with phase := p }) hact hlt
  have hr : readyBytes { s with phase := p } y1 y2 = s.updateBytes y1 y2 :=
    readyBytes_eq (s := { s with phase := p }) ⟨hp.config, hp.fit, hp.distinct⟩ (by omega) h2
  rw [hr] at hu he
  refine ⟨_, _, io'.emit (.result (s.busCode (s.updateBytes y1 y2).length)), ?_, buffersUpdated hp (by omega) h2,
    he.append (io'.emit_emits _)⟩
  simp only [hu]
  rfl

/-- A command whose rule changes only what it stores ends quietly. -/
theorem endsQuietly_of_rule {i : Instr} {s stored : State} {r : Reply} (rule : State → State × Reply)
    (he : exec i s = .next (commandCycle i rule s)) (hf : s.fault = false ∨ runsWhileFaulted i = true)
    (hr : rule { s with phase := .busy (some i) } = ({ stored with phase := .busy (some i) }, r)) :
    EndsQuietly i s stored r := by
  obtain ⟨io, h1, h2⟩ := finish_quiet r stored (.busy (some i))
  exact ⟨io, by rw [he, commandCycle_runs hf, hr, h1], h2⟩

/-- A command that FAULT turns away ends quietly (60_exceptions.md R123). -/
theorem endsQuietly_of_fault {i : Instr} {s : State} (rule : State → State × Reply)
    (he : exec i s = .next (commandCycle i rule s)) (hf : s.fault = true) (hi : runsWhileFaulted i = false) :
    EndsQuietly i s s (.error .preconditionFault) := by
  obtain ⟨io, h1, h2⟩ := finish_quiet (.error .preconditionFault) s (.busy (some i))
  exact ⟨io, by rw [he, commandCycle_faulted hf hi, h1], h2⟩

/-- A command whose rule ends with an update of what it has stored runs that update. -/
theorem updateRuns_of_rule {i : Instr} {s stored : State} {y1 y2 : Nat} (rule : State → State × Reply)
    (he : exec i s = .next (commandCycle i rule s)) (hf : s.fault = false)
    (hr : rule { s with phase := .busy (some i) } = update y1 y2 { stored with phase := .busy (some i) })
    (hp : PictureReady stored) (hact : stored.pstate = .active) (hlt : y1 < y2)
    (h2 : y2 ≤ stored.cfg.height) : UpdateRuns i s stored y1 y2 := by
  obtain ⟨g, t, io, h1, h2', h3⟩ := finish_update hp hact hlt h2 (.busy (some i))
  exact ⟨g, t, io, by rw [he, commandCycle_runs (.inl hf), hr, h1], h2', h3⟩

end Sys2Proof.Machine
end

