-- ==== Sys2Proof/Laws/PerInstr.lean ====
section
/-! SUPPORT. Statements about every instruction as syntax, one lemma a constructor. -/

namespace Sys2Proof.Laws.EncodeLength

/-- The words of a packet, or the bytes of a wire form. -/
def deliverySize : Delivery → Nat
  | .packet ws => ws.length
  | .wire bs => bs.length

/-- The length that 30_encoding.md R59 and R69 give an instruction: words for a command, bytes for a wire form. -/
def expected (c : Config) : Instr → Nat
  | .enable => 1
  | .disable => 1
  | .damage _ _ _ _ => 3
  | .refresh => 1
  | .setInvert _ => 1
  | .setDither _ => 1
  | .setCutoff _ => 1
  | .setIndicator _ _ => 1
  | .ovlAdd _ _ w h _ => 3 + pixelWords (w.toNat * h.toNat)
  | .ovlRemove _ => 2
  | .ovlShow _ => 2
  | .ovlHide _ => 2
  | .ovlClear => 1
  | .wireClear => 2
  | .wireWriteLines _ rows => 1 + rows.length * c.stride + c.finalTrailerBytes

/-- The encoding of a well-formed instruction has the length of its format. -/
def Statement (i : Instr) : Prop := ∀ c : Config, i.wf c = true → deliverySize (encode c i) = expected c i

theorem packPixels_length (pix : List Byte) : (packPixels pix).length = pixelWords pix.length := by
  induction pix using packPixels.induct with
  | case1 => rfl
  | case2 => simp [packPixels, pixelWords]
  | case3 => simp [packPixels, pixelWords]
  | case4 => simp [packPixels, pixelWords]
  | case5 a b c d rest ih => simp only [packPixels, List.length_cons, ih, pixelWords]; omega

theorem taggedRows_size {n : Nat} {rows : List (List Byte)} (h : ∀ p ∈ rows, p.length = n) (y : Nat) :
    (taggedRows y rows).length = rows.length * (2 + n) := by
  induction rows generalizing y with
  | nil => simp [taggedRows]
  | cons p rest ih =>
    simp only [taggedRows, taggedRow, List.length_append, List.length_cons, List.length_nil,
      ih fun q hq => h q (by simp [hq]), h p (by simp), Nat.add_mul]
    omega

theorem enable : Statement .enable := fun _ _ => rfl
theorem disable : Statement .disable := fun _ _ => rfl
theorem damage (x1 x2 y1 y2 : Half) : Statement (.damage x1 x2 y1 y2) := fun _ _ => rfl
theorem refresh : Statement .refresh := fun _ _ => rfl
theorem setInvert (v : Bool) : Statement (.setInvert v) := fun _ _ => rfl
theorem setDither (mode : DitherMode) : Statement (.setDither mode) := fun _ _ => rfl
theorem setCutoff (v : Byte) : Statement (.setCutoff v) := fun _ _ => rfl
theorem setIndicator (idx g : Byte) : Statement (.setIndicator idx g) := fun _ _ => rfl
theorem ovlRemove (handle : Word) : Statement (.ovlRemove handle) := fun _ _ => rfl
theorem ovlShow (handle : Word) : Statement (.ovlShow handle) := fun _ _ => rfl
theorem ovlHide (handle : Word) : Statement (.ovlHide handle) := fun _ _ => rfl
theorem ovlClear : Statement .ovlClear := fun _ _ => rfl
theorem wireClear : Statement .wireClear := fun _ _ => rfl

theorem ovlAdd (x y w h : Half) (pix : List Byte) : Statement (.ovlAdd x y w h pix) := by
  intro c hw
  have hp : pix.length = w.toNat * h.toNat := by simpa [Instr.wf, Instr.pixelsFit] using hw
  simp [deliverySize, encode, expected, packPixels_length, hp]
  omega

theorem wireWriteLines (y1 : Byte) (rows : List (List Byte)) : Statement (.wireWriteLines y1 rows) := by
  intro c hw
  have hp : ∀ p ∈ rows, p.length = c.bytesPerRow := by
    have : (Instr.someRow rows && Instr.payloadsFit c rows && Instr.rowsOnPanel c y1 rows) = true := hw
    simp only [Bool.and_eq_true, Instr.payloadsFit, List.all_eq_true, decide_eq_true_eq] at this
    exact this.1.2
  simp [deliverySize, encode, expected, writeLinesBytes, taggedRows_size hp, Config.stride]
  omega

end Sys2Proof.Laws.EncodeLength
end

