-- ==== Sys2Proof/Laws/Pins.lean ====
section
/-! SUPPORT. What instructions and steps can do to the pins, as one induction: a relation that ticks, events and register
writes keep is kept by every instruction and every step but a reset. -/

namespace Sys2Proof.Machine

/-- A relation between pins that ticks, events off the VCOM pin, and writes off the VCOM state keep. -/
structure PinRel (P : Io → Io → Prop) : Prop where
  refl : ∀ io, P io io
  trans : ∀ {a b c}, P a b → P b c → P a c
  tick : ∀ io, P io io.tick
  log : ∀ e io, e.onVcom = false → P io (io.log e)
  other : ∀ io io', io'.vcom = io.vcom → io'.trace = io.trace → P io io'

/-- One that VCOM driven low with its event, and the timer's start and stop, keep too: what ENABLE and DISABLE do
(43_power_vcom.md R103, R104). -/
structure PowerRel (P : Io → Io → Prop) : Prop extends PinRel P where
  low : ∀ io : Io, P io (Io.log (.gpioVcom false) { io with vcom := { io.vcom with out := false, toggle := false } })
  timer : ∀ (io : Io) running lock, P io { io with vcom := { io.vcom with running := running, lock := lock } }

variable {P : Io → Io → Prop}

namespace PinRel

theorem ticksDone (h : PinRel P) (n : Nat) (io : Io) : P io (io.ticksDone n) := by
  induction n generalizing io with
  | zero => exact h.refl io
  | succ n ih => exact h.trans (h.tick io) (ih io.tick)

theorem yieldTicks (h : PinRel P) (io : Io) : P io io.yieldTicks := by
  obtain ⟨n, ticks, he⟩ := io.yieldTicks_eq
  rw [he]
  exact h.trans (h.ticksDone n io) (h.other _ _ rfl rfl)

theorem idle (h : PinRel P) (io : Io) : P io io.idle := h.trans (h.tick io) (h.yieldTicks io.tick)

/-- Events off the VCOM pin, with ticks between them. -/
theorem emits (h : PinRel P) {a b : Io} {evs : List Event} (he : a.Emits evs b) (hv : withoutVcom evs = evs) : P a b := by
  obtain ⟨counts, ticks, hl, -, rfl⟩ := he
  refine h.trans ?_ (h.other (Io.ticking (counts.zip evs) a) _ rfl rfl)
  have hv' : ∀ e ∈ evs, e.onVcom = false := by
    intro e he
    rw [← hv] at he
    simpa using (List.mem_filter.1 he).2
  clear hv
  induction evs generalizing a counts with
  | nil => simpa [Io.ticking] using h.refl a
  | cons e rest ih =>
    cases counts with
    | nil => simp at hl
    | cons n ns =>
      exact h.trans (h.ticksDone n a) (h.trans (h.log e _ (hv' e (by simp)))
        (ih ns (by simpa using hl) fun e' he' => hv' e' (by simp [he'])))

theorem emit (h : PinRel P) {e : Event} (he : e.onVcom = false) (io : Io) : P io (io.emit e) :=
  h.trans (h.yieldTicks io) (h.log e _ he)

theorem transaction (h : PinRel P) (c : Config) (bytes : List Byte) (io : Io) : P io (io.transaction c bytes).1 :=
  h.trans (h.other io (io.sent _) rfl rfl)
    (h.emits (Io.transaction_spec c bytes io).2 (withoutVcom_transactionEvents _ _ _))

theorem driveDisp (h : PinRel P) (l : Bool) (io : Io) : P io (io.driveDisp l) :=
  h.trans (h.yieldTicks io) (h.trans (h.other _ { io.yieldTicks with disp := l } rfl rfl) (h.log _ _ rfl))

theorem update (h : PinRel P) (y1 y2 : Nat) (s : State) : P s.io (update y1 y2 s).1.io := by
  unfold Machine.update
  split
  · exact h.refl _
  · split
    · exact h.refl _
    · exact h.trans (h.emit rfl _) (h.transaction _ _ _)

theorem finish (h : PinRel P) (r : Reply) (s : State) : P s.io (finish r s).io := h.emit rfl _

theorem commandCycle (h : PinRel P) {i : Instr} {rule : State → State × Reply} {s : State}
    (hr : ∀ s' : State, s'.io = s.io → s'.pstate = s.pstate → P s'.io (rule s').1.io) :
    P s.io (commandCycle i rule s).io := by
  rcases commandCycle_cases i rule s with ⟨-, -, he⟩ | ⟨-, he⟩ <;> rw [he]
  · exact h.finish _ { s with phase := .busy (some i) }
  · exact h.trans (hr { s with phase := .busy (some i) } rfl rfl) (h.finish _ _)

theorem setVisible (h : PinRel P) (v : Bool) (handle : Word) (s : State) : P s.io (setVisible v handle s).1.io := by
  unfold Machine.setVisible
  split
  · exact h.refl _
  · exact h.update _ _ (s.updateEntry handle _)

/-- Every instruction that moves no power state keeps the relation. -/
theorem exec (h : PinRel P) {i : Instr} {s t : State} (hon : i = .enable → s.pstate ≠ .off)
    (hoff : i = .disable → s.pstate ≠ .active) (he : exec i s = .next t) : P s.io t.io := by
  cases i with
  | enable =>
    obtain rfl := Host.Outcome.next.inj he
    exact h.commandCycle fun s' _ hp => by simpa [enableRule, hp, hon rfl, raise] using h.refl _
  | disable =>
    obtain rfl := Host.Outcome.next.inj he
    exact h.commandCycle fun s' _ hp => by simpa [disableRule, hp, hoff rfl, raise] using h.refl _
  | damage x1 x2 y1 y2 =>
    obtain rfl := Host.Outcome.next.inj he
    refine h.commandCycle fun s' _ _ => ?_
    unfold damageRule
    split
    · exact h.update _ _ s'
    · exact h.refl _
  | refresh =>
    obtain rfl := Host.Outcome.next.inj he
    exact h.commandCycle fun s' _ _ => h.update _ _ s'
  | setInvert v =>
    obtain rfl := Host.Outcome.next.inj he
    refine h.commandCycle fun s' _ _ => ?_
    unfold setInvertRule
    dsimp only
    split
    · exact h.update _ _ { s' with invert := v }
    · exact h.refl _
  | setDither m =>
    obtain rfl := Host.Outcome.next.inj he
    refine h.commandCycle fun s' _ _ => ?_
    unfold setDitherRule
    dsimp only
    split
    · exact h.update _ _ { s' with ditherMode := m }
    · exact h.refl _
  | setCutoff c =>
    obtain rfl := Host.Outcome.next.inj he
    refine h.commandCycle fun s' _ _ => ?_
    unfold setCutoffRule
    dsimp only
    split
    · exact h.update _ _ { s' with cutoff := c }
    · exact h.refl _
  | setIndicator idx g =>
    obtain rfl := Host.Outcome.next.inj he
    refine h.commandCycle fun s' _ _ => ?_
    unfold setIndicatorRule
    split
    · exact h.update _ _ { s' with ind := s'.ind.set idx.toNat g (by assumption) }
    · exact h.refl _
  | ovlAdd x y w hh pix =>
    obtain rfl := Host.Outcome.next.inj he
    refine h.commandCycle fun s' _ _ => ?_
    unfold ovlAddRule
    repeat' split
    all_goals exact h.refl _
  | ovlRemove handle =>
    obtain rfl := Host.Outcome.next.inj he
    refine h.commandCycle fun s' _ _ => ?_
    unfold ovlRemoveRule
    split
    · exact h.refl _
    · dsimp only
      split
      · exact h.update _ _ (s'.updateEntry handle _)
      · exact h.refl _
  | ovlShow handle =>
    obtain rfl := Host.Outcome.next.inj he
    exact h.commandCycle fun s' _ _ => h.setVisible true handle s'
  | ovlHide handle =>
    obtain rfl := Host.Outcome.next.inj he
    exact h.commandCycle fun s' _ _ => h.setVisible false handle s'
  | ovlClear =>
    obtain rfl := Host.Outcome.next.inj he
    exact h.commandCycle fun s' _ _ => h.update _ _ { s' with ent := s'.ent.map fun _ => none }
  | wireClear =>
    obtain rfl := Host.Outcome.next.inj he
    exact h.transaction _ _ _
  | wireWriteLines y1 rows =>
    obtain rfl := Host.Outcome.next.inj he
    exact h.transaction _ _ _

/-- A packet that is no command keeps the relation. -/
theorem rejectPacket (h : PinRel P) (s : State) : P s.io (rejectPacket s).io := by
  unfold Machine.rejectPacket
  dsimp only
  split <;> exact h.finish _ { s with phase := .busy none }

/-- Every step but a reset keeps the relation, if the instruction it runs does. -/
theorem step (h : PinRel P) {s t : State} (hn : noReset s.inputs = true)
    (hx : ∀ i s' t', s'.io = s.io → s'.pstate = s.pstate → Machine.exec i s' = .next t' → P s'.io t'.io)
    (he : Machine.step s = .next t) : P s.io t.io := by
  unfold Machine.step nextMove at he
  split at he
  · cases he
  split at he
  · split at he
    · cases he
    · obtain rfl := Host.Outcome.next.inj he
      exact h.idle _
  · next hi => rw [hi] at hn; cases hn
  · next input rest _ hi =>
    split at he
    · cases he
    · unfold runInput at he
      split at he
      · unfold runPacket at he
        split at he
        · exact hx _ { s with inputs := rest } _ rfl rfl he
        · cases he
        · obtain rfl := Host.Outcome.next.inj he
          exact h.rejectPacket { s with inputs := rest }
      · unfold runWire at he
        split at he
        · exact hx _ { s with inputs := rest } _ rfl rfl he
        · cases he
      · obtain rfl := Host.Outcome.next.inj he
        exact h.refl _
      · obtain rfl := Host.Outcome.next.inj he
        exact h.tick _
      · rw [hi] at hn; cases hn
      · rw [hi] at hn; cases hn

end PinRel

namespace PowerRel

theorem vcomLow (h : PowerRel P) (io : Io) : P io io.vcomLow :=
  h.trans (h.toPinRel.yieldTicks io) (h.low io.yieldTicks)

/-- Every instruction keeps the relation. -/
theorem exec (h : PowerRel P) {i : Instr} {s t : State} (he : exec i s = .next t) : P s.io t.io := by
  by_cases hon : i = .enable
  · subst hon
    obtain rfl := Host.Outcome.next.inj he
    refine h.toPinRel.commandCycle fun s' _ _ => ?_
    unfold enableRule
    have hup : P s'.io (s'.io.powerUp s'.cfg) :=
      h.trans (h.toPinRel.driveDisp true _) (h.trans (h.vcomLow _) (h.toPinRel.emit rfl _))
    have hclear := h.trans hup (h.toPinRel.transaction s'.cfg (clearBytes s'.cfg) _)
    split
    · exact h.refl _
    · dsimp only
      split
      · exact h.trans hclear (h.timer _ true _)
      · exact h.trans hclear (h.toPinRel.driveDisp false _)
  · by_cases hoff : i = .disable
    · subst hoff
      obtain rfl := Host.Outcome.next.inj he
      refine h.toPinRel.commandCycle fun s' _ _ => ?_
      unfold disableRule
      split
      · exact h.refl _
      · have hcancel : P s'.io s'.io.cancelTimer :=
          h.trans (h.toPinRel.yieldTicks _) (h.timer s'.io.yieldTicks false none)
        exact h.trans hcancel (h.trans (h.toPinRel.driveDisp false _) (h.vcomLow _))
    · exact h.toPinRel.exec (fun h => absurd h hon) (fun h => absurd h hoff) he

/-- Every step but a reset keeps the relation. -/
theorem step (h : PowerRel P) {s t : State} (hn : noReset s.inputs = true) (he : step s = .next t) : P s.io t.io :=
  h.toPinRel.step hn (fun _ _ _ _ _ => h.exec) he

end PowerRel

end Sys2Proof.Machine
end

