-- ==== Sys2Proof/Laws/Power.lean ====
section
/-! SUPPORT. ENABLE and DISABLE: what their rules do to the pins, said once. -/

namespace Sys2Proof.Machine

/-- The pins after display-enable, VCOM low and settle, while the timer is stopped (43_power_vcom.md R103). -/
theorem Io.powerUp_stopped (c : Config) {io : Io} (h : io.vcom.running = false) :
    io.powerUp c = { io with
      disp := true
      vcom := { io.vcom with out := false, toggle := false }
      trace := io.trace ++ [.gpioDisp true, .gpioVcom false, .wait .settle c.settleTime] } := by
  simp [Io.powerUp, Io.driveDisp, Io.vcomLow, Io.emit, Io.act, Io.yieldTicks, h, Io.log]

/-- ENABLE in Off whose clear-screen command succeeds (43_power_vcom.md R103). -/
theorem enableRule_ok {s : State} (hp : s.pstate = .off)
    (hc : ((s.io.powerUp s.cfg).clearScreen s.cfg).2 = true) :
    enableRule s = ({ s with
      pstate := .active
      io := ((s.io.powerUp s.cfg).clearScreen s.cfg).1.startTimer }, .ok) := by
  simp [enableRule, hp, hc]

/-- ENABLE in Off whose clear-screen command fails (43_power_vcom.md R103). -/
theorem enableRule_fail {s : State} (hp : s.pstate = .off)
    (hc : ((s.io.powerUp s.cfg).clearScreen s.cfg).2 = false) :
    enableRule s = ({ s with
      io := ((s.io.powerUp s.cfg).clearScreen s.cfg).1.driveDisp false }, .error .powerSequenceError) := by
  simp [enableRule, hp, hc]

/-- The clear-screen transaction of a power-up while the timer is stopped: whether it succeeds, and the pins after it
(41_transport.md R86, R91). -/
theorem Io.powerUp_clearScreen (c : Config) {io : Io} (h : io.vcom.running = false) :
    let r := (io.powerUp c).clearScreen c
    r.2 = (busRefusal io.bus 2).isNone ∧
      r.1 = { io with
        disp := true
        cs := false
        bus := io.bus.skip ((busRefusal io.bus 2).getD 2 + 1)
        vcom := { io.vcom with out := false, toggle := false }
        trace := io.trace ++ ([.gpioDisp true, .gpioVcom false, .wait .settle c.settleTime] ++
          transactionEvents c (clearBytes c) (busRefusal io.bus 2)) } := by
  have hpu := Io.powerUp_stopped c h
  have hbus : (io.powerUp c).bus = io.bus := by rw [hpu]
  have hlen : (clearBytes c).length = 2 := rfl
  have h1 := (Io.transaction_spec c (clearBytes c) (io.powerUp c)).1
  have h2 := (Io.transaction_spec c (clearBytes c) (io.powerUp c)).2.stopped (by rw [Io.sent, hpu]; exact h)
  rw [hbus, hlen] at h1 h2
  refine ⟨h1, h2.trans ?_⟩
  rw [hpu]
  simp [Io.sent]

/-- DISABLE in Active: some ticks end first, then the pins go low with the timer stopped (43_power_vcom.md R104, R108). -/
theorem disableRule_active {s : State} (hp : s.pstate = .active) :
    ∃ n ticks,
      disableRule s = ({ s with
        pstate := .off
        io := { s.io.ticksDone n with
          ticks := ticks
          disp := false
          vcom := { (s.io.ticksDone n).vcom with out := false, toggle := false, running := false, lock := none }
          trace := (s.io.ticksDone n).trace ++ [.gpioDisp false, .gpioVcom false] } }, .ok) := by
  obtain ⟨n, ticks, hy⟩ := s.io.yieldTicks_eq
  refine ⟨n, ticks, ?_⟩
  have hlow : ∀ io : Io, io.vcom.running = false → (io.driveDisp false).vcomLow = { io with
      disp := false
      vcom := { io.vcom with out := false, toggle := false }
      trace := io.trace ++ [.gpioDisp false, .gpioVcom false] } := by
    intro io h
    simp [Io.driveDisp, Io.vcomLow, Io.act, Io.yieldTicks, h, Io.log]
  simp only [disableRule, hp, ne_eq, not_true_eq_false, if_false]
  rw [hlow _ rfl, Io.cancelTimer, hy]
  rfl

end Sys2Proof.Machine
end

