-- ==== Sys2Proof/Laws/Registry.lean ====
section
/-! SUPPORT. The overlay registry: what looking up, changing, removing and placing an entry do to the live entries. -/

namespace Sys2Proof.Machine

/-- The live entries after those of a handle are changed. -/
theorem liveEntries_mapHandle (handle : Word) (f : Overlay → Overlay) (ent : List (Option Overlay)) :
    (mapHandle handle f ent).filterMap id =
      (ent.filterMap id).map fun e => if e.handle = handle then f e else e := by
  induction ent with
  | nil => rfl
  | cons a r ih => cases a <;> simp [mapHandle] at * <;> exact ih

/-- The live entries after those of a handle are removed. -/
theorem liveEntries_dropHandle (handle : Word) (ent : List (Option Overlay)) :
    (dropHandle handle ent).filterMap id = (ent.filterMap id).filter fun e => decide (e.handle ≠ handle) := by
  induction ent with
  | nil => rfl
  | cons a r ih =>
    cases a with
    | none => simp [dropHandle] at *; exact ih
    | some e => by_cases h : e.handle = handle <;> simp [dropHandle, h, Option.filter] at * <;> exact ih

/-- Setting the visibility of a handle's entry (45_overlay.md R117, R118). -/
theorem updateEntry_visible (s : State) (handle : Word) (v : Bool) :
    (s.updateEntry handle fun slot => slot.map fun e => { e with visible := v }).ent =
      mapHandle handle (fun e => { e with visible := v }) s.ent := by
  simp [State.updateEntry, mapHandle, slotHas]
  intro a _
  cases a <;> simp
  split <;> simp_all

/-- Removing a handle's entry (45_overlay.md R116). -/
theorem updateEntry_remove (s : State) (handle : Word) :
    (s.updateEntry handle fun _ => none).ent = dropHandle handle s.ent := by
  simp [State.updateEntry, dropHandle, slotHas]
  intro a _
  cases a <;> simp [Option.filter]

/-- Looking up a live entry's handle finds that entry, where handles are distinct (10_state.md R31). -/
theorem entryOf_live {s : State} (h : (s.liveEntries.map (·.handle)).Nodup) {e : Overlay} (he : e ∈ s.liveEntries) :
    s.entryOf e.handle = some e := by
  unfold State.entryOf
  generalize s.liveEntries = l at *
  induction l with
  | nil => simp at he
  | cons a r ih =>
    simp at h he
    rcases he with rfl | he
    · simp
    · have hne : a.handle ≠ e.handle := fun heq => h.1 e he heq.symm
      simp [hne, ih h.2 he]

/-- Looking up a handle that no live entry has finds none (45_overlay.md R116). -/
theorem entryOf_none {s : State} {handle : Word} : s.entryOf handle = none ↔ ∀ e ∈ s.liveEntries, e.handle ≠ handle := by
  simp [State.entryOf]

/-- What a lookup finds is a live entry of that handle. -/
theorem entryOf_some {s : State} {handle : Word} {e : Overlay} (h : s.entryOf handle = some e) :
    e ∈ s.liveEntries ∧ e.handle = handle :=
  ⟨List.mem_of_find?_eq_some h, by simpa using List.find?_some h⟩

/-- Placing an entry adds it to the live entries (45_overlay.md R115). -/
theorem liveEntries_placeEntry (e : Overlay) (ent : List (Option Overlay)) :
    ((placeEntry e ent).filterMap id).Perm (e :: ent.filterMap id) := by
  induction ent with
  | nil => simp [placeEntry]
  | cons a r ih =>
    cases a with
    | none => simp [placeEntry]
    | some f => simpa [placeEntry] using (ih.cons f).trans (List.Perm.swap _ _ _)

/-- Placing an entry in a registry with a free slot keeps the number of slots. -/
theorem placeEntry_length (e : Overlay) (ent : List (Option Overlay)) (h : (ent.filterMap id).length < ent.length) :
    (placeEntry e ent).length = ent.length := by
  induction ent with
  | nil => simp at h
  | cons a r ih =>
    cases a with
    | none => simp [placeEntry]
    | some f => simp [placeEntry] at *; exact ih h

/-- A registry with an entry's visibility changed still makes a picture. -/
theorem PictureReady.mapVisible {s : State} (h : PictureReady s) (handle : Word) (v : Bool) :
    PictureReady { s with ent := mapHandle handle (fun e => { e with visible := v }) s.ent } := by
  refine ⟨h.config, fun e he => ?_, ?_⟩
  · rw [State.liveEntries, liveEntries_mapHandle, List.mem_map] at he
    obtain ⟨e', h1, rfl⟩ := he
    have := h.fit e' h1
    split <;> exact this
  · rw [State.liveEntries, liveEntries_mapHandle, List.map_map]
    have : ((fun e : Overlay => e.handle) ∘ fun e => if e.handle = handle then { e with visible := v } else e) =
        fun e => e.handle := by
      funext e
      simp only [Function.comp]
      split <;> rfl
    rw [this]
    exact h.distinct

/-- A registry with an entry removed still makes a picture. -/
theorem PictureReady.dropHandle {s : State} (h : PictureReady s) (handle : Word) :
    PictureReady { s with ent := Machine.dropHandle handle s.ent } := by
  refine ⟨h.config, fun e he => ?_, ?_⟩
  · rw [State.liveEntries, liveEntries_dropHandle, List.mem_filter] at he
    exact h.fit e he.1
  · rw [State.liveEntries, liveEntries_dropHandle]
    exact h.distinct.sublist (List.filter_sublist.map _)

end Sys2Proof.Machine
end

