-- ==== Sys2Proof/Laws/Steps.lean ====
section
/-! SUPPORT. What no instruction touches, and what a step does to the configuration and the inputs. -/

namespace Sys2Proof.Machine

/-- What no instruction touches: the configuration, the count of resets, the answers read, and the inputs. -/
structure Untouched (s t : State) : Prop where
  cfg : t.cfg = s.cfg
  resets : t.resets = s.resets
  reads : t.reads = s.reads
  inputs : t.inputs = s.inputs

theorem Untouched.refl (s : State) : Untouched s s := ⟨rfl, rfl, rfl, rfl⟩

theorem Untouched.trans {a b c : State} (h1 : Untouched a b) (h2 : Untouched b c) : Untouched a c :=
  ⟨h2.cfg.trans h1.cfg, h2.resets.trans h1.resets, h2.reads.trans h1.reads, h2.inputs.trans h1.inputs⟩

theorem update_untouched (y1 y2 : Nat) (s : State) : Untouched s (update y1 y2 s).1 := by
  rw [update_frame s y1 y2]
  exact ⟨rfl, rfl, rfl, rfl⟩

/-- A refresh of the whole panel, after a change of what no instruction touches. -/
theorem fullRefresh_untouched {s u : State} (h : Untouched s u) : Untouched s (fullRefresh u).1 :=
  h.trans (update_untouched 0 u.cfg.height u)

theorem stripRefresh_untouched {s u : State} (h : Untouched s u) : Untouched s (stripRefresh u).1 :=
  h.trans (update_untouched 0 (stripRowsOf u.cfg) u)

theorem setVisible_untouched (v : Bool) (handle : Word) (s : State) : Untouched s (setVisible v handle s).1 := by
  unfold setVisible
  split
  · exact Untouched.refl s
  · exact fullRefresh_untouched ⟨rfl, rfl, rfl, rfl⟩

theorem commandCycle_untouched {i : Instr} {rule : State → State × Reply} {s : State}
    (hr : ∀ s', Untouched s' (rule s').1) : Untouched s (commandCycle i rule s) := by
  have h := hr { s with phase := .busy (some i) }
  rcases commandCycle_cases i rule s with ⟨-, -, he⟩ | ⟨-, he⟩ <;> rw [he]
  · exact ⟨rfl, rfl, rfl, rfl⟩
  · exact ⟨h.cfg, h.resets, h.reads, h.inputs⟩

theorem rejectPacket_untouched (s : State) : Untouched s (rejectPacket s) := by
  unfold rejectPacket
  dsimp only
  split <;> exact ⟨rfl, rfl, rfl, rfl⟩

theorem exec_untouched {i : Instr} {s t : State} (he : exec i s = .next t) : Untouched s t := by
  cases i with
  | enable =>
    obtain rfl := Host.Outcome.next.inj he
    refine commandCycle_untouched fun s' => ?_
    unfold enableRule
    dsimp only
    repeat' split
    all_goals exact ⟨rfl, rfl, rfl, rfl⟩
  | disable =>
    obtain rfl := Host.Outcome.next.inj he
    refine commandCycle_untouched fun s' => ?_
    unfold disableRule
    dsimp only
    split <;> exact ⟨rfl, rfl, rfl, rfl⟩
  | damage x1 x2 y1 y2 =>
    obtain rfl := Host.Outcome.next.inj he
    refine commandCycle_untouched fun s' => ?_
    unfold damageRule
    split
    · exact update_untouched _ _ s'
    · exact ⟨rfl, rfl, rfl, rfl⟩
  | refresh =>
    obtain rfl := Host.Outcome.next.inj he
    exact commandCycle_untouched fun s' => fullRefresh_untouched (Untouched.refl s')
  | setInvert v =>
    obtain rfl := Host.Outcome.next.inj he
    refine commandCycle_untouched fun s' => ?_
    unfold setInvertRule
    dsimp only
    split
    · exact fullRefresh_untouched ⟨rfl, rfl, rfl, rfl⟩
    · exact ⟨rfl, rfl, rfl, rfl⟩
  | setDither m =>
    obtain rfl := Host.Outcome.next.inj he
    refine commandCycle_untouched fun s' => ?_
    unfold setDitherRule
    dsimp only
    split
    · exact fullRefresh_untouched ⟨rfl, rfl, rfl, rfl⟩
    · exact ⟨rfl, rfl, rfl, rfl⟩
  | setCutoff c =>
    obtain rfl := Host.Outcome.next.inj he
    refine commandCycle_untouched fun s' => ?_
    unfold setCutoffRule
    dsimp only
    split
    · exact fullRefresh_untouched ⟨rfl, rfl, rfl, rfl⟩
    · exact ⟨rfl, rfl, rfl, rfl⟩
  | setIndicator idx g =>
    obtain rfl := Host.Outcome.next.inj he
    refine commandCycle_untouched fun s' => ?_
    unfold setIndicatorRule
    split
    · exact stripRefresh_untouched ⟨rfl, rfl, rfl, rfl⟩
    · exact Untouched.refl s'
  | ovlAdd x y w h pix =>
    obtain rfl := Host.Outcome.next.inj he
    refine commandCycle_untouched fun s' => ?_
    unfold ovlAddRule
    repeat' split
    all_goals exact ⟨rfl, rfl, rfl, rfl⟩
  | ovlRemove handle =>
    obtain rfl := Host.Outcome.next.inj he
    refine commandCycle_untouched fun s' => ?_
    unfold ovlRemoveRule
    split
    · exact Untouched.refl s'
    · dsimp only
      split
      · exact fullRefresh_untouched ⟨rfl, rfl, rfl, rfl⟩
      · exact ⟨rfl, rfl, rfl, rfl⟩
  | ovlShow handle =>
    obtain rfl := Host.Outcome.next.inj he
    exact commandCycle_untouched fun s' => setVisible_untouched true handle s'
  | ovlHide handle =>
    obtain rfl := Host.Outcome.next.inj he
    exact commandCycle_untouched fun s' => setVisible_untouched false handle s'
  | ovlClear =>
    obtain rfl := Host.Outcome.next.inj he
    refine commandCycle_untouched fun s' => ?_
    exact fullRefresh_untouched ⟨rfl, rfl, rfl, rfl⟩
  | wireClear =>
    obtain rfl := Host.Outcome.next.inj he
    exact ⟨rfl, rfl, rfl, rfl⟩
  | wireWriteLines y1 rows =>
    obtain rfl := Host.Outcome.next.inj he
    exact ⟨rfl, rfl, rfl, rfl⟩

theorem runPacket_untouched {ws : List Word} {s t : State} (he : runPacket ws s = .next t) : Untouched s t := by
  unfold runPacket at he
  split at he
  · exact exec_untouched he
  · cases he
  · obtain rfl := Host.Outcome.next.inj he
    exact rejectPacket_untouched s

theorem runInput_kept {input : Input} {s t : State} (he : runInput input s = .next t) :
    t.cfg = s.cfg ∧ t.inputs = s.inputs := by
  unfold runInput at he
  split at he
  · exact ⟨(runPacket_untouched he).cfg, (runPacket_untouched he).inputs⟩
  · unfold runWire at he
    split at he
    · exact ⟨(exec_untouched he).cfg, (exec_untouched he).inputs⟩
    · cases he
  · obtain rfl := Host.Outcome.next.inj he
    exact ⟨rfl, rfl⟩
  · obtain rfl := Host.Outcome.next.inj he
    exact ⟨rfl, rfl⟩
  · obtain rfl := Host.Outcome.next.inj he
    exact ⟨rfl, rfl⟩
  · split at he
    · next hd =>
      obtain rfl := Host.Outcome.next.inj he
      exact ⟨(runPacket_untouched hd).cfg, (runPacket_untouched hd).inputs⟩
    · cases he
    · cases he

/-- Every step keeps the configuration and takes one input, if one waits (00_scope.md R8; log 8). -/
theorem step_kept {s t : State} (he : step s = .next t) : t.cfg = s.cfg ∧ t.inputs = s.inputs.tail := by
  unfold step nextMove at he
  split at he
  · cases he
  split at he
  · next hi =>
    split at he
    · cases he
    · obtain rfl := Host.Outcome.next.inj he
      exact ⟨rfl, by simp [hi]⟩
  · next rest hi => rw [hi]; exact runInput_kept (s := { s with inputs := rest }) he
  · next input rest _ hi =>
    split at he
    · cases he
    · rw [hi]; exact runInput_kept (s := { s with inputs := rest }) he

/-- A step with no input left waits (60_exceptions.md R136). -/
theorem step_idle {s t : State} (hi : s.inputs = []) (he : step s = .next t) : t = { s with io := s.io.idle } := by
  unfold step nextMove at he
  split at he
  · cases he
  · simp only [hi] at he
    split at he
    · cases he
    · exact (Host.Outcome.next.inj he).symm.trans (by rw [hi])

/-- Between commands a step with no input left answers a next state. -/
theorem step_waits {s : State} (hc : s.cfg.ok = true) (hm : s.midCommand = false) (hi : s.inputs = []) :
    step s = .next { s with io := s.io.idle } := by
  simp [step, nextMove, hc, hi, hm]

/-- A step that waits while the timer runs has a tick (20_memory.md R52 (a); log 14). -/
theorem Io.idle_event {io : Io} (h : io.vcom.running = true) :
    ∃ e rest, io.idle.trace = io.trace ++ e :: rest ∧ e.onVcom = true := by
  obtain ⟨evs, ht, -⟩ := io.tick.yieldTicks_ticked.trace
  have hd : io.tick = ((io.acquire .vtimer).toggleVcom).release := by simp [Io.tick, h]
  have hh : ∃ e, io.tick.trace = io.trace ++ [e] ∧ e.onVcom = true := by
    rw [hd]
    rcases Io.toggleVcom_cases (io.acquire .vtimer) with ⟨-, h⟩ | ⟨-, h⟩ <;> rw [h]
    · exact ⟨_, rfl, rfl⟩
    · exact ⟨_, rfl, rfl⟩
  obtain ⟨e, h1, h2⟩ := hh
  exact ⟨e, evs, by rw [Io.idle, ht, h1, List.append_assoc]; rfl, h2⟩

end Sys2Proof.Machine
end

