-- ==== Sys2Proof/Tests/Slice0.lean ====
section
/-! SUPPORT. Tests: what the well-formedness checks refuse, words written out from the spec's encodings, small steps
from 95_test_vectors.md, and for every statement with hypotheses a state and operands that meet them. -/

namespace Sys2Proof.Tests

/- One theorem after another: a queue of kernel evaluations, each on a thread of its own, can exhaust the memory. -/
set_option Elab.async false

open Sys2Proof.Machine

/-! ### Well-formedness refuses an ill-formed term for each check -/

/-- A panel of w × h pixels, with the test glyphs of 95_test_vectors.md P4 and times at the lower ends of their ranges. -/
def panel (w h : Nat) : Config :=
  { Config.default with
    width := w
    height := h
    glyphs := [⟨0x41, [0x81, 0x42, 0x24, 0x18, 0x18, 0x24, 0x42, 0x81]⟩,
      ⟨0x42, [0xFF, 0x81, 0x81, 0x81, 0x81, 0x81, 0x81, 0xFF]⟩]
    csSetupAbove := 0
    csHoldAbove := 0
    settleAbove := 0 }

theorem test_wf_refuses_pixels : (Instr.ovlAdd 0 0 2 1 [0x11]).wf (panel 8 8) = false := by decide
theorem test_wf_refuses_no_row : (Instr.wireWriteLines 0 []).wf (panel 8 8) = false := by decide
theorem test_wf_refuses_payload : (Instr.wireWriteLines 0 [[0x0F, 0x00]]).wf (panel 8 8) = false := by decide
theorem test_wf_refuses_row_off_panel : (Instr.wireWriteLines 8 [[0x0F]]).wf (panel 8 8) = false := by decide

/-! ### Words written out from 30_encoding.md R59, R61, R63, R69 -/

theorem test_decode_enable : decodePacket [0x01000000#32] = .ok .enable := by decide
theorem test_decode_disable : decodePacket [0x02000000#32] = .ok .disable := by decide
theorem test_decode_damage :
    decodePacket [0x10000000#32, 0x00080000#32, 0x00010000#32] = .ok (.damage 0 8 0 1) := by decide
theorem test_decode_refresh : decodePacket [0x11000000#32] = .ok .refresh := by decide
theorem test_decode_set_invert : decodePacket [0x20000001#32] = .ok (.setInvert true) := by decide
theorem test_decode_set_dither : decodePacket [0x21000001#32] = .ok (.setDither .two) := by decide
theorem test_decode_set_cutoff : decodePacket [0x22000040#32] = .ok (.setCutoff 0x40) := by decide
theorem test_decode_set_indicator : decodePacket [0x30000242#32] = .ok (.setIndicator 2 0x42) := by decide
theorem test_decode_ovl_add :
    decodePacket [0x40000000#32, 0x00010002#32, 0x00020002#32, 0x281E140A#32] =
      .ok (.ovlAdd 2 1 2 2 [10, 20, 30, 40]) := by decide
theorem test_decode_ovl_remove : decodePacket [0x41000000#32, 0x00000001#32] = .ok (.ovlRemove 1) := by decide
theorem test_decode_ovl_show : decodePacket [0x42000000#32, 0x00000007#32] = .ok (.ovlShow 7) := by decide
theorem test_decode_ovl_hide : decodePacket [0x43000000#32, 0x80000001#32] = .ok (.ovlHide 0x80000001) := by decide
theorem test_decode_ovl_clear : decodePacket [0x44000000#32] = .ok .ovlClear := by decide
theorem test_decode_wire_clear : decodeWire (panel 8 8) [0x20, 0x00] = .ok .wireClear := by decide
theorem test_decode_wire_write_lines :
    decodeWire (panel 8 8) [0x80, 0x80, 0x0F, 0x00, 0x40, 0xFF, 0x00] =
      .ok (.wireWriteLines 0 [[0x0F], [0xFF]]) := by decide

/-- The reserved encodings of 95_test_vectors.md 2.5. -/
theorem test_decode_reserved :
    decodePacket [0x00000000#32] = .error .reservedOpcode ∧ decodePacket [0x45000000#32] = .error .reservedOpcode ∧
      decodePacket [0x01000001#32] = .error .reservedBit ∧ decodePacket [0x20000002#32] = .error .reservedBit ∧
      decodePacket [0x22000100#32] = .error .reservedBit ∧ decodePacket [0x30010000#32] = .error .reservedBit ∧
      decodePacket [0x21000003#32] = .error .reservedMode ∧ decodePacket [0x10000000#32] = .error .wrongLength ∧
      decodePacket [0x40000000#32, 0, 0x00010004#32] = .error .wrongLength ∧
      decodePacket [0x40000000#32, 0, 0x00010004#32, 0, 0] = .error .wrongLength := by decide

/-- Unused high bytes of OVL_ADD's last word are ignored (95_test_vectors.md 2.5). -/
theorem test_decode_ignored_byte :
    decodePacket [0x40000000#32, 0, 0x00010003#32, 0xDD332211#32] = .ok (.ovlAdd 0 0 3 1 [0x11, 0x22, 0x33]) := by
  decide

/-! ### Small steps -/

/-- The pins of a block whose bus and VCOM pin take everything, whose timer does not tick, and which is in Active or
not. -/
def pins (active : Bool) : Io :=
  { Io.reset with
    vcom := { Vcom.reset with running := active }
    disp := active
    bus := ⟨List.replicate 64 true, 0⟩
    vpin := ⟨[true, true], 0⟩
    ticks := ⟨List.replicate 64 0, 0⟩ }

/-- A block between commands, in Active or in Off, with these samples lined up. -/
def block (c : Config) (active : Bool) (samples : List Byte) : State :=
  { State.powerOn c with
    pstate := if active then .active else .off
    frame := ⟨samples, 0⟩
    io := pins active }

/-- What stands in a next state. -/
def after {α : Type} (f : State → α) (o : Host.Outcome State Fault Refusal) : Option α :=
  match o with
  | .next t => some (f t)
  | .fault _ => none
  | .refused _ => none

/-- RESULT, SKIPPED and FAULT as register 0 shows them, and the bytes sent. -/
def reply (t : State) : Word × List Byte := (t.statusWord 0, spiBytes t.io.trace)

/-- Eight samples 0, 0, 0, 0, 255, 255, 255, 255 (95_test_vectors.md P1). -/
def halfRow : List Byte := [0, 0, 0, 0, 255, 255, 255, 255]

/-- ENABLE from reset (95_test_vectors.md 2.8 and P1). -/
theorem test_enable :
    after (fun t => (t.io.trace, t.statusWord 3)) (exec .enable (block (panel 8 8) false [])) =
      some ([.gpioDisp true, .gpioVcom false, .wait .settle 5000000, .cs true, .wait .csSetup 10, .spi 0x20, .spi 0,
        .wait .csHold 10, .cs false, .result .ok], 0x2A) := by decide +kernel

/-- ENABLE on a bus that refuses byte 1 (95_test_vectors.md P6). -/
theorem test_enable_fails :
    after (fun t => (t.io.trace, t.statusWord 0, t.statusWord 3))
        (exec .enable { block (panel 8 8) false [] with io := { pins false with bus := ⟨[true, false], 0⟩ } }) =
      some ([.gpioDisp true, .gpioVcom false, .wait .settle 5000000, .cs true, .wait .csSetup 10, .spi 0x20, .spiFail,
        .wait .csHold 10, .cs false, .gpioDisp false, .result .powerSequenceError], 2, 0) := by decide +kernel

/-- DISABLE in Active with VCOM high and one tick in flight (95_test_vectors.md 1.10). -/
theorem test_disable :
    after (fun t => (t.io.trace, t.statusWord 3))
        (exec .disable { block (panel 8 8) true [] with io := { pins true with
          vcom := ⟨true, true, 0, true, none⟩
          ticks := ⟨[1], 0⟩ } }) =
      some ([.gpioVcom false, .gpioDisp false, .gpioVcom false, .result .ok], 0) := by decide +kernel

/-- DISABLE runs while FAULT = 1 (95_test_vectors.md 2.11). -/
theorem test_disable_faulted :
    after reply (exec .disable { block (panel 8 8) true [] with fault := true }) = some (0x20, []) := by decide +kernel

/-- DAMAGE of one row (95_test_vectors.md P1). -/
theorem test_damage :
    after reply (exec (.damage 0 8 0 1) (block (panel 8 8) true halfRow)) = some (0, [0x80, 0x80, 0x0F, 0x00]) := by
  decide +kernel

/-- DAMAGE past the right edge sets FAULT (95_test_vectors.md 2.11). -/
theorem test_damage_faults :
    after reply (exec (.damage 0 9 0 1) (block (panel 8 8) true [])) = some (0x29, []) := by decide +kernel

/-- REFRESH of an 8×4 panel at 96 everywhere (95_test_vectors.md P2, step 2). -/
theorem test_refresh :
    after reply (exec .refresh (block (panel 8 4) true (List.replicate 32 96))) =
      some (0, [0x80, 0x80, 0, 0, 0x40, 0, 0, 0xC0, 0, 0, 0x20, 0, 0]) := by decide +kernel

/-- A bus error at the end of the transaction (95_test_vectors.md P7, step 2). -/
theorem test_refresh_bus_error :
    after (fun t => (t.statusWord 0, t.statusWord 3))
        (exec .refresh { block (panel 8 1) true (List.replicate 8 0) with
          io := { pins true with bus := ⟨[true, true, true, true, false], 0⟩ } }) = some (1, 0x2A) := by decide +kernel

/-- SET_INVERT in the 4×4 mode (95_test_vectors.md P2, step 6). -/
theorem test_set_invert :
    after reply (exec (.setInvert true) { block (panel 8 4) true (List.replicate 32 96) with ditherMode := .four }) =
      some (0, [0x80, 0x80, 0x55, 0, 0x40, 0xBB, 0, 0xC0, 0x55, 0, 0x20, 0xEE, 0]) := by decide +kernel

/-- SET_DITHER 2×2 (95_test_vectors.md P2, step 4). -/
theorem test_set_dither :
    after reply (exec (.setDither .two) (block (panel 8 4) true (List.replicate 32 96))) =
      some (0, [0x80, 0x80, 0xAA, 0, 0x40, 0x55, 0, 0xC0, 0xAA, 0, 0x20, 0x55, 0]) := by decide +kernel

/-- SET_CUTOFF 96 (95_test_vectors.md P2, step 3). -/
theorem test_set_cutoff :
    after reply (exec (.setCutoff 96) (block (panel 8 4) true (List.replicate 32 96))) =
      some (0, [0x80, 0x80, 0xFF, 0, 0x40, 0xFF, 0, 0xC0, 0xFF, 0, 0x20, 0xFF, 0]) := by decide +kernel

/-- SET_CUTOFF 0x40 in Off (95_test_vectors.md 2.9). -/
theorem test_set_cutoff_off :
    after (fun t => (t.statusWord 0, t.statusWord 2)) (exec (.setCutoff 0x40) (block (panel 8 8) false [])) =
      some (0x10, 0x4000) := by decide +kernel

/-- SET_INDICATOR beside an occupied slot (95_test_vectors.md P4, step 7). -/
theorem test_set_indicator :
    after reply (exec (.setIndicator 1 0x42)
        { block (panel 16 8) true (List.replicate 128 0) with ind := #v[0x41, 0, 0, 0, 0, 0] }) =
      some (0, [0x80, 0x80, 0xFF, 0x81, 0, 0x40, 0x81, 0x42, 0, 0xC0, 0x81, 0x24, 0, 0x20, 0x81, 0x18, 0,
        0xA0, 0x81, 0x18, 0, 0x60, 0x81, 0x24, 0, 0xE0, 0x81, 0x42, 0, 0x10, 0xFF, 0x81, 0]) := by decide +kernel

/-- Four-pixel glyphs re-instantiate GLYPH_SIZE (00_scope.md R7; log 23): rows 1001 and 0110 in the rightmost columns
(40_datapath.md R73). -/
theorem test_small_cells :
    let c := { panel 8 4 with glyphSize := 4, stripRows := 4, glyphs := [⟨0x41, [9, 6, 6, 9]⟩] }
    let s := composite 0 2 { block c true (List.replicate 16 7) with ind := #v[0x41, 0, 0, 0, 0, 0] }
    (List.range 16).map s.grayAt = [7, 7, 7, 7, 255, 0, 0, 255, 7, 7, 7, 7, 0, 255, 255, 0] := by decide +kernel

/-- SET_INDICATOR 6 (95_test_vectors.md 2.9). -/
theorem test_set_indicator_out_of_range :
    after reply (exec (.setIndicator 6 0x78) (block (panel 8 8) true [])) = some (5, []) := by decide +kernel

/-- OVL_ADD up to the right edge (95_test_vectors.md 2.10). -/
theorem test_ovl_add :
    after (fun t => (t.statusWord 1, t.statusWord 7, t.statusWord 8))
        (exec (.ovlAdd 4 0 4 1 [0x11, 0x22, 0x33, 0x44]) (block (panel 8 8) false [])) = some (1, 1, 2) := by
  decide +kernel

/-- OVL_ADD does not wrap (95_test_vectors.md 2.10). -/
theorem test_ovl_add_no_wrap :
    after reply (exec (.ovlAdd 65535 0 2 1 [0, 0]) (block (panel 8 8) false [])) = some (3, []) := by decide +kernel

/-- The entry of 95_test_vectors.md P3, step 2. -/
def whitePatch (visible : Bool) : Overlay := ⟨1, 4, 0, 4, 2, visible, List.replicate 8 255⟩

/-- A block with that entry in its registry, the frame 0 everywhere. -/
def patched (active visible : Bool) : State :=
  { block (panel 8 8) active (List.replicate 64 0) with
    ent := some (whitePatch visible) :: List.replicate 15 none
    nextHandle := 2 }

/-- OVL_SHOW (95_test_vectors.md P3, step 3). -/
theorem test_ovl_show :
    after reply (exec (.ovlShow 1) (patched true false)) =
      some (0, [0x80, 0x80, 0x0F, 0, 0x40, 0x0F, 0, 0xC0, 0, 0, 0x20, 0, 0, 0xA0, 0, 0, 0x60, 0, 0, 0xE0, 0, 0,
        0x10, 0, 0]) := by decide +kernel

/-- OVL_HIDE of a visible entry resends the frame beneath it (45_overlay.md R118). -/
theorem test_ovl_hide :
    after (fun t => ((reply t).2.take 4, t.statusWord 7)) (exec (.ovlHide 1) (patched true true)) =
      some ([0x80, 0x80, 0x00, 0x00], 1) := by decide +kernel

/-- OVL_REMOVE of a visible entry (95_test_vectors.md P3, step 4). -/
theorem test_ovl_remove :
    after (fun t => ((reply t).2.take 4, t.statusWord 7, t.statusWord 8)) (exec (.ovlRemove 1) (patched true true)) =
      some ([0x80, 0x80, 0x00, 0x00], 0, 2) := by decide +kernel

/-- OVL_REMOVE of handle 0 (95_test_vectors.md 2.10). -/
theorem test_ovl_remove_stale : after reply (exec (.ovlRemove 0) (patched true true)) = some (4, []) := by
  decide +kernel

/-- OVL_CLEAR in Off (45_overlay.md R119). -/
theorem test_ovl_clear :
    after (fun t => (t.statusWord 0, t.statusWord 7, t.statusWord 8)) (exec .ovlClear (patched false true)) =
      some (0x10, 0, 2) := by decide +kernel

/-- WIRE_CLEAR on a bus that refuses byte 0 (95_test_vectors.md 2.6). -/
theorem test_wire_clear :
    after (fun t => t.io.trace)
        (exec .wireClear { block (panel 8 8) false [] with io := { pins false with bus := ⟨[false], 0⟩ } }) =
      some [.cs true, .wait .csSetup 10, .spiFail, .wait .csHold 10, .cs false] := by decide +kernel

/-- WIRE_WRITE_LINES of rows 10 and 11 (42_update.md R100, 40_datapath.md R82). -/
theorem test_wire_write_lines :
    after (fun t => spiBytes t.io.trace) (exec (.wireWriteLines 10 [[0x0F], [0xF0]]) (block (panel 8 16) false [])) =
      some [0x80, 0xD0, 0x0F, 0x00, 0x30, 0xF0, 0x00] := by decide +kernel

/-- A higher handle covers a lower one (95_test_vectors.md 2.4). -/
theorem test_stacking :
    after (fun t => (reply t).2.take 4) (exec (.damage 0 0 0 1) { patched true true with
      ent := [some ⟨2, 2, 0, 4, 1, true, [0, 0, 0, 0]⟩, some ⟨1, 0, 0, 8, 1, true, List.replicate 8 255⟩] }) =
      some [0x80, 0x80, 0xC3, 0x00] := by decide +kernel

/-- A reserved packet while FAULT = 1 (95_test_vectors.md 2.11), as a step. -/
theorem test_step_faulted_packet :
    after reply (step { block (panel 8 8) true [] with fault := true, inputs := [.packet [0]] }) = some (0x29, []) := by
  decide +kernel

/-- A tick that the pin does not take, at the largest count (95_test_vectors.md 2.8), as a step. -/
theorem test_step_missed_tick :
    after (fun t => (t.statusWord 4, t.io.trace)) (step { block (panel 8 8) true [] with
      inputs := [.tick]
      io := { pins true with vcom := ⟨true, true, 0xFFFFFFFF, true, none⟩, vpin := ⟨[false], 0⟩ } }) =
      some (0xFFFFFFFF, [.gpioVcomFail]) := by decide +kernel

/-- A reset inside a transaction deasserts the chip select at once (70_reset_and_hazards.md R138), as a step. -/
theorem test_step_reset_inside :
    after (fun t => (t.io.trace, t.statusWord 3)) (step { block (panel 8 8) true halfRow with
      inputs := [.resetDuring [0x10000000, 0x00080000, 0x00010000] 4] }) =
      some ([.frameRead 0 1, .cs true, .wait .csSetup 10, .spi 0x80, .cs false], 0) := by decide +kernel

/-- The clear-screen form as the machine's next instruction: its first byte is CMD_CLEAR (30_encoding.md R69). -/
theorem test_with_fetch_word :
    after (fun t => (spiBytes t.io.trace).take 1) (step ((block (panel 8 8) false []).withFetchWord 8 0x20)) =
      some [0x20] := by decide +kernel

/-! ### The hypotheses of the statements can be met

For each statement with hypotheses, a concrete state and operands that meet them, at the ends of a range where there is
one. -/

/-- The invariant holds of the test states with an entry in the registry. -/
theorem inv_patched (active visible : Bool) : Inv (patched active visible) where
  config := by cases active <;> cases visible <;> decide
  idle := rfl
  unlocked := rfl
  deselected := rfl
  settled := by cases active <;> cases visible <;> decide
  timer := by cases active <;> cases visible <;> decide
  panel := by cases active <;> cases visible <;> decide
  vcomLow := by cases active <;> cases visible <;> decide
  vcomLevel := rfl
  skip := by intro h; cases h
  slots := by cases active <;> cases visible <;> decide
  entriesFit := by cases active <;> cases visible <;> (simp only [Overlay.fits]; decide)
  entriesIssued := by cases active <;> cases visible <;> (simp only [Overlay.issued]; decide)
  handlesDistinct := by cases active <;> cases visible <;> decide
  grayForm := rfl
  grayInside := by intro c hc; cases hc
  taggedForm := rfl
  taggedInside := by intro c hc; cases hc

/-- The same with one handle left to issue. -/
theorem inv_lastHandle : Inv { patched true true with nextHandle := 0xFFFFFFFF } :=
  let h := inv_patched true true
  ⟨h.config, h.idle, h.unlocked, h.deselected, h.settled, h.timer, h.panel, h.vcomLow, h.vcomLevel, h.skip, h.slots,
    h.entriesFit, by simp only [Overlay.issued]; decide, h.handlesDistinct, h.grayForm, h.grayInside, h.taggedForm,
    h.taggedInside⟩

/-- A state between two inputs, with one more to come. -/
def waiting (active : Bool) (input : Input) : State := { patched active true with inputs := [input] }

theorem inv_waiting (active : Bool) (input : Input) : Inv (waiting active input) :=
  let h := inv_patched active true
  ⟨h.config, h.idle, h.unlocked, h.deselected, h.settled, h.timer, h.panel, h.vcomLow, h.vcomLevel, h.skip, h.slots,
    h.entriesFit, h.entriesIssued, h.handlesDistinct, h.grayForm, h.grayInside, h.taggedForm, h.taggedInside⟩

theorem witness_EncodedInstructionsDecodeBack :
    (Instr.ovlAdd 7 7 1 1 [0xFF]).wf (panel 8 8) = true ∧
      (Instr.wireWriteLines 254 [List.replicate 50 0xA5]).wf { Config.default with height := 255 } = true := by decide

theorem witness_AcceptedPacketsAreEncodings :
    decodePacket [0x40000000#32, 0, 0x00010003#32, 0xDD332211#32] = .ok (.ovlAdd 0 0 3 1 [0x11, 0x22, 0x33]) := by
  decide

theorem witness_RowAddressesNameTheRow : (panel 8 255).ok = true ∧ 254 < (panel 8 255).height := by decide

theorem witness_WireBytesAreLaidOutInRows :
    (Instr.wireWriteLines 6 [[0x0F], [0xF0]]).wf { panel 8 8 with finalTrailerBytes := 2 } = true := by decide

theorem witness_StepRunsTheDecodedInstruction :
    (waiting true (.packet [0x11000000])).cfg.ok = true ∧
      (waiting true (.packet [0x11000000])).midCommand = false ∧
      decode (panel 8 8) (.packet [0x11000000]) = .ok .refresh ∧
      decode (panel 8 8) (.wire [0x20, 0]) = .ok .wireClear := by decide

theorem witness_RejectedPacketsHaveNoEffect :
    (waiting true (.packet [0])).cfg.ok = true ∧ (waiting true (.packet [0])).midCommand = false ∧
      (waiting true (.packet [0])).inputs = [.packet [0]] ∧ decodePacket [0] = .error .reservedOpcode ∧
      decodePacket [0xFF000000#32] = .error .reservedOpcode := by decide

/-- A state inside a command, with the chip select asserted. -/
def cutOff : State :=
  { waiting true .reset with phase := .busy (some .refresh), io := { pins true with cs := true } }

theorem witness_ResetInputRestoresTheResetState : cutOff.cfg.ok = true ∧ cutOff.inputs = [.reset] := by decide

theorem witness_ResetInsideACommandCutsIt :
    (waiting true (.resetDuring [0x11000000] 0)).cfg.ok = true ∧
      (waiting true (.resetDuring [0x11000000] 0)).midCommand = false ∧
      after (fun t => (newEvents (patched true true) t).length) (runPacket [0x11000000] (patched true true)) =
        some 31 := by decide +kernel

theorem witness_StatusReadsHaveNoSideEffect :
    (waiting true (.statusRead 15)).cfg.ok = true ∧ (waiting true (.statusRead 15)).midCommand = false := by decide

theorem witness_StatusPortLayout : (patched true true).cfg.ok = true := by decide

theorem witness_StepStopsOnlyOutsideTheRules :
    after (fun t => t.inputs.length) (step (waiting true (.statusRead 0))) = some 0 ∧
      after (fun t => t.inputs.length) (step (waiting true (.packet []))) = none := by decide +kernel

theorem witness_IdleStepsOnlyTick :
    (patched true true).cfg.ok = true ∧ (patched true true).midCommand = false ∧ (patched true true).inputs = [] ∧
      (patched false true).io.vcom.running = false := by decide

theorem witness_EveryPacketEndsWithItsResult :
    after (fun t => t.result) (runPacket [0x03000000] (patched true true)) = some .invalidCommand := by decide +kernel

theorem witness_EveryPacketIsAnsweredOnce :
    Inv (waiting true (.packet [0x11000000])) ∧
      ∀ input ∈ (waiting true (.packet [0x11000000])).inputs, ∃ ws, input = .packet ws ∧ ws ≠ [] :=
  ⟨inv_waiting _ _, fun input h => ⟨[0x11000000], by simpa [waiting] using h, by simp⟩⟩

theorem witness_ResetMeetsTheInvariant : (panel 8 255).ok = true ∧ (panel 65528 1).ok = true := by decide

theorem witness_StepKeepsTheInvariant :
    Inv (waiting true (.packet [0x02000000])) ∧
      after (fun t => t.pstate) (step (waiting true (.packet [0x02000000]))) = some .off :=
  ⟨inv_waiting _ _, by decide +kernel⟩

theorem witness_OnlyResetClearsFault :
    noReset [Input.packet [0x02000000]] = true ∧
      after (fun t => t.fault) (step { waiting true (.packet [0x02000000]) with fault := true }) = some true := by
  decide +kernel

/-- One row too far, and one column too far. -/
theorem witness_OnlyABadRectangleSetsFault :
    (waiting true (.packet [0x10000000, 0, 0x00090000])).fault = false ∧
      after (fun t => t.fault) (step (waiting true (.packet [0x10000000, 0, 0x00090000]))) = some true ∧
      after (fun t => t.fault) (step (waiting true (.packet [0x10000000, 0x00090000, 0]))) = some true := by
  decide +kernel

theorem witness_ConfigurationNeverChanges :
    after (fun t => t.cfg.width) (step (waiting true .reset)) = some 8 := by decide +kernel

theorem witness_IssuedHandlesAreNeverReused :
    let s := { waiting true (.packet [0x40000000, 0, 0x00010001, 0]) with nextHandle := 3 }
    ((2 : Word) ≠ 0 ∧ (2 : Word) < s.nextHandle ∧ noReset s.inputs = true ∧ ∀ e ∈ s.liveEntries, e.handle ≠ 2) ∧
      after (fun t => t.nextHandle) (step s) = some 4 := by decide +kernel

/-- One state and command for each code that a check gives, each at the first operand that fails it. -/
theorem witness_FailedChecksHaveNoEffect :
    commandCheck (patched true true) .enable = some .sequenceError ∧
      commandCheck (patched false true) .disable = some .sequenceError ∧
      commandCheck (patched true true) (.damage 0 9 0 0) = some .preconditionFault ∧
      commandCheck (patched true true) (.damage 0 8 0 9) = some .preconditionFault ∧
      commandCheck { patched true true with fault := true } .refresh = some .preconditionFault ∧
      commandCheck (patched true true) (.setIndicator 6 0) = some .indexOutOfRange ∧
      commandCheck (patched true true) (.ovlAdd 0 0 0 1 []) = some .invalidGeometry ∧
      commandCheck (patched true true) (.ovlAdd 8 0 1 1 [0]) = some .invalidGeometry ∧
      commandCheck { patched true true with nextHandle := 0 } (.ovlAdd 7 7 1 1 [0]) = some .capacityExceeded ∧
      commandCheck (patched true true) (.ovlShow 0) = some .invalidHandle ∧
      commandCheck (patched true true) (.ovlHide 2) = some .invalidHandle ∧
      commandCheck (patched true true) (.ovlRemove 2) = some .invalidHandle := by decide +kernel

theorem witness_PreciseErrorsHaveNoEffect :
    after (fun t => t.result.bits.toNat) (runPacket [0x40000000, 0, 0] (patched true true)) = some 3 ∧
      after (fun t => t.result.bits.toNat) (runPacket [0x10000000, 9, 0] (patched true true)) = some 9 := by
  decide +kernel

theorem witness_EnablePowersThePanelUp :
    (patched false true).fault = false ∧ (patched false true).pstate = .off ∧
      (patched false true).io.vcom.running = false ∧ busRefusal (patched false true).io.bus 2 = none := by
  decide +kernel

/-- The bus refuses the first byte, the second, or reports an error at the end. -/
theorem witness_FailedClearLeavesThePanelOff :
    busRefusal ⟨[false], 0⟩ 2 = some 0 ∧ busRefusal ⟨[true, false], 0⟩ 2 = some 1 ∧
      busRefusal ⟨[true, true, false], 0⟩ 2 = some 2 ∧
      { patched false true with io := { pins false with bus := ⟨[false], 0⟩ } }.pstate = .off := by decide +kernel

theorem witness_DisablePowersThePanelDown :
    (patched true true).pstate = .active ∧ { patched true true with fault := true }.pstate = .active := by decide

/-- The timer stopped; a write that takes; a write that does not, at the largest count. -/
theorem witness_TicksToggleOrCount :
    (waiting false .tick).cfg.ok = true ∧ (waiting false .tick).midCommand = false ∧
      (waiting false .tick).inputs = [.tick] ∧ (waiting false .tick).io.vcom.running = false ∧
      (waiting true .tick).io.vcom.running = true ∧ (waiting true .tick).midCommand = false ∧
      (waiting true .tick).io.vpin.peek Config.freeVpin 0 = true ∧
      (⟨[false], 0⟩ : Source Bool).peek Config.freeVpin 0 = false := by decide

theorem witness_VtimerRestsUntilEnable :
    (waiting false (.packet [0x11000000])).io.vcom.running = false ∧
      noReset (waiting false (.packet [0x11000000])).inputs = true ∧
      after (fun t => t.io.vcom.running) (step (waiting false (.packet [0x11000000]))) = some false := by decide +kernel

theorem witness_VcomStateFollowsTheVcomEvents :
    noReset (waiting true .tick).inputs = true ∧
      after (fun t => (vcomLevels t.io.trace, t.io.vcom.toggle)) (step (waiting true .tick)) = some ([true], true) := by
  decide +kernel

theorem witness_VcomLevelsAlternate :
    Inv (waiting true .tick) ∧ (waiting true .tick).io.vcom.running = true ∧
      after (fun t => (vcomLevels t.io.trace, t.io.vcom.running)) (step (waiting true .tick)) = some ([true], true) :=
  ⟨inv_waiting _ _, rfl, by decide +kernel⟩

/-- A block in Active that waits for its host, who stays away. -/
def waits (k : Nat) : State := { patched true true with io := Io.idle^[k] (pins true) }

theorem waits_running (k : Nat) : (waits k).io.vcom.running = true ∧ (waits k).io.vcom.lock = none := by
  induction k with
  | zero => exact ⟨rfl, rfl⟩
  | succ k ih =>
    have h := Io.idle_ticked (waits k).io
    have he : (waits (k + 1)).io = (waits k).io.idle := Function.iterate_succ_apply' Io.idle k (pins true)
    rw [he]
    exact ⟨h.running.trans ih.1, h.unlocked ih.2⟩

theorem waits_step (k : Nat) : step (waits k) = .next (waits (k + 1)) := by
  have hm : (waits k).midCommand = false := by
    show ((waits k).updateLockHeld || (waits k).io.vcom.lock.isSome) = false
    rw [(waits_running k).2]; rfl
  rw [step_waits (s := waits k) (inv_patched true true).config hm rfl, waits, waits, Function.iterate_succ_apply']

theorem witness_ClosedRunsAreFair : ∀ k, step (waits k) = .next (waits (k + 1)) := waits_step

theorem waits_fair : Fair waits := by
  intro k
  obtain ⟨e, rest, ht, hv⟩ := Io.idle_event (waits_running k).1
  refine ⟨k, Nat.le_refl k, .inr ⟨e, ?_, hv⟩⟩
  have he : (waits (k + 1)).io = (waits k).io.idle := Function.iterate_succ_apply' Io.idle k (pins true)
  simp [newEvents, he, ht]

theorem witness_FairRunsKeepVcomAlternating :
    OpenRun waits (fun _ => []) ∧ Fair waits ∧ Inv (waits 0) ∧ ∀ k, 0 ≤ k → (waits k).io.vcom.running = true :=
  ⟨waits_step, waits_fair, inv_patched true true, fun k _ => (waits_running k).1⟩

theorem witness_OnlyEnableAndDisableMoveThePanel :
    after (fun t => t.pstate) (exec .wireClear (patched true true)) = some .active := by decide +kernel

/-- Two states that differ in VCOM_TOGGLE, VCOM_OUT and VCOM_MISSED only. -/
theorem witness_InstructionsDoNotDependOnTicks :
    (patched true true).withoutVcom =
      ({ patched true true with io := { pins true with vcom := ⟨true, true, 7, true, none⟩ } } : State).withoutVcom := rfl

theorem witness_DamageSendsThePicture :
    Inv (patched true true) ∧ (patched true true).fault = false ∧ (patched true true).pstate = .active ∧
      (8 : Half).toNat ≤ (patched true true).cfg.width ∧ (7 : Half).toNat < (8 : Half).toNat ∧
      (8 : Half).toNat ≤ (patched true true).cfg.height := ⟨inv_patched _ _, by decide⟩

theorem witness_RefreshSendsTheWholePicture :
    Inv (patched true true) ∧ (patched true true).fault = false ∧ (patched true true).pstate = .active :=
  ⟨inv_patched _ _, by decide⟩

theorem witness_ChangedSettingsResendThePanel :
    Inv (patched true false) ∧ (patched true false).fault = false ∧ (patched true false).pstate = .active ∧
      true ≠ (patched true false).invert ∧ DitherMode.four ≠ (patched true false).ditherMode ∧
      (255 : Byte) ≠ (patched true false).cutoff := ⟨inv_patched _ _, by decide⟩

theorem witness_SetIndicatorResendsTheStrip :
    Inv (patched true true) ∧ (patched true true).fault = false ∧ (patched true true).pstate = .active ∧
      (5 : Byte).toNat < 6 ∧ (0 : Byte).toNat < 6 := ⟨inv_patched _ _, by decide⟩

theorem witness_OverlayChangesResendThePanel :
    Inv (patched true true) ∧ (patched true true).fault = false ∧ (patched true true).pstate = .active ∧
      whitePatch true ∈ (patched true true).liveEntries ∧ (whitePatch true).visible = true :=
  ⟨inv_patched _ _, by decide⟩

theorem witness_UpdatesOutsideActiveAreSkipped :
    Inv (patched false true) ∧ (patched false true).fault = false ∧ (patched false true).pstate ≠ .active ∧
      whitePatch true ∈ (patched false true).liveEntries ∧ (whitePatch true).visible = true ∧
      true ≠ (patched false true).invert ∧ DitherMode.two ≠ (patched false true).ditherMode ∧
      (0 : Byte) ≠ (patched false true).cutoff ∧ (5 : Byte).toNat < 6 ∧
      (8 : Half).toNat ≤ (patched false true).cfg.height := ⟨inv_patched _ _, by decide⟩

theorem witness_UnchangedOutputSendsNothing :
    Inv (patched true false) ∧ (patched true false).fault = false ∧ (patched true false).pstate = .active ∧
      whitePatch false ∈ (patched true false).liveEntries ∧ (whitePatch false).visible = false ∧
      (8 : Half).toNat ≤ (patched true false).cfg.height := ⟨inv_patched _ _, by decide⟩

/-- The last handle, in the corner of the panel. -/
theorem witness_OvlAddMakesAHiddenEntry :
    let s := { patched true true with nextHandle := 0xFFFFFFFF }
    Inv s ∧ s.fault = false ∧ s.nextHandle ≠ 0 ∧ (7 : Half).toNat + (1 : Half).toNat ≤ s.cfg.width ∧
      (7 : Half).toNat + (1 : Half).toNat ≤ s.cfg.height ∧ s.liveEntries.length < s.cfg.maxOverlays :=
  ⟨inv_lastHandle, by decide, by decide, by decide, by decide, by decide⟩

theorem witness_RemovedHandlesAreStale :
    (patched true true).fault = false ∧ whitePatch true ∈ (patched true true).liveEntries := by decide

theorem witness_PseudoCommandsExpand : (panel 65528 255).ok = true ∧ (patched true true).cfg = panel 8 8 :=
  ⟨by decide, rfl⟩

theorem witness_WireFormsAreOneTransaction :
    (Instr.wireWriteLines 7 [[0xFF]]).wf (patched true true).cfg = true := by decide

theorem witness_StepsKeepTheBusDiscipline :
    Inv (waiting true (.packet [0x11000000])) ∧ wholeInput (waiting true (.packet [0x11000000])).inputs = true ∧
      after (fun t => busRun t.cfg .idle t.io.trace) (step (waiting true (.packet [0x11000000]))) =
        some (some .idle) := ⟨inv_waiting _ _, rfl, by decide +kernel⟩

theorem witness_StepsKeepThePanelDiscipline :
    Inv (waiting false (.packet [0x01000000])) ∧ ordinaryInput (waiting false (.packet [0x01000000])).inputs = true ∧
      after (fun t => panelRun t.cfg .off t.io.trace) (step (waiting false (.packet [0x01000000]))) =
        some (some .running) := ⟨inv_waiting _ _, rfl, by decide +kernel⟩

/-- The last pixel of the entry; an entry below the rows [2, 3); a byte of another row. -/
theorem witness_OverlaysAreReproducedExactly :
    Inv (patched true true) ∧ whitePatch true ∈ (patched true true).liveEntries ∧
      (patched true true).cfg.overlaysEnabled = true ∧ (whitePatch true).visible = true ∧
      3 < (whitePatch true).w.toNat ∧ 1 < (whitePatch true).h.toNat ∧
      (∀ f ∈ (patched true true).liveEntries, f.handle ≤ (whitePatch true).handle) ∧
      (patched true true).indicatorByte 7 1 = none ∧ (whitePatch true).y.toNat + (whitePatch true).h.toNat ≤ 2 ∧
      ¬ (2 * (patched true true).cfg.width ≤ 15 ∧ 15 < 3 * (patched true true).cfg.width) :=
  ⟨inv_patched _ _, by decide, by decide, by decide, by decide, by decide, by decide, by decide, by decide, by decide⟩

/-- A letter in slot 0 of a panel as wide as its cell. -/
def lettered : State := { patched true true with ind := #v[0x41, 0, 0, 0, 0, 0] }

theorem inv_lettered : Inv lettered :=
  let h := inv_patched true true
  ⟨h.config, h.idle, h.unlocked, h.deselected, h.settled, h.timer, h.panel, h.vcomLow, h.vcomLevel, h.skip, h.slots,
    h.entriesFit, h.entriesIssued, h.handlesDistinct, h.grayForm, h.grayInside, h.taggedForm, h.taggedInside⟩

/-- The first column in the first row and the last column in the last row, in updates of the rows [0, 8) and [7, 8). -/
theorem witness_IndicatorCellsCoverTheStrip :
    Inv lettered ∧ lettered.cfg.indicatorsEnabled = true ∧ lettered.ind.toList.getD 0 0 ≠ 0 ∧
      8 ≤ lettered.cfg.height ∧ 0 < lettered.cfg.glyphSize ∧
        0 + lettered.cfg.glyphSize * (0 + 1) = lettered.cfg.width + 0 ∧ 7 < lettered.cfg.glyphSize ∧
        7 + lettered.cfg.glyphSize * (0 + 1) = lettered.cfg.width + 7 :=
  ⟨inv_lettered, by decide⟩

/-- A group of zeros at cutoffs 1 and 255, a group of 255s, and cutoff 0. -/
theorem witness_UniformGroupsGiveUniformBytes :
    convertByte ⟨panel 8 8, false, .off, 1⟩ (fun _ => 0) 0 0 = 0x00 ∧
      convertByte ⟨panel 8 8, false, .off, 255⟩ (fun _ => 0) 0 0 = 0x00 ∧
      convertByte ⟨panel 8 8, true, .two, 0⟩ (fun _ => 255) 3 0 = 0x00 ∧
      convertByte ⟨panel 8 8, false, .off, 0⟩ (fun _ => 0) 0 0 = 0xFF := by decide +kernel

/-- Row 1 alone and inside a range, in the 4×4 mode, from other contents of TAGGED. -/
theorem witness_TaggedLinesHaveNoHiddenState :
    (convertRow ⟨panel 8 4, false, .four, 0⟩ (fun _ => 96) 1 1 []).read (fun _ => 7) 1 = 0x44 ∧
      (convertRow ⟨panel 8 4, false, .four, 9⟩ (fun _ => 96) 0 1 [(4, 5)]).read (fun _ => 8) 4 = 0x44 := by
  decide +kernel

end Sys2Proof.Tests
end

section
/-! When a step answers a next state, and which: one equation for each way that a step can go. -/

namespace Sys2Proof.Machine

/-! ### Instructions and packets -/

/-- Every instruction has a meaning in every state: the block has no trap (60_exceptions.md R125). -/
theorem exec_answers (i : Instr) (s : State) : ∃ t, exec i s = .next t := by
  cases i <;> exact ⟨_, rfl⟩

/-- Of all packets only the one without a word is told to be empty (30_encoding.md R58, R64). -/
theorem decodePacket_eq_emptyPacket_iff (ws : List Word) : decodePacket ws = .error .emptyPacket ↔ ws = [] := by
  cases ws with
  | nil => simp [decodePacket]
  | cons header ops =>
    simp only [reduceCtorEq, iff_false]
    unfold decodePacket
    dsimp only
    repeat' split
    all_goals simp

/-- A packet that is a command runs it (42_update.md R93). -/
theorem runPacket_decoded {ws : List Word} {i : Instr} (h : decodePacket ws = .ok i) (s : State) :
    runPacket ws s = exec i s := by
  simp [runPacket, h]

/-- A packet with a word that is no command is rejected (42_update.md R93). -/
theorem runPacket_rejected {ws : List Word} {e : DecodeError} (h : decodePacket ws = .error e) (hne : ws ≠ [])
    (s : State) : runPacket ws s = .next (rejectPacket s) := by
  cases e with
  | emptyPacket => exact absurd ((decodePacket_eq_emptyPacket_iff ws).1 h) hne
  | _ => simp [runPacket, h]

/-- EXEC answers every packet but the one without a word (30_encoding.md R58). -/
theorem runPacket_answers_iff (ws : List Word) (s : State) : (∃ t, runPacket ws s = .next t) ↔ ws ≠ [] := by
  constructor
  · rintro ⟨t, ht⟩ rfl
    cases ht
  · intro hne
    cases hd : decodePacket ws with
    | ok i => rw [runPacket_decoded hd]; exact exec_answers i s
    | error e => exact ⟨_, runPacket_rejected hd hne s⟩

/-! ### Wire forms (log 7) -/

/-- Bytes that are a wire form run it. -/
theorem runWire_decoded {bs : List Byte} {i : Instr} {s : State} (h : decodeWire s.cfg bs = .ok i) :
    runWire bs s = exec i s := by
  simp [runWire, h]

/-- The transmitter answers exactly the bytes of a wire form (30_encoding.md R69). -/
theorem runWire_answers_iff (bs : List Byte) (s : State) :
    (∃ t, runWire bs s = .next t) ↔ ∃ i, decodeWire s.cfg bs = .ok i := by
  cases hd : decodeWire s.cfg bs with
  | ok i => simp [runWire_decoded hd, exec_answers]
  | error e => simp [runWire, hd]

/-! ### A reset inside a command -/

/-- The reset inside a packet's command answers where the packet does (70_reset_and_hazards.md R137). -/
theorem runInput_resetDuring_answers_iff (ws : List Word) (events : Nat) (s : State) :
    (∃ t, runInput (.resetDuring ws events) s = .next t) ↔ ws ≠ [] := by
  rw [← runPacket_answers_iff ws s]
  cases hp : runPacket ws s <;> simp [runInput, hp]

/-! ### One step -/

/-- A configuration that R8 does not admit has no step (00_scope.md R9). -/
theorem step_badConfiguration {s : State} (hc : s.cfg.ok = false) : step s = .refused .badConfiguration := by
  simp [step, nextMove, hc]

/-- Between commands a step takes the next input (log 8). -/
theorem step_takes {s : State} {input : Input} {rest : List Input} (hc : s.cfg.ok = true) (hm : s.midCommand = false)
    (hi : s.inputs = input :: rest) : step s = runInput input { s with inputs := rest } := by
  cases input <;> simp [step, nextMove, hc, hm, hi]

/-- The reset input is taken inside a command too (70_reset_and_hazards.md R138). -/
theorem step_resets {s : State} {rest : List Input} (hc : s.cfg.ok = true) (hi : s.inputs = .reset :: rest) :
    step s = .next ({ s with inputs := rest } : State).resetInput := by
  simp [step, nextMove, hc, hi, runInput]

/-- A step is taken at an admitted configuration only (00_scope.md R9). -/
theorem ok_of_step_answers {s : State} (h : ∃ t, step s = .next t) : s.cfg.ok = true := by
  obtain ⟨t, ht⟩ := h
  by_contra hc
  rw [step_badConfiguration (by simpa using hc)] at ht
  cases ht

/-- Inside a command or a tick nothing but the reset input is taken (log 12). -/
theorem step_midCommand {s : State} (hc : s.cfg.ok = true) (hm : s.midCommand = true)
    (hr : s.inputs.head? ≠ some .reset) : step s = .fault .midCommand := by
  cases hi : s.inputs with
  | nil => simp [step, nextMove, hc, hm, hi]
  | cons input rest =>
    cases input with
    | reset => exact absurd (by simp [hi]) hr
    | _ => simp [step, nextMove, hc, hm, hi]

/-- A step that does not start with the reset is taken between commands only. -/
theorem between_of_step_answers {s : State} (hr : s.inputs.head? ≠ some .reset) (h : ∃ t, step s = .next t) :
    s.midCommand = false := by
  by_contra hm
  have hf := step_midCommand (ok_of_step_answers h) (by simpa using hm) hr
  obtain ⟨t, ht⟩ := h
  rw [hf] at ht
  cases ht

/-- A step on an input other than the reset answers exactly between commands, at an admitted configuration, where the
input itself is answered. -/
theorem step_answers_iff {s : State} {input : Input} {rest : List Input} (hi : s.inputs = input :: rest)
    (hr : input ≠ .reset) :
    (∃ t, step s = .next t) ↔
      s.cfg.ok = true ∧ s.midCommand = false ∧ ∃ t, runInput input { s with inputs := rest } = .next t := by
  constructor
  · intro h
    have hc := ok_of_step_answers h
    have hm := between_of_step_answers (by simpa [hi] using hr) h
    exact ⟨hc, hm, step_takes hc hm hi ▸ h⟩
  · rintro ⟨hc, hm, h⟩
    exact (step_takes hc hm hi).symm ▸ h

/-! ### The obligations -/

/-- Settles O23: every step keeps the configuration, the reset included. -/
theorem configurationNeverChanges : Obligations.ConfigurationNeverChanges :=
  fun _ _ he => (step_kept he).1

/-- Settles O8: between commands the step takes the input, and the input runs what it decodes to. -/
theorem stepRunsTheDecodedInstruction : Obligations.StepRunsTheDecodedInstruction := by
  intro s rest i hc hm
  constructor
  · intro ws hi hd
    exact (step_takes hc hm hi).trans (runPacket_decoded hd _)
  · intro bs hi hd
    exact (step_takes hc hm hi).trans (runWire_decoded hd)

/-- Settles O15, by cases on the next input: no step at a bad configuration, none inside a command but the reset, and
each input answered on its own terms. -/
theorem stepStopsOnlyOutsideTheRules : Obligations.StepStopsOnlyOutsideTheRules := by
  intro s
  cases hi : s.inputs with
  | nil =>
    constructor
    · intro h
      exact ⟨ok_of_step_answers h, between_of_step_answers (by simp [hi]) h⟩
    · rintro ⟨hc, hm⟩
      exact ⟨_, step_waits hc hm hi⟩
  | cons input rest =>
    cases input with
    | packet ws => exact (step_answers_iff hi nofun).trans (by simp only [runInput, runPacket_answers_iff])
    | wire bs => exact (step_answers_iff hi nofun).trans (by simp only [runInput, runWire_answers_iff, decode])
    | statusRead r => exact (step_answers_iff hi nofun).trans (by simp [runInput])
    | tick => exact (step_answers_iff hi nofun).trans (by simp [runInput])
    | reset =>
      constructor
      · intro h
        exact ⟨ok_of_step_answers h, trivial⟩
      · rintro ⟨hc, -⟩
        exact ⟨_, step_resets hc hi⟩
    | resetDuring ws events =>
      exact (step_answers_iff hi nofun).trans (by simp only [runInput_resetDuring_answers_iff])

end Sys2Proof.Machine
end

section
/-! What EXEC's work holds on the pins outside ENABLE and DISABLE, and the pins as they settle between commands. -/

namespace Sys2Proof.Machine

/-- What EXEC's work on the pins keeps outside ENABLE and DISABLE, ticks included: display-enable, the timer and the
free lock, VCOM's level, a deasserted chip select (10_state.md R36 to R39). -/
structure Io.Held (a b : Io) : Prop where
  disp : b.disp = a.disp
  running : b.vcom.running = a.vcom.running
  unlocked : a.vcom.lock = none → b.vcom.lock = none
  level : a.vcom.toggle = a.vcom.out → b.vcom.toggle = b.vcom.out
  still : a.vcom.running = false → b.vcom = a.vcom
  deselected : a.cs = false → b.cs = false

theorem Io.Held.refl (io : Io) : io.Held io := ⟨rfl, rfl, id, id, fun _ => rfl, id⟩

theorem Io.Held.trans {a b c : Io} (h1 : a.Held b) (h2 : b.Held c) : a.Held c :=
  ⟨h2.disp.trans h1.disp, h2.running.trans h1.running, h2.unlocked ∘ h1.unlocked, h2.level ∘ h1.level,
    fun hr => (h2.still (h1.running.trans hr)).trans (h1.still hr), h2.deselected ∘ h1.deselected⟩

theorem Ticked.held {a b : Io} (h : Ticked a b) : a.Held b :=
  ⟨h.disp, h.running, h.unlocked, h.level, fun hr => by rw [h.stopped hr], h.cs.trans⟩

theorem Io.Emits.held {a b : Io} {evs : List Event} (h : a.Emits evs b) : a.Held b :=
  have e := h.emitted
  ⟨e.disp, e.running, e.unlocked, e.level, e.still, e.cs.trans⟩

/-- A transaction leaves the chip select deasserted, from any level (41_transport.md R86). -/
theorem Io.transaction_held (c : Config) (bytes : List Byte) (io : Io) : io.Held (io.transaction c bytes).1 :=
  have hsent : ∀ n, io.Held (io.sent n) := fun _ => ⟨rfl, rfl, id, id, fun _ => rfl, fun _ => rfl⟩
  (hsent _).trans (Io.transaction_spec c bytes io).2.held

theorem update_held (y1 y2 : Nat) (s : State) : s.io.Held (update y1 y2 s).1.io := by
  unfold update
  split
  · exact .refl _
  · split
    · exact .refl _
    · exact (s.io.emit_emits (.frameRead y1 y2)).held.trans (Io.transaction_held _ _ _)

theorem finish_held (r : Reply) (s : State) : s.io.Held (finish r s).io := (s.io.emit_emits (.result r.code)).held

/-- The pins as the invariant has them, in Active or not (10_state.md R36 to R39). -/
structure Io.Settled (active : Prop) (io : Io) : Prop where
  unlocked : io.vcom.lock = none
  deselected : io.cs = false
  timer : io.vcom.running = true ↔ active
  panel : io.disp = true ↔ active
  vcomLow : ¬ active → io.vcom.out = false
  vcomLevel : io.vcom.toggle = io.vcom.out

theorem Io.Settled.held {active : Prop} {a b : Io} (h : a.Settled active) (k : a.Held b) : b.Settled active where
  unlocked := k.unlocked h.unlocked
  deselected := k.deselected h.deselected
  timer := by rw [k.running]; exact h.timer
  panel := by rw [k.disp]; exact h.panel
  vcomLow hn := by
    rw [k.still (by simpa using mt h.timer.1 hn)]
    exact h.vcomLow hn
  vcomLevel := k.level h.vcomLevel

/-- The pins after a power-up whose clear succeeds (43_power_vcom.md R103). -/
theorem Io.Settled.poweredUp {io : Io} (h : io.Settled False) (c : Config) :
    ((io.powerUp c).clearScreen c).1.startTimer.Settled True := by
  have hr : io.vcom.running = false := by simpa using h.timer.1
  rw [(Io.powerUp_clearScreen c hr).2]
  exact ⟨h.unlocked, rfl, by simp, by simp, fun _ => rfl, rfl⟩

/-- The pins after a power-up whose clear fails (43_power_vcom.md R103). -/
theorem Io.Settled.clearFailed {io : Io} (h : io.Settled False) (c : Config) :
    (((io.powerUp c).clearScreen c).1.driveDisp false).Settled False := by
  have hr : io.vcom.running = false := by simpa using h.timer.1
  rw [(Io.powerUp_clearScreen c hr).2, Io.driveDisp, Io.act_stopped]
  · exact ⟨h.unlocked, rfl, by simp [hr], by simp, fun _ => rfl, rfl⟩
  · exact hr

end Sys2Proof.Machine
end

section
/-! What an instruction and a step can do, said once: every rule stores something and then perhaps runs an update, or
moves the panel's power; every step waits, runs an instruction, or does one of the host's other moves. -/

namespace Sys2Proof.Machine

/-! ### What a command stores -/

/-- What a command can make of the registry and NEXT_HANDLE (45_overlay.md R115 to R119). -/
inductive RegistryMove (c : Config) (ent : List (Option Overlay)) (next : Word) :
    Instr → List (Option Overlay) → Word → Prop
  | same {i : Instr} : RegistryMove c ent next i ent next
  | shown {i : Instr} (handle : Word) (v : Bool) :
    RegistryMove c ent next i (mapHandle handle (fun e => { e with visible := v }) ent) next
  | removed {i : Instr} (handle : Word) : RegistryMove c ent next i (dropHandle handle ent) next
  | cleared {i : Instr} : RegistryMove c ent next i (ent.map fun _ => none) next
  | added {x y w h : Half} {pix : List Byte} (area : emptyArea w h = false) (inside : exceedsPanel c x y w h = false)
      (left : next ≠ 0) (free : (ent.filterMap id).length ≠ c.maxOverlays) :
    RegistryMove c ent next (.ovlAdd x y w h pix) (placeEntry (newEntry next x y w h pix) ent) (handleAfter next)

/-- `u` is `s` with what the rule of the instruction stores before its update: a setting, an indicator, FAULT, the
registry (42_update.md R100, 44_control.md R111 to R114, 45_overlay.md R115 to R119). -/
structure Stored (i : Instr) (s u : State) : Prop where
  frame : u = { s with
    invert := u.invert
    ditherMode := u.ditherMode
    cutoff := u.cutoff
    fault := u.fault
    ind := u.ind
    ent := u.ent
    nextHandle := u.nextHandle }
  registry : RegistryMove s.cfg s.ent s.nextHandle i u.ent u.nextHandle

theorem Stored.refl (i : Instr) (s : State) : Stored i s s := ⟨rfl, .same⟩

theorem Stored.cfg {i : Instr} {s u : State} (h : Stored i s u) : u.cfg = s.cfg := by rw [h.frame]
theorem Stored.pstate {i : Instr} {s u : State} (h : Stored i s u) : u.pstate = s.pstate := by rw [h.frame]
theorem Stored.io {i : Instr} {s u : State} (h : Stored i s u) : u.io = s.io := by rw [h.frame]

/-! ### What a rule can do -/

/-- The ways the rule of a command can go: it stores, it stores and runs an update, or it moves the panel's power, which
leaves settled pins settled. -/
inductive Ruled (i : Instr) (s : State) : State × Reply → Prop
  | stored {u : State} {r : Reply} (h : Stored i s u) (skip : r.skipped = false) : Ruled i s (u, r)
  | updated {u : State} (h : Stored i s u) {y1 y2 : Nat} (rows : y1 ≤ y2) (onPanel : y2 ≤ s.cfg.height) :
    Ruled i s (update y1 y2 u)
  | powered {p : PowerState} {io : Io} {r : Reply} (on : i = .enable ∨ i = .disable) (skip : r.skipped = false)
      (settled : p = .off ∨ p = .active)
      (pins : s.io.Settled (s.pstate = .active) → io.Settled (p = .active)) :
    Ruled i s ({ s with pstate := p, io := io }, r)

theorem Ruled.fullRefresh {i : Instr} {s u : State} (h : Stored i s u) : Ruled i s (fullRefresh u) :=
  .updated h (Nat.zero_le _) (by rw [h.cfg])

theorem Ruled.stripRefresh {i : Instr} {s u : State} (h : Stored i s u) : Ruled i s (stripRefresh u) :=
  .updated h (Nat.zero_le _) (by rw [h.cfg]; exact Nat.min_le_right _ _)

/-- A check that fails leaves the state as it was. -/
theorem Ruled.raise (i : Instr) (c : ResultCode) (s : State) : Ruled i s (raise c s) := .stored (.refl i s) rfl

theorem enableRule_ruled (s : State) : Ruled .enable s (enableRule s) := by
  by_cases off : s.pstate = .off
  · have down : s.io.Settled (s.pstate = .active) → s.io.Settled False := by simp [off]
    cases hc : ((s.io.powerUp s.cfg).clearScreen s.cfg).2 with
    | true =>
      rw [enableRule_ok off hc]
      exact .powered (.inl rfl) rfl (.inr rfl) fun h => by simpa using (down h).poweredUp s.cfg
    | false =>
      rw [enableRule_fail off hc]
      exact .powered (.inl rfl) rfl (.inl off) fun h => by simpa [off] using (down h).clearFailed s.cfg
  · rw [show enableRule s = Machine.raise .sequenceError s by simp [enableRule, off]]
    exact .raise _ _ s

theorem disableRule_ruled (s : State) : Ruled .disable s (disableRule s) := by
  by_cases active : s.pstate = .active
  · obtain ⟨n, ticks, he⟩ := disableRule_active active
    rw [he]
    refine .powered (.inr rfl) rfl (.inl rfl) fun h => ?_
    exact ⟨rfl, (Io.ticksDone_ticked n s.io).cs.trans h.deselected, by simp, by simp, fun _ => rfl, rfl⟩
  · rw [show disableRule s = Machine.raise .sequenceError s by simp [disableRule, active]]
    exact .raise _ _ s

theorem damageRule_ruled (x1 x2 y1 y2 : Half) (s : State) :
    Ruled (.damage x1 x2 y1 y2) s (damageRule x1 x2 y1 y2 s) := by
  unfold damageRule
  split
  · next h =>
    simp only [rectInPanel, decide_eq_true_eq] at h
    exact .updated (.refl _ s) h.2.2.1 h.2.2.2
  · exact .stored ⟨rfl, .same⟩ rfl

theorem setInvertRule_ruled (v : Bool) (s : State) : Ruled (.setInvert v) s (setInvertRule v s) := by
  unfold setInvertRule
  dsimp only
  split
  · exact .fullRefresh ⟨rfl, .same⟩
  · exact .stored ⟨rfl, .same⟩ rfl

theorem setDitherRule_ruled (m : DitherMode) (s : State) : Ruled (.setDither m) s (setDitherRule m s) := by
  unfold setDitherRule
  dsimp only
  split
  · exact .fullRefresh ⟨rfl, .same⟩
  · exact .stored ⟨rfl, .same⟩ rfl

theorem setCutoffRule_ruled (c : Byte) (s : State) : Ruled (.setCutoff c) s (setCutoffRule c s) := by
  unfold setCutoffRule
  dsimp only
  split
  · exact .fullRefresh ⟨rfl, .same⟩
  · exact .stored ⟨rfl, .same⟩ rfl

theorem setIndicatorRule_ruled (idx g : Byte) (s : State) :
    Ruled (.setIndicator idx g) s (setIndicatorRule idx g s) := by
  unfold setIndicatorRule
  split
  · exact .stripRefresh ⟨rfl, .same⟩
  · exact .raise _ _ s

theorem ovlAddRule_ruled (x y w h : Half) (pix : List Byte) (s : State) :
    Ruled (.ovlAdd x y w h pix) s (ovlAddRule x y w h pix s) := by
  unfold ovlAddRule
  split
  · exact .raise _ _ s
  next harea =>
  split
  · exact .raise _ _ s
  next hin =>
  split
  · exact .raise _ _ s
  next hfree =>
  rw [not_or] at hfree
  exact .stored ⟨rfl, .added (by simpa using harea) (by simpa using hin) hfree.1 hfree.2⟩ rfl

theorem ovlRemoveRule_ruled (handle : Word) (s : State) : Ruled (.ovlRemove handle) s (ovlRemoveRule handle s) := by
  have hs : Stored (.ovlRemove handle) s (s.updateEntry handle fun _ => none) :=
    ⟨s.updateEntry_eq _ _, by rw [updateEntry_remove]; exact .removed handle⟩
  unfold ovlRemoveRule
  split
  · exact .raise _ _ s
  · dsimp only
    split
    · exact .fullRefresh hs
    · exact .stored hs rfl

theorem setVisible_ruled (i : Instr) (v : Bool) (handle : Word) (s : State) : Ruled i s (setVisible v handle s) := by
  unfold setVisible
  split
  · exact .raise _ _ s
  · exact .fullRefresh ⟨s.updateEntry_eq _ _, by rw [updateEntry_visible]; exact .shown handle v⟩

/-! ### What an instruction can do -/

/-- The ways an instruction can go: a wire form is one transaction (log 7), a command is its rule, or the FAULT check
that turns it away, and then its result (42_update.md R93). -/
inductive Ran (i : Instr) (s : State) : State → Prop
  | wire (bytes : List Byte) : Ran i s { s with io := (s.io.transaction s.cfg bytes).1 }
  | command {out : State × Reply} (h : Ruled i { s with phase := .busy (some i) } out) : Ran i s (finish out.2 out.1)

theorem commandCycle_ran {i : Instr} {rule : State → State × Reply} (h : ∀ s, Ruled i s (rule s)) (s : State) :
    Ran i s (commandCycle i rule s) := by
  rcases commandCycle_cases i rule s with ⟨-, -, he⟩ | ⟨-, he⟩ <;> rw [he]
  · exact .command (.raise i .preconditionFault _)
  · exact .command (h _)

/-- Every instruction goes in one of these ways. -/
theorem exec_ran {i : Instr} {s t : State} (he : exec i s = .next t) : Ran i s t := by
  cases i with
  | enable => exact Host.Outcome.next.inj he ▸ commandCycle_ran enableRule_ruled s
  | disable => exact Host.Outcome.next.inj he ▸ commandCycle_ran disableRule_ruled s
  | damage x1 x2 y1 y2 => exact Host.Outcome.next.inj he ▸ commandCycle_ran (damageRule_ruled x1 x2 y1 y2) s
  | refresh => exact Host.Outcome.next.inj he ▸ commandCycle_ran (fun s' => .fullRefresh (.refl _ s')) s
  | setInvert v => exact Host.Outcome.next.inj he ▸ commandCycle_ran (setInvertRule_ruled v) s
  | setDither m => exact Host.Outcome.next.inj he ▸ commandCycle_ran (setDitherRule_ruled m) s
  | setCutoff c => exact Host.Outcome.next.inj he ▸ commandCycle_ran (setCutoffRule_ruled c) s
  | setIndicator idx g => exact Host.Outcome.next.inj he ▸ commandCycle_ran (setIndicatorRule_ruled idx g) s
  | ovlAdd x y w h pix => exact Host.Outcome.next.inj he ▸ commandCycle_ran (ovlAddRule_ruled x y w h pix) s
  | ovlRemove handle => exact Host.Outcome.next.inj he ▸ commandCycle_ran (ovlRemoveRule_ruled handle) s
  | ovlShow handle => exact Host.Outcome.next.inj he ▸ commandCycle_ran (setVisible_ruled _ true handle) s
  | ovlHide handle => exact Host.Outcome.next.inj he ▸ commandCycle_ran (setVisible_ruled _ false handle) s
  | ovlClear =>
    exact Host.Outcome.next.inj he ▸ commandCycle_ran (fun s' => .fullRefresh ⟨rfl, .cleared⟩) s
  | wireClear => exact Host.Outcome.next.inj he ▸ .wire (clearBytes s.cfg)
  | wireWriteLines y1 rows => exact Host.Outcome.next.inj he ▸ .wire (writeLinesBytes s.cfg y1.toNat rows)

/-- What a rule makes of the registry: updates and the panel's power leave it alone. -/
theorem Ruled.registry {i : Instr} {s : State} {out : State × Reply} (h : Ruled i s out) :
    RegistryMove s.cfg s.ent s.nextHandle i out.1.ent out.1.nextHandle := by
  cases h with
  | stored h _ => exact h.registry
  | @updated u h y1 y2 _ _ => rw [update_frame u y1 y2]; exact h.registry
  | powered _ _ _ _ => exact .same

/-- What an instruction makes of the registry. -/
theorem exec_registry {i : Instr} {s t : State} (he : exec i s = .next t) :
    RegistryMove s.cfg s.ent s.nextHandle i t.ent t.nextHandle := by
  cases exec_ran he with
  | wire bytes => exact .same
  | command h => exact h.registry

/-! ### What a step can do -/

/-- An OVL_ADD of this instruction carries W·H pixel bytes (30_encoding.md R61). -/
def CarriesItsPixels (i : Instr) : Prop := ∀ x y w h pix, i = .ovlAdd x y w h pix → Instr.pixelsFit w h pix = true

/-- An accepted packet has its format's length and stands for the command of its opcode (30_encoding.md R64). -/
theorem decodePacket_ok {ws : List Word} {i : Instr} (h : decodePacket ws = .ok i) :
    ∃ header ops f, ws = header :: ops ∧ opFormat (header.extractLsb' 24 8) = some f ∧ ws.length = f.length ws ∧
      commandOf (header.extractLsb' 24 8) (header.extractLsb' 0 24) ops = some i := by
  cases ws with
  | nil => cases h
  | cons header ops =>
  unfold decodePacket at h
  dsimp only at h
  split at h
  · cases h
  next f hf =>
  split at h
  · cases h
  split at h
  · cases h
  split at h
  · cases h
  next hlen =>
  split at h
  · cases h
  next hc =>
  cases h
  exact ⟨header, ops, f, rfl, hf, not_not.1 hlen, hc⟩

/-- The opcode of OVL_ADD is the only one that stands for it (30_encoding.md R63). -/
theorem commandOf_ovlAdd {op : Byte} {a : BitVec 24} {ops : List Word} {x y w h : Half} {pix : List Byte}
    (hc : commandOf op a ops = some (.ovlAdd x y w h pix)) :
    op.toNat = 0x40 ∧ w = lowHalf (ops.getD 1 0) ∧ h = highHalf (ops.getD 1 0) ∧
      pix = unpackPixels (w.toNat * h.toNat) (ops.drop 2) := by
  unfold commandOf at hc
  dsimp only at hc
  split at hc
  case h_9 hop => cases hc; exact ⟨hop, rfl, rfl, rfl⟩
  case h_6 => cases hm : modeOfBits (a.extractLsb' 0 2) <;> simp [hm] at hc
  all_goals cases hc

theorem unpackPixels_length (n : Nat) (ws : List Word) : (unpackPixels n ws).length = min n (ws.length * 4) := by
  simp [unpackPixels, bytesOfWord, List.length_flatMap]

theorem decodePacket_carriesItsPixels {ws : List Word} {i : Instr} (h : decodePacket ws = .ok i) :
    CarriesItsPixels i := by
  rintro x y w h' pix rfl
  obtain ⟨header, ops, f, rfl, hf, hlen, hc⟩ := decodePacket_ok h
  obtain ⟨hop, rfl, rfl, hpix⟩ := commandOf_ovlAdd hc
  obtain rfl : f = .fo := by simpa [opFormat, hop] using hf.symm
  simp only [Instr.pixelsFit, decide_eq_true_eq]
  rw [hpix, unpackPixels_length, List.length_drop]
  simp only [Format.length, List.length_cons, List.getD_cons_succ, pixelWords] at hlen
  omega

/-- Wire bytes decode to no OVL_ADD (30_encoding.md R69). -/
theorem decodeWire_carriesItsPixels {c : Config} {bs : List Byte} {i : Instr} (h : decodeWire c bs = .ok i) :
    CarriesItsPixels i := by
  rintro x y w h' pix rfl
  unfold decodeWire decodeWriteLines at h
  dsimp only at h
  repeat' split at h
  all_goals cases h

/-- The ways a step can go: it waits, runs the instruction that the next input decodes to, or does one of the host's
other moves. -/
inductive Moved (s : State) : State → Prop
  | waits : Moved s { s with io := s.io.idle }
  | ran {i : Instr} {t : State} (rest : List Input) (pixels : CarriesItsPixels i)
      (he : exec i { s with inputs := rest } = .next t) : Moved s t
  | rejects (rest : List Input) : Moved s (rejectPacket { s with inputs := rest })
  | reads (rest : List Input) (k : BitVec 4) : Moved s (readStatus k { s with inputs := rest })
  | ticks (rest : List Input) : Moved s { s with inputs := rest, io := s.io.tick }
  | resets {rest : List Input} (hi : s.inputs = .reset :: rest) : Moved s ({ s with inputs := rest } : State).resetInput
  | cut {ws : List Word} {events : Nat} {rest : List Input} {done : State}
      (hi : s.inputs = .resetDuring ws events :: rest)
      (hd : runPacket ws { s with inputs := rest } = .next done) :
    Moved s (({ s with inputs := rest } : State).resetWithin done events)

theorem runPacket_moved {ws : List Word} {rest : List Input} {s t : State}
    (he : runPacket ws { s with inputs := rest } = .next t) : Moved s t := by
  cases hd : decodePacket ws with
  | ok i =>
    rw [runPacket_decoded hd] at he
    exact .ran rest (decodePacket_carriesItsPixels hd) he
  | error e =>
    rw [runPacket_rejected hd ((runPacket_answers_iff ws _).1 ⟨t, he⟩)] at he
    exact Host.Outcome.next.inj he ▸ .rejects rest

theorem runWire_moved {bs : List Byte} {rest : List Input} {s t : State}
    (he : runWire bs { s with inputs := rest } = .next t) : Moved s t := by
  obtain ⟨i, hd⟩ := (runWire_answers_iff bs _).1 ⟨t, he⟩
  rw [runWire_decoded hd] at he
  exact .ran rest (decodeWire_carriesItsPixels hd) he

/-- Every step goes in one of these ways. -/
theorem step_moved {s t : State} (he : step s = .next t) : Moved s t := by
  cases hi : s.inputs with
  | nil => exact step_idle hi he ▸ .waits
  | cons input rest =>
    have hc := ok_of_step_answers ⟨t, he⟩
    by_cases hr : input = .reset
    · subst hr
      rw [step_resets hc hi] at he
      exact Host.Outcome.next.inj he ▸ .resets hi
    · rw [step_takes hc (between_of_step_answers (by simpa [hi] using hr) ⟨t, he⟩) hi] at he
      cases input with
      | packet ws => exact runPacket_moved he
      | wire bs => exact runWire_moved he
      | statusRead k => exact Host.Outcome.next.inj he ▸ .reads rest k
      | tick => exact Host.Outcome.next.inj he ▸ .ticks rest
      | reset => exact absurd rfl hr
      | resetDuring ws events =>
        obtain ⟨done, hd⟩ := (runPacket_answers_iff ws { s with inputs := rest }).2
          ((runInput_resetDuring_answers_iff ws events _).1 ⟨t, he⟩)
        simp only [runInput, hd] at he
        exact Host.Outcome.next.inj he ▸ .cut hi hd

end Sys2Proof.Machine
end

section
/-! The invariant between commands: its parts (pins, registry, buffers), what keeps each part, and the reset state that
meets them all. -/

namespace Sys2Proof.Machine

/-! ### The registry -/

/-- The registry as the invariant has it (10_state.md R30, R31). -/
structure RegistryOk (c : Config) (ent : List (Option Overlay)) (next : Word) : Prop where
  slots : ent.length = c.maxOverlays
  fit : ∀ e ∈ ent.filterMap id, e.fits c
  issued : ∀ e ∈ ent.filterMap id, e.issued next
  distinct : ((ent.filterMap id).map (·.handle)).Nodup

theorem lt_handleAfter {h next : Word} (hn : handleAfter next ≠ 0) (hl : h ≤ next) : h < handleAfter next := by
  unfold handleAfter at *
  split at hn
  · exact absurd rfl hn
  · next hmax =>
    rw [if_neg hmax]
    have : next.toNat ≠ 2 ^ 32 - 1 := fun he => hmax (BitVec.eq_of_toNat_eq he)
    bv_omega

/-- A handle that was issued stays so when the next one is. -/
theorem Overlay.issued_handleAfter {e : Overlay} {next : Word} (h : e.issued next) (left : next ≠ 0) :
    e.issued (handleAfter next) :=
  ⟨h.1, fun hn => lt_handleAfter hn (BitVec.le_of_lt (h.2 left))⟩

/-- A new entry fits the panel where the checks of OVL_ADD pass (45_overlay.md R115). -/
theorem newEntry_fits {c : Config} {x y w h : Half} {pix : List Byte} (handle : Word) (area : emptyArea w h = false)
    (inside : exceedsPanel c x y w h = false) (hpix : Instr.pixelsFit w h pix = true) :
    (newEntry handle x y w h pix).fits c := by
  simp only [emptyArea, exceedsPanel, Instr.pixelsFit, decide_eq_false_iff_not, decide_eq_true_eq, not_or] at *
  exact ⟨area, Nat.le_of_not_lt inside.1, Nat.le_of_not_lt inside.2, hpix⟩

/-- Setting the visibility of an entry changes neither the handles nor what the entries cover. -/
theorem RegistryOk.shown {c : Config} {ent : List (Option Overlay)} {next : Word} (h : RegistryOk c ent next)
    (handle : Word) (v : Bool) : RegistryOk c (mapHandle handle (fun e => { e with visible := v }) ent) next := by
  have hlive := liveEntries_mapHandle handle (fun e => { e with visible := v }) ent
  refine ⟨by simpa [mapHandle] using h.slots, fun e he => ?_, fun e he => ?_, ?_⟩ <;> rw [hlive] at *
  · obtain ⟨e', h', rfl⟩ := List.mem_map.1 he
    have := h.fit e' h'
    split <;> exact this
  · obtain ⟨e', h', rfl⟩ := List.mem_map.1 he
    have := h.issued e' h'
    split <;> exact this
  · have hsame : ∀ e : Overlay, (if e.handle = handle then { e with visible := v } else e).handle = e.handle := by
      intro e
      split <;> rfl
    simpa [List.map_map, Function.comp_def, hsame] using h.distinct

/-- Taking entries out of the registry keeps it sound. -/
theorem RegistryOk.fewer {c : Config} {ent ent' : List (Option Overlay)} {next : Word} (h : RegistryOk c ent next)
    (slots : ent'.length = ent.length) (sub : (ent'.filterMap id).Sublist (ent.filterMap id)) :
    RegistryOk c ent' next :=
  ⟨slots.trans h.slots, fun e he => h.fit e (sub.subset he), fun e he => h.issued e (sub.subset he),
    h.distinct.sublist (sub.map _)⟩

/-- An entry under the next handle joins the registry: it fits, and no live entry has its handle (45_overlay.md R115). -/
theorem RegistryOk.added {c : Config} {ent : List (Option Overlay)} {next : Word} (h : RegistryOk c ent next)
    {new : Overlay} (fits : new.fits c) (handle : new.handle = next) (left : next ≠ 0)
    (free : (ent.filterMap id).length ≠ c.maxOverlays) :
    RegistryOk c (placeEntry new ent) (handleAfter next) := by
  have hp := liveEntries_placeEntry new ent
  have hroom : (ent.filterMap id).length < ent.length :=
    Nat.lt_of_le_of_ne (List.length_filterMap_le _ _) (by rwa [h.slots])
  refine ⟨(placeEntry_length _ ent hroom).trans h.slots, fun e he => ?_, fun e he => ?_, ?_⟩
  · rcases List.mem_cons.1 (hp.mem_iff.1 he) with rfl | he
    · exact fits
    · exact h.fit e he
  · rcases List.mem_cons.1 (hp.mem_iff.1 he) with rfl | he
    · exact ⟨handle ▸ left, fun hn => lt_handleAfter hn (BitVec.le_of_eq handle)⟩
    · exact Overlay.issued_handleAfter (h.issued e he) left
  · rw [(hp.map _).nodup_iff, List.map_cons, List.nodup_cons]
    refine ⟨fun hm => ?_, h.distinct⟩
    obtain ⟨e, he, heq⟩ := List.mem_map.1 hm
    exact BitVec.ne_of_lt ((h.issued e he).2 left) (heq.trans handle)

/-- Whatever an instruction makes of the registry keeps it sound (10_state.md R30, R31). -/
theorem RegistryOk.move {c : Config} {i : Instr} {ent ent' : List (Option Overlay)} {next next' : Word}
    (h : RegistryOk c ent next) (hpix : CarriesItsPixels i) (m : RegistryMove c ent next i ent' next') :
    RegistryOk c ent' next' := by
  cases m with
  | same => exact h
  | shown handle v => exact h.shown handle v
  | removed handle =>
    exact h.fewer (List.length_map _) (liveEntries_dropHandle handle ent ▸ List.filter_sublist)
  | cleared => exact h.fewer (List.length_map _) (by simp)
  | added area inside left free => exact h.added (newEntry_fits next area inside (hpix _ _ _ _ _ rfl)) rfl left free

/-! ### The parts together -/

/-- The invariant but for EXEC's phase and STATUS: what holds inside a command too. -/
structure Sound (s : State) : Prop where
  config : s.cfg.ok = true
  settled : s.pstate = .off ∨ s.pstate = .active
  pins : s.io.Settled (s.pstate = .active)
  registry : RegistryOk s.cfg s.ent s.nextHandle
  gray : s.gray.inForm (s.cfg.width * s.cfg.height)
  tagged : s.tagged.inForm (s.cfg.height * s.cfg.stride)

theorem inv_iff_sound (s : State) : Inv s ↔ Sound s ∧ s.phase = .idle ∧ (s.skipped = true → s.result = .ok) := by
  constructor
  · intro h
    have hoff : s.pstate ≠ .active → s.pstate = .off := h.settled.resolve_right
    exact ⟨⟨h.config, h.settled,
      ⟨h.unlocked, h.deselected, h.timer, h.panel, fun hn => h.vcomLow (hoff hn), h.vcomLevel⟩,
      ⟨h.slots, h.entriesFit, h.entriesIssued, h.handlesDistinct⟩, ⟨h.grayForm, h.grayInside⟩,
      ⟨h.taggedForm, h.taggedInside⟩⟩, h.idle, h.skip⟩
  · rintro ⟨⟨hc, hs, hp, hr, hg, ht⟩, hi, hk⟩
    exact ⟨hc, hi, hp.unlocked, hp.deselected, hs, hp.timer, hp.panel, fun h => hp.vcomLow (by simp [h]), hp.vcomLevel,
      hk, hr.slots, hr.fit, hr.issued, hr.distinct, hg.1, hg.2, ht.1, ht.2⟩

/-- The parts of the invariant speak of no phase, STATUS, input or answer read, and of the pins only what is held. -/
theorem Sound.carry {s t : State} (h : Sound s)
    (frame : t = { s with
      phase := t.phase
      result := t.result
      skipped := t.skipped
      resultData := t.resultData
      io := t.io
      reads := t.reads
      inputs := t.inputs })
    (k : s.io.Held t.io) : Sound t := by
  rw [frame]
  exact ⟨h.config, h.settled, h.pins.held k, h.registry, h.gray, h.tagged⟩

theorem Sound.stored {i : Instr} {s u : State} (h : Sound s) (hpix : CarriesItsPixels i) (hu : Stored i s u) :
    Sound u := by
  have hr := h.registry.move hpix hu.registry
  rw [hu.frame]
  exact ⟨h.config, h.settled, h.pins, hr, h.gray, h.tagged⟩

theorem composite_inForm {s : State} (h : Sound s) {y1 y2 : Nat} (h2 : y2 ≤ s.cfg.height) :
    (composite y1 y2 s).gray.inForm (s.cfg.width * s.cfg.height) := by
  have hw : 0 < s.cfg.width := by have := (Config.ok_iff _).1 h.config; omega
  have hload := frameLoad_inForm s.cfg h2 (y1 := y1) (s.frame, s.gray) h.gray
  have hover : Memory.inForm (if s.cfg.overlaysEnabled then
      overlayComposite s.cfg s.ent y1 y2 (frameLoad s.cfg y1 y2 (s.frame, s.gray)).2
      else (frameLoad s.cfg y1 y2 (s.frame, s.gray)).2) (s.cfg.width * s.cfg.height) := by
    split
    · exact overlayComposite_inForm (fun e he => (h.registry.fit e he).2.1) h2 hload
    · exact hload
  unfold composite
  dsimp only
  split
  · exact indicatorComposite_inForm hw _ hover
  · exact hover

/-- An update keeps all of the invariant's parts (42_update.md R95; 20_memory.md R41). -/
theorem Sound.update {s : State} (h : Sound s) {y1 y2 : Nat} (h2 : y2 ≤ s.cfg.height) :
    Sound (update y1 y2 s).1 := by
  have k := update_held y1 y2 s
  unfold Machine.update at *
  split
  · exact h
  · split
    · exact h
    · next ha hy =>
      rw [if_neg ha, if_neg hy] at k
      exact ⟨h.config, h.settled, h.pins.held k, h.registry, composite_inForm h h2,
        convertRows_inForm (composite y1 y2 s).convertSettings _ h2 h.tagged⟩

/-- SKIPPED comes only with OK (42_update.md R96). -/
theorem update_skip (y1 y2 : Nat) (s : State) (h : (update y1 y2 s).2.skipped = true) :
    (update y1 y2 s).2.code = .ok := by
  unfold update transmit at *
  dsimp only at *
  split at h
  · rw [if_pos (by assumption)]; rfl
  · split at h
    · cases h
    · split at h <;> cases h

/-- A rule keeps the parts of the invariant, whatever command it is of. -/
theorem Ruled.sound {i : Instr} {s : State} {out : State × Reply} (hr : Ruled i s out) (h : Sound s)
    (hpix : CarriesItsPixels i) : Sound out.1 := by
  cases hr with
  | stored hu _ => exact h.stored hpix hu
  | updated hu _ h2 => exact (h.stored hpix hu).update (by rw [hu.cfg]; exact h2)
  | powered _ _ settled pins => exact ⟨h.config, settled, pins h.pins, h.registry, h.gray, h.tagged⟩

theorem Ruled.skip {i : Instr} {s : State} {out : State × Reply} (hr : Ruled i s out) (h : out.2.skipped = true) :
    out.2.code = .ok := by
  cases hr with
  | stored _ skip => exact absurd (skip.symm.trans h) Bool.false_ne_true
  | updated _ _ _ => exact update_skip _ _ _ h
  | powered _ skip _ _ => exact absurd (skip.symm.trans h) Bool.false_ne_true

/-- The end of a command restores the rest of the invariant: EXEC is idle, and SKIPPED stands beside OK. -/
theorem Sound.finish {s : State} (h : Sound s) {r : Reply} (skip : r.skipped = true → r.code = .ok) :
    Inv (finish r s) :=
  (inv_iff_sound _).2 ⟨h.carry rfl (finish_held r s), rfl, skip⟩

/-! ### The reset state -/

theorem AtReset.powerOn (c : Config) : AtReset (State.powerOn c) where
  phase := rfl
  pstate := rfl
  invert := rfl
  ditherMode := rfl
  cutoff := rfl
  vcom := rfl
  disp := rfl
  cs := rfl
  result := rfl
  skipped := rfl
  fault := rfl
  resultData := rfl
  ind k hk := by simp [State.powerOn, hk]
  ent := by simp [State.liveEntries, State.powerOn]
  slots := List.length_replicate
  nextHandle := rfl
  unlocked := rfl

/-- The reset input gives back the reset state of the configuration (10_state.md R40, 70_reset_and_hazards.md R137). -/
theorem AtReset.resetInput (s : State) : AtReset s.resetInput :=
  let h := AtReset.powerOn s.cfg
  ⟨rfl, rfl, rfl, rfl, rfl, rfl, rfl, rfl, rfl, rfl, rfl, rfl, h.ind, h.ent, h.slots, rfl, rfl⟩

/-- A reset state of an admitted configuration with no byte written meets the invariant. -/
theorem AtReset.inv {s : State} (h : AtReset s) (hc : s.cfg.ok = true) (hg : s.gray = []) (ht : s.tagged = []) :
    Inv s where
  config := hc
  idle := h.phase
  unlocked := by rw [h.vcom]
  deselected := h.cs
  settled := .inl h.pstate
  timer := by simp [h.vcom, h.pstate]
  panel := by simp [h.disp, h.pstate]
  vcomLow _ := by rw [h.vcom]
  vcomLevel := by rw [h.vcom]
  skip hk := by simp [h.skipped] at hk
  slots := h.slots
  entriesFit := by simp [h.ent]
  entriesIssued := by simp [h.ent]
  handlesDistinct := by simp [h.ent]
  grayForm := by rw [hg]; rfl
  grayInside := by simp [hg]
  taggedForm := by rw [ht]; rfl
  taggedInside := by simp [ht]

theorem inv_resetInput {s : State} (hc : s.cfg.ok = true) : Inv s.resetInput := (AtReset.resetInput s).inv hc rfl rfl

/-! ### Every instruction and every step -/

theorem exec_inv {i : Instr} {s t : State} (h : Inv s) (hpix : CarriesItsPixels i) (he : exec i s = .next t) :
    Inv t := by
  obtain ⟨hs, hidle, hskip⟩ := (inv_iff_sound s).1 h
  cases exec_ran he with
  | wire bytes => exact (inv_iff_sound _).2 ⟨hs.carry rfl (Io.transaction_held _ _ _), hidle, hskip⟩
  | command hr =>
    have hbusy : Sound { s with phase := .busy (some i) } := hs.carry rfl (.refl _)
    exact (hr.sound hbusy hpix).finish hr.skip

theorem rejectPacket_inv {s : State} (h : Inv s) : Inv (rejectPacket s) := by
  obtain ⟨hs, -, -⟩ := (inv_iff_sound s).1 h
  have hbusy : Sound { s with phase := .busy none } := hs.carry rfl (.refl _)
  unfold rejectPacket
  dsimp only
  split <;> exact hbusy.finish nofun

/-- The invariant speaks neither of the inputs nor of the answers read, and of the pins only what is held. -/
theorem Inv.carry {s : State} (h : Inv s) {io : Io} (k : s.io.Held io) (inputs : List Input)
    (reads : List (BitVec 4 × Word)) : Inv { s with io := io, inputs := inputs, reads := reads } := by
  obtain ⟨hs, hidle, hskip⟩ := (inv_iff_sound s).1 h
  exact (inv_iff_sound _).2 ⟨hs.carry rfl k, hidle, hskip⟩

theorem Moved.inv {s t : State} (h : Inv s) (m : Moved s t) : Inv t := by
  have next (rest : List Input) : Inv { s with inputs := rest } := h.carry (.refl _) rest s.reads
  cases m with
  | waits => exact h.carry s.io.idle_ticked.held s.inputs s.reads
  | ran rest hpix he => exact exec_inv (next rest) hpix he
  | rejects rest => exact rejectPacket_inv (next rest)
  | reads rest k => exact h.carry (.refl _) rest _
  | ticks rest => exact h.carry s.io.tick_ticked.held rest s.reads
  | resets _ => exact inv_resetInput h.config
  | cut _ hd =>
    refine inv_resetInput ?_
    exact (congrArg Config.ok (runPacket_untouched hd).cfg).trans h.config

/-! ### The obligations -/

/-- Settles O20: by the ways a step can go, each of which keeps the parts of the invariant. -/
theorem stepKeepsTheInvariant : Obligations.StepKeepsTheInvariant := fun _ _ h he => (step_moved he).inv h

/-- Settles O10: the reset state is made of the listed values at every configuration. -/
theorem resetStateIsAsListed : Obligations.ResetStateIsAsListed := ⟨AtReset.powerOn _, rfl, AtReset.powerOn⟩

/-- Settles O11: the reset input is taken in every state, and gives the reset state. -/
theorem resetInputRestoresTheResetState : Obligations.ResetInputRestoresTheResetState := by
  intro s rest hc hi
  refine ⟨_, step_resets hc hi, AtReset.resetInput _, rfl, rfl, rfl, rfl, rfl, ?_⟩
  cases hcs : s.io.cs <;> simp [State.resetInput, Io.afterReset, hcs]

/-- Settles O19: a reset state with nothing written meets the invariant. -/
theorem resetMeetsTheInvariant : Obligations.ResetMeetsTheInvariant := by
  have hall : ∀ c : Config, c.ok = true → Inv (State.powerOn c) := fun c hc => (AtReset.powerOn c).inv hc rfl rfl
  exact ⟨hall _ (by decide), hall⟩

end Sys2Proof.Machine
end

section
/-! What a step cannot do: move the panel without ENABLE or DISABLE, issue a dead handle again, or change the VCOM state
without its events. -/

namespace Sys2Proof.Machine

/-! ### The panel -/

/-- Outside ENABLE and DISABLE an instruction keeps PSTATE and holds the pins (10_state.md R19, 43_power_vcom.md
R110). -/
theorem exec_held {i : Instr} {s t : State} (hon : i ≠ .enable) (hoff : i ≠ .disable) (he : exec i s = .next t) :
    t.pstate = s.pstate ∧ s.io.Held t.io := by
  cases exec_ran he with
  | wire bytes => exact ⟨rfl, Io.transaction_held _ _ _⟩
  | command hr =>
    cases hr with
    | @stored u r hu _ =>
      have hio : u.io = s.io := hu.io
      exact ⟨hu.pstate, hio ▸ finish_held r u⟩
    | @updated u hu y1 y2 _ _ =>
      have hio : u.io = s.io := hu.io
      refine ⟨?_, hio ▸ (update_held y1 y2 u).trans (finish_held _ _)⟩
      rw [finish_pstate, update_frame u y1 y2]
      exact hu.pstate
    | powered on _ _ _ => exact absurd on (not_or.2 ⟨hon, hoff⟩)

/-- Settles O36: what holds the pins moves neither display-enable nor the timer. -/
theorem onlyEnableAndDisableMoveThePanel : Obligations.OnlyEnableAndDisableMoveThePanel := by
  intro i s t hon hoff he
  obtain ⟨hp, hh⟩ := exec_held hon hoff he
  exact ⟨hp, hh.disp, hh.running⟩

/-! ### Handles -/

/-- The handle lies below NEXT_HANDLE, or all are issued, and it names no live entry (10_state.md R31). -/
def HandleDead (handle : Word) (ent : List (Option Overlay)) (next : Word) : Prop :=
  (next = 0 ∨ handle < next) ∧ ∀ e ∈ ent.filterMap id, e.handle ≠ handle

/-- No change of the registry revives a dead handle: the one handle it can add is NEXT_HANDLE (45_overlay.md R115). -/
theorem RegistryMove.handleDead {c : Config} {i : Instr} {ent ent' : List (Option Overlay)} {next next' handle : Word}
    (m : RegistryMove c ent next i ent' next') (h : HandleDead handle ent next) : HandleDead handle ent' next' := by
  obtain ⟨hlt, hdead⟩ := h
  cases m with
  | same => exact ⟨hlt, hdead⟩
  | shown handle' v =>
    refine ⟨hlt, fun e he => ?_⟩
    rw [liveEntries_mapHandle] at he
    obtain ⟨e', h', rfl⟩ := List.mem_map.1 he
    have := hdead e' h'
    split <;> exact this
  | removed handle' =>
    refine ⟨hlt, fun e he => ?_⟩
    rw [liveEntries_dropHandle] at he
    exact hdead e (List.mem_filter.1 he).1
  | cleared => exact ⟨hlt, by simp⟩
  | added _ _ left _ =>
    have hlt' : handle < next := hlt.resolve_left left
    refine ⟨or_iff_not_imp_left.2 fun hn => lt_handleAfter hn (BitVec.le_of_lt hlt'), fun e he => ?_⟩
    rcases List.mem_cons.1 ((liveEntries_placeEntry _ ent).mem_iff.1 he) with rfl | he
    · exact (BitVec.ne_of_lt hlt').symm
    · exact hdead e he

theorem rejectPacket_registry (s : State) :
    (rejectPacket s).ent = s.ent ∧ (rejectPacket s).nextHandle = s.nextHandle := by
  unfold rejectPacket
  dsimp only
  split <;> exact ⟨rfl, rfl⟩

/-- What a step without reset makes of the registry is what some instruction makes of it. -/
theorem step_registry {s t : State} (hn : noReset s.inputs = true) (he : step s = .next t) :
    ∃ i, RegistryMove s.cfg s.ent s.nextHandle i t.ent t.nextHandle := by
  cases step_moved he with
  | waits => exact ⟨.refresh, .same⟩
  | @ran i t rest _ he => exact ⟨i, exec_registry (s := { s with inputs := rest }) he⟩
  | rejects rest =>
    obtain ⟨h1, h2⟩ := rejectPacket_registry { s with inputs := rest }
    exact ⟨.refresh, by rw [h1, h2]; exact .same⟩
  | reads rest k => exact ⟨.refresh, .same⟩
  | ticks rest => exact ⟨.refresh, .same⟩
  | resets hi => rw [hi] at hn; cases hn
  | cut hi _ => rw [hi] at hn; cases hn

/-- Settles O24: by what a step without reset can make of the registry. -/
theorem issuedHandlesAreNeverReused : Obligations.IssuedHandlesAreNeverReused := by
  intro s t handle _ hissued hdead hn he
  obtain ⟨i, m⟩ := step_registry hn he
  exact m.handleDead ⟨hissued, hdead⟩

/-! ### VCOM -/

theorem vcomLevels_append (a b : List Event) : vcomLevels (a ++ b) = vcomLevels a ++ vcomLevels b := by
  induction a with
  | nil => rfl
  | cons e rest ih => cases e <;> simp [vcomLevels, ih]

theorem vcomFailures_append (a b : List Event) : vcomFailures (a ++ b) = vcomFailures a + vcomFailures b :=
  List.countP_append

/-- An event off the VCOM pin drives no level and counts no failure. -/
theorem vcom_of_not_onVcom {e : Event} (h : e.onVcom = false) : vcomLevels [e] = [] ∧ vcomFailures [e] = 0 := by
  cases e with
  | gpioVcom l => cases h
  | gpioVcomFail => cases h
  | _ => exact ⟨rfl, rfl⟩

/-- VCOM_MISSED counts up and stays at 2^32 − 1 (43_power_vcom.md R105, R107). -/
theorem missedSucc_toNat (v : Word) : (missedSucc v).toNat = min (v.toNat + 1) (2 ^ 32 - 1) := by
  unfold missedSucc
  split
  · next h => subst h; decide
  · next h =>
    have : v.toNat ≠ 2 ^ 32 - 1 := fun he => h (BitVec.eq_of_toNat_eq he)
    bv_omega

/-- The VCOM state of the second pins is what the events between make of that of the first (10_state.md R23, R25,
R37). -/
structure Io.VcomFollows (a b : Io) (evs : List Event) : Prop where
  trace : b.trace = a.trace ++ evs
  missed : b.vcom.missed.toNat = min (a.vcom.missed.toNat + vcomFailures evs) (2 ^ 32 - 1)
  toggle : b.vcom.toggle = ((vcomLevels evs).getLast?).getD a.vcom.toggle
  level : a.vcom.toggle = a.vcom.out → b.vcom.toggle = b.vcom.out

theorem Io.VcomFollows.trans {a b c : Io} {e1 e2 : List Event} (h1 : a.VcomFollows b e1) (h2 : b.VcomFollows c e2) :
    a.VcomFollows c (e1 ++ e2) where
  trace := by rw [h2.trace, h1.trace, List.append_assoc]
  missed := by rw [h2.missed, h1.missed, vcomFailures_append]; omega
  toggle := by
    rw [h2.toggle, h1.toggle, vcomLevels_append, List.getLast?_append]
    cases (vcomLevels e2).getLast? <;> rfl
  level := h2.level ∘ h1.level

/-- Where neither the VCOM state nor its events move. -/
theorem Io.VcomFollows.still {a b : Io} {evs : List Event} (ht : b.trace = a.trace ++ evs)
    (hm : b.vcom.missed = a.vcom.missed) (hg : b.vcom.toggle = a.vcom.toggle) (ho : b.vcom.out = a.vcom.out)
    (hf : vcomFailures evs = 0) (hl : vcomLevels evs = []) : a.VcomFollows b evs where
  trace := ht
  missed := by rw [hm, hf]; exact (Nat.min_eq_left (Nat.le_pred_of_lt a.vcom.missed.isLt)).symm
  toggle := by rw [hg, hl]; rfl
  level h := by rw [hg, ho]; exact h

/-- Where a level is driven onto the pin with its event. -/
theorem Io.VcomFollows.driven {a b : Io} {l : Bool} (ht : b.trace = a.trace ++ [.gpioVcom l])
    (hm : b.vcom.missed = a.vcom.missed) (hg : b.vcom.toggle = l) (ho : b.vcom.out = l) :
    a.VcomFollows b [.gpioVcom l] where
  trace := ht
  missed := by rw [hm]; exact (Nat.min_eq_left (Nat.le_pred_of_lt a.vcom.missed.isLt)).symm
  toggle := hg
  level _ := hg.trans ho.symm

/-- A tick drives a level, counts a failure, or does nothing (43_power_vcom.md R105). -/
theorem Io.tick_vcomFollows (io : Io) : ∃ evs, io.VcomFollows io.tick evs := by
  cases hr : io.vcom.running with
  | false => exact ⟨[], by simp only [Io.tick, hr]; exact .still (by simp) rfl rfl rfl rfl rfl⟩
  | true =>
    have ht : io.tick = ((io.acquire .vtimer).toggleVcom).release := by simp [Io.tick, hr]
    rw [ht]
    rcases Io.toggleVcom_cases (io.acquire .vtimer) with ⟨-, h⟩ | ⟨-, h⟩ <;> rw [h]
    · exact ⟨_, .driven rfl rfl rfl rfl⟩
    · exact ⟨[.gpioVcomFail], rfl, missedSucc_toNat _, rfl, id⟩

/-- Everything but a reset lets the VCOM state follow its events. -/
theorem vcomFollows_powerRel : PowerRel fun a b => ∃ evs, a.VcomFollows b evs where
  refl io := ⟨[], .still (by simp) rfl rfl rfl rfl rfl⟩
  trans := by
    rintro a b c ⟨e1, h1⟩ ⟨e2, h2⟩
    exact ⟨e1 ++ e2, h1.trans h2⟩
  tick := Io.tick_vcomFollows
  log e io he := ⟨[e], .still rfl rfl rfl rfl (vcom_of_not_onVcom he).2 (vcom_of_not_onVcom he).1⟩
  other io io' hv ht := ⟨[], .still (by simpa using ht) (by rw [hv]) (by rw [hv]) (by rw [hv]) rfl rfl⟩
  low io := ⟨_, .driven rfl rfl rfl rfl⟩
  timer io _ _ := ⟨[], .still (by simp) rfl rfl rfl rfl rfl⟩

/-- Settles O32: ticks, VCOM driven low and the timer's start and stop all let the VCOM state follow its events. -/
theorem vcomStateFollowsTheVcomEvents : Obligations.VcomStateFollowsTheVcomEvents := by
  intro s t hn he
  obtain ⟨evs, h⟩ := vcomFollows_powerRel.step hn he
  have hnew : newEvents s t = evs := by rw [newEvents, h.trace, List.drop_left]
  rw [hnew]
  exact ⟨h.missed, h.toggle, h.level⟩

end Sys2Proof.Machine
end

section
/-! SET_INDICATOR and OVL_ADD that pass their checks, and the status port. -/

namespace Sys2Proof.Machine

/-! ### Two commands that pass their checks -/

/-- SET_INDICATOR of a slot that is there (44_control.md R114). -/
theorem setIndicatorRule_slot {idx : Byte} (h : idx.toNat < 6) (g : Byte) (s : State) :
    setIndicatorRule idx g s =
      update 0 (min s.cfg.stripRows s.cfg.height) { s with ind := s.ind.set idx.toNat g h } := by
  rw [setIndicatorRule, dif_pos h]
  rfl

/-- Settles O41: the rule of a slot that is there is the update of the strip, which has a row at least. -/
theorem setIndicatorResendsTheStrip : Obligations.SetIndicatorResendsTheStrip := by
  intro s idx g h hinv hf hact
  have hrows : 0 < min s.cfg.stripRows s.cfg.height := by
    have := (Config.ok_iff s.cfg).1 hinv.config
    omega
  exact updateRuns_of_rule (setIndicatorRule idx g) rfl hf (setIndicatorRule_slot h g _)
    ⟨hinv.config, hinv.entriesFit, hinv.handlesDistinct⟩ hact hrows (Nat.min_le_right _ _)

/-- OVL_ADD that passes its checks (45_overlay.md R115). -/
theorem ovlAddRule_adds {x y w h : Half} {s : State} (pix : List Byte) (area : emptyArea w h = false)
    (inside : exceedsPanel s.cfg x y w h = false) (left : s.nextHandle ≠ 0)
    (free : s.liveEntries.length < s.cfg.maxOverlays) :
    ovlAddRule x y w h pix s = ({ s with
        ent := placeEntry (newEntry s.nextHandle x y w h pix) s.ent
        nextHandle := handleAfter s.nextHandle }, .okData s.nextHandle) := by
  rw [ovlAddRule, if_neg (by simp [area]), if_neg (by simp [inside]), if_neg (not_or.2 ⟨left, Nat.ne_of_lt free⟩)]

/-- Settles O45: the checks pass, and the entry goes to a free slot. -/
theorem ovlAddMakesAHiddenEntry : Obligations.OvlAddMakesAHiddenEntry := by
  intro s x y w h pix hinv hf hw hh hx hy left free
  have area : emptyArea w h = false := by
    simp only [emptyArea, decide_eq_false_iff_not, Nat.mul_eq_zero, not_or]
    exact ⟨fun e => hw (BitVec.eq_of_toNat_eq e), fun e => hh (BitVec.eq_of_toNat_eq e)⟩
  have inside : exceedsPanel s.cfg x y w h = false := by
    simp only [exceedsPanel, decide_eq_false_iff_not]
    omega
  refine ⟨placeEntry (newEntry s.nextHandle x y w h pix) s.ent,
    endsQuietly_of_rule (ovlAddRule x y w h pix) rfl (.inl hf) (ovlAddRule_adds pix area inside left free),
    placeEntry_length _ _ ?_, liveEntries_placeEntry _ _⟩
  rw [hinv.slots]
  exact free

/-! ### The status port -/

/-- Settles O13: the step takes the read, which only appends its answer. -/
theorem statusReadsHaveNoSideEffect : Obligations.StatusReadsHaveNoSideEffect :=
  fun _ _ _ hc hm hi => step_takes hc hm hi

/-- Register 0: RESULT, SKIPPED, FAULT, and zeros (10_state.md R34). -/
theorem statusReg_fields (s : State) :
    s.statusReg.extractLsb' 0 4 = s.result.bits ∧ s.statusReg.getLsbD 4 = s.skipped ∧ s.statusReg.getLsbD 5 = s.fault ∧
      s.statusReg.extractLsb' 6 26 = 0 := by
  simp only [State.statusReg, BitVec.extractLsb'_append_eq_ite, BitVec.getLsbD_append]
  simp

/-- Register 2: INVERT, DITHER_MODE, CUTOFF, and zeros (10_state.md R34). -/
theorem configReg_fields (s : State) :
    s.configReg.getLsbD 0 = s.invert ∧ s.configReg.extractLsb' 1 2 = s.ditherMode.bits ∧
      s.configReg.extractLsb' 3 5 = 0 ∧ s.configReg.extractLsb' 8 8 = s.cutoff ∧ s.configReg.extractLsb' 16 16 = 0 := by
  simp only [State.configReg, BitVec.extractLsb'_append_eq_ite, BitVec.getLsbD_append]
  simp

/-- Register 3: PSTATE, the timer and the pins, and zeros (10_state.md R34). -/
theorem powerReg_fields (s : State) :
    s.powerReg.extractLsb' 0 3 = s.pstate.bits ∧ s.powerReg.getLsbD 3 = s.io.vcom.running ∧
      s.powerReg.getLsbD 4 = s.io.vcom.toggle ∧ s.powerReg.getLsbD 5 = s.io.disp ∧
      s.powerReg.getLsbD 6 = s.io.vcom.out ∧ s.powerReg.getLsbD 7 = s.io.cs ∧ s.powerReg.extractLsb' 8 24 = 0 := by
  simp only [State.powerReg, BitVec.extractLsb'_append_eq_ite, BitVec.getLsbD_append]
  simp

/-- The look-up of a slot that is there (10_state.md R29). -/
theorem ind_getD (s : State) {k : Nat} (h : k < 6) : s.ind.toList.getD k 0 = s.ind[k] := by
  simp [h]

theorem indLoReg_fields (s : State) (k : Fin 4) :
    s.indLoReg.extractLsb' (8 * k.val) 8 = s.ind.toList.getD k.val 0 := by
  rw [ind_getD s (by omega)]
  simp only [State.indLoReg, BitVec.extractLsb'_append_eq_ite]
  fin_cases k <;> simp

theorem indHiReg_fields (s : State) (k : Fin 2) :
    s.indHiReg.extractLsb' (8 * k.val) 8 = s.ind.toList.getD (4 + k.val) 0 := by
  rw [ind_getD s (by omega)]
  simp only [State.indHiReg, BitVec.extractLsb'_append_eq_ite]
  fin_cases k <;> simp

theorem indHiReg_high (s : State) : s.indHiReg.extractLsb' 16 16 = 0 := by
  simp only [State.indHiReg, BitVec.extractLsb'_append_eq_ite]
  simp

/-- WIDTH and HEIGHT fit their halves, at a configuration that R8 admits. -/
theorem geometryReg_fields {s : State} (hc : s.cfg.ok = true) :
    (s.geometryReg.extractLsb' 0 16).toNat = s.cfg.width ∧ (s.geometryReg.extractLsb' 16 16).toNat = s.cfg.height := by
  have hok := (Config.ok_iff s.cfg).1 hc
  have hw : s.cfg.width % 65536 = s.cfg.width := Nat.mod_eq_of_lt (by omega)
  have hh : s.cfg.height % 65536 = s.cfg.height := Nat.mod_eq_of_lt (by omega)
  simp only [State.geometryReg, BitVec.extractLsb'_append_eq_ite]
  simp [hw, hh]

theorem statusWord_high (s : State) {k : BitVec 4} (h : 10 ≤ k.toNat) : s.statusWord k = 0 := by
  unfold State.statusWord
  split
  case h_11 => rfl
  all_goals omega

/-- Settles O14: register by register. -/
theorem statusPortLayout : Obligations.StatusPortLayout := by
  have hcount (s : State) : s.statusWord 7 = BitVec.ofNat 32 (s.ent.countP Option.isSome) :=
    congrArg (BitVec.ofNat 32) List.length_filterMap_eq_countP
  exact ⟨by decide, fun s hc => ⟨statusReg_fields s, rfl, configReg_fields s, powerReg_fields s, rfl,
    indLoReg_fields s, indHiReg_fields s, indHiReg_high s, hcount s, rfl, geometryReg_fields hc,
    fun _ => statusWord_high s⟩⟩

end Sys2Proof.Machine
end

section
/-! What no tick can change: from pins that differ only in what VTIMER touches, every instruction leads to pins that
differ only in that. -/

namespace Sys2Proof.Machine

/-! ### Pins -/

/-- Pins that differ at most in what VTIMER touches: VCOM_TOGGLE, VCOM_OUT, VCOM_MISSED, the lock, the VCOM events and
VTIMER's draws (43_power_vcom.md R105, 20_memory.md R51). -/
structure Io.Alike (a b : Io) : Prop where
  running : a.vcom.running = b.vcom.running
  disp : a.disp = b.disp
  cs : a.cs = b.cs
  bus : a.bus = b.bus
  trace : Machine.withoutVcom a.trace = Machine.withoutVcom b.trace

theorem Io.alike_iff (a b : Io) : a.Alike b ↔ a.withoutVcom = b.withoutVcom := by
  constructor
  · rintro ⟨hr, hd, hc, hb, ht⟩
    simp only [Io.withoutVcom, hr, hd, hc, hb, ht]
  · intro h
    simp only [Io.withoutVcom, Io.mk.injEq, Vcom.mk.injEq] at h
    obtain ⟨⟨-, hr, -⟩, hd, hc, ht, hb, -⟩ := h
    exact ⟨hr, hd, hc, hb, ht⟩

/-- Two operations that emit the same events keep pins alike, whatever ticks fall between the events. -/
theorem Io.Alike.emits {a b a' b' : Io} {evs : List Event} (h : a.Alike b) (ha : a.Emits evs a') (hb : b.Emits evs b') :
    a'.Alike b' := by
  have ea := ha.emitted
  have eb := hb.emitted
  obtain ⟨newA, hta, hva⟩ := ea.trace
  obtain ⟨newB, htb, hvb⟩ := eb.trace
  refine ⟨?_, ?_, ?_, ?_, ?_⟩
  · rw [ea.running, eb.running, h.running]
  · rw [ea.disp, eb.disp, h.disp]
  · rw [ea.cs, eb.cs, h.cs]
  · rw [ea.bus, eb.bus, h.bus]
  · rw [hta, htb, withoutVcom_append, withoutVcom_append, h.trace, hva, hvb]

theorem Io.Alike.emit {a b : Io} (h : a.Alike b) (e : Event) : (a.emit e).Alike (b.emit e) :=
  h.emits (a.emit_emits e) (b.emit_emits e)

theorem Io.Alike.ticked {a b a' b' : Io} (h : a.Alike b) (ha : Ticked a a') (hb : Ticked b b') : a'.Alike b' where
  running := by rw [ha.running, hb.running, h.running]
  disp := by rw [ha.disp, hb.disp, h.disp]
  cs := by rw [ha.cs, hb.cs, h.cs]
  bus := by rw [ha.bus, hb.bus, h.bus]
  trace := by rw [ha.withoutVcom_trace, hb.withoutVcom_trace, h.trace]

theorem Io.Alike.yieldTicks {a b : Io} (h : a.Alike b) : a.yieldTicks.Alike b.yieldTicks :=
  h.ticked a.yieldTicks_ticked b.yieldTicks_ticked

theorem Io.Alike.log {a b : Io} (h : a.Alike b) (e : Event) : (a.log e).Alike (b.log e) :=
  ⟨h.running, h.disp, h.cs, h.bus, by simp [h.trace]⟩

/-- An event with a write that keeps pins alike. -/
theorem Io.Alike.act {a b : Io} (h : a.Alike b) {f : Io → Io} (hf : ∀ {a b : Io}, a.Alike b → (f a).Alike (f b))
    (e : Event) : (a.act f e).Alike (b.act f e) :=
  (hf h.yieldTicks).log e

theorem Io.Alike.driveDisp {a b : Io} (h : a.Alike b) (l : Bool) : (a.driveDisp l).Alike (b.driveDisp l) :=
  h.act (f := fun io => { io with disp := l }) (fun k => ⟨k.running, rfl, k.cs, k.bus, k.trace⟩) (.gpioDisp l)

theorem Io.Alike.vcomLow {a b : Io} (h : a.Alike b) : a.vcomLow.Alike b.vcomLow :=
  h.act (f := fun io => { io with vcom := { io.vcom with out := false, toggle := false } })
    (fun k => ⟨k.running, k.disp, k.cs, k.bus, k.trace⟩) (.gpioVcom false)

theorem Io.Alike.startTimer {a b : Io} (h : a.Alike b) : a.startTimer.Alike b.startTimer :=
  ⟨rfl, h.disp, h.cs, h.bus, h.trace⟩

theorem Io.Alike.cancelTimer {a b : Io} (h : a.Alike b) : a.cancelTimer.Alike b.cancelTimer :=
  have k := h.yieldTicks
  ⟨rfl, k.disp, k.cs, k.bus, k.trace⟩

theorem Io.Alike.powerUp {a b : Io} (h : a.Alike b) (c : Config) : (a.powerUp c).Alike (b.powerUp c) :=
  ((h.driveDisp true).vcomLow).emit _

/-- A transaction answers the same, and keeps pins alike: the bus is not VTIMER's (41_transport.md R88). -/
theorem Io.Alike.transaction {a b : Io} (h : a.Alike b) (c : Config) (bytes : List Byte) :
    (a.transaction c bytes).2 = (b.transaction c bytes).2 ∧ (a.transaction c bytes).1.Alike (b.transaction c bytes).1 := by
  obtain ⟨ha, ea⟩ := Io.transaction_spec c bytes a
  obtain ⟨hb, eb⟩ := Io.transaction_spec c bytes b
  rw [h.bus] at ha ea
  have hsent (n : Nat) : (a.sent n).Alike (b.sent n) :=
    ⟨h.running, h.disp, rfl, congrArg (Source.skip · n) h.bus, h.trace⟩
  exact ⟨ha.trans hb.symm, (hsent _).emits ea eb⟩

/-! ### States and rules -/

/-- States that differ at most in what VTIMER touches are one state with pins that are alike. -/
theorem State.withoutVcom_eq_iff (s t : State) :
    s.withoutVcom = t.withoutVcom ↔ t = { s with io := t.io } ∧ s.io.Alike t.io := by
  rw [Io.alike_iff]
  constructor
  · intro h
    exact ⟨congrArg (fun u : State => { u with io := t.io }) h.symm, congrArg State.io h⟩
  · rintro ⟨ht, hio⟩
    rw [ht, State.withoutVcom, State.withoutVcom, hio]

theorem Io.Alike.state {a b : Io} (h : a.Alike b) (s : State) :
    ({ s with io := a } : State).withoutVcom = ({ s with io := b } : State).withoutVcom :=
  (State.withoutVcom_eq_iff _ _).2 ⟨rfl, h⟩

/-- Two outcomes of a rule whose replies are the same and whose states differ at most in what VTIMER touches. -/
def OutcomesAlike (x y : State × Reply) : Prop := x.1.withoutVcom = y.1.withoutVcom ∧ x.2 = y.2

/-- The rule does not depend on what VTIMER touches. -/
def Indifferent (rule : State → State × Reply) : Prop :=
  ∀ (s : State) {a b : Io}, a.Alike b → OutcomesAlike (rule { s with io := a }) (rule { s with io := b })

/-- A rule that hands back what it stored, where that is not on the pins. -/
theorem Io.Alike.stored {a b : Io} (h : a.Alike b) (s : State) (r : Reply) :
    OutcomesAlike ({ s with io := a }, r) ({ s with io := b }, r) :=
  ⟨h.state s, rfl⟩

/-- An update reads no pin but the bus (42_update.md R95). -/
theorem update_indifferent (y1 y2 : Nat) : Indifferent (update y1 y2) := by
  intro s a b h
  by_cases hact : s.pstate = .active
  · by_cases hy : y1 = y2
    · subst hy
      rw [update_empty (s := { s with io := a }) hact, update_empty (s := { s with io := b }) hact]
      exact h.stored s .ok
    · obtain ⟨hanswer, hpins⟩ := (h.emit (.frameRead y1 y2)).transaction s.cfg (readyBytes s y1 y2)
      have hrun (io : Io) : update y1 y2 { s with io := io } =
          ({ convert y1 y2 (composite y1 y2 s) with
              io := ((io.emit (.frameRead y1 y2)).transaction s.cfg (readyBytes s y1 y2)).1 },
            if ((io.emit (.frameRead y1 y2)).transaction s.cfg (readyBytes s y1 y2)).2 then .ok
            else .error .transportError) := by
        rw [update, if_neg (not_not.2 hact), if_neg hy]
        rfl
      rw [hrun, hrun, hanswer]
      exact hpins.stored _ _
  · rw [update_skipped (s := { s with io := a }) hact, update_skipped (s := { s with io := b }) hact]
    exact h.stored s .okSkipped

theorem fullRefresh_indifferent : Indifferent fullRefresh := fun s _ _ => update_indifferent 0 s.cfg.height s

theorem stripRefresh_indifferent : Indifferent stripRefresh := fun s _ _ => update_indifferent 0 (stripRowsOf s.cfg) s

theorem enableRule_indifferent : Indifferent enableRule := by
  intro s a b h
  obtain ⟨hanswer, hpins⟩ := (h.powerUp s.cfg).transaction s.cfg (clearBytes s.cfg)
  by_cases off : s.pstate = .off
  · cases hc : ((b.powerUp s.cfg).clearScreen s.cfg).2 with
    | true =>
      rw [enableRule_ok (s := { s with io := a }) off (hanswer.trans hc), enableRule_ok (s := { s with io := b }) off hc]
      exact hpins.startTimer.stored { s with pstate := .active } .ok
    | false =>
      rw [enableRule_fail (s := { s with io := a }) off (hanswer.trans hc),
        enableRule_fail (s := { s with io := b }) off hc]
      exact (hpins.driveDisp false).stored s _
  · simp only [enableRule, ne_eq, off, not_false_eq_true, if_true]
    exact h.stored s _

theorem disableRule_indifferent : Indifferent disableRule := by
  intro s a b h
  unfold disableRule
  dsimp only
  split
  · exact h.stored s _
  · exact (h.cancelTimer.driveDisp false).vcomLow.stored { s with pstate := .off } .ok

theorem damageRule_indifferent (x1 x2 y1 y2 : Half) : Indifferent (damageRule x1 x2 y1 y2) := by
  intro s a b h
  unfold damageRule
  dsimp only
  split
  · exact update_indifferent _ _ s h
  · exact h.stored { s with fault := true } _

theorem setInvertRule_indifferent (v : Bool) : Indifferent (setInvertRule v) := by
  intro s a b h
  unfold setInvertRule
  dsimp only
  split
  · exact fullRefresh_indifferent { s with invert := v } h
  · exact h.stored { s with invert := v } .ok

theorem setDitherRule_indifferent (m : DitherMode) : Indifferent (setDitherRule m) := by
  intro s a b h
  unfold setDitherRule
  dsimp only
  split
  · exact fullRefresh_indifferent { s with ditherMode := m } h
  · exact h.stored { s with ditherMode := m } .ok

theorem setCutoffRule_indifferent (c : Byte) : Indifferent (setCutoffRule c) := by
  intro s a b h
  unfold setCutoffRule
  dsimp only
  split
  · exact fullRefresh_indifferent { s with cutoff := c } h
  · exact h.stored { s with cutoff := c } .ok

theorem setIndicatorRule_indifferent (idx g : Byte) : Indifferent (setIndicatorRule idx g) := by
  intro s a b h
  unfold setIndicatorRule
  dsimp only
  split
  · next hidx => exact stripRefresh_indifferent { s with ind := s.ind.set idx.toNat g hidx } h
  · exact h.stored s _

theorem ovlAddRule_indifferent (x y w h : Half) (pix : List Byte) : Indifferent (ovlAddRule x y w h pix) := by
  intro s a b hab
  unfold ovlAddRule State.liveEntries
  dsimp only
  split
  · exact hab.stored s _
  split
  · exact hab.stored s _
  split
  · exact hab.stored s _
  · exact hab.stored { s with
      ent := placeEntry (newEntry s.nextHandle x y w h pix) s.ent, nextHandle := handleAfter s.nextHandle } _

/-- Looking up a handle reads no pin. -/
@[simp] theorem State.entryOf_io (s : State) (io : Io) (handle : Word) :
    ({ s with io := io } : State).entryOf handle = s.entryOf handle := rfl

/-- Changing an entry reads and writes no pin. -/
theorem State.updateEntry_io (s : State) (io : Io) (handle : Word) (f : Option Overlay → Option Overlay) :
    ({ s with io := io } : State).updateEntry handle f = { s.updateEntry handle f with io := io } := rfl

theorem ovlRemoveRule_indifferent (handle : Word) : Indifferent (ovlRemoveRule handle) := by
  intro s a b h
  simp only [ovlRemoveRule, State.entryOf_io, State.updateEntry_io]
  cases s.entryOf handle with
  | none => exact h.stored s _
  | some e =>
    dsimp only
    split
    · exact fullRefresh_indifferent _ h
    · exact h.stored _ .ok

theorem setVisible_indifferent (v : Bool) (handle : Word) : Indifferent (setVisible v handle) := by
  intro s a b h
  simp only [setVisible, State.entryOf_io, State.updateEntry_io]
  cases s.entryOf handle with
  | none => exact h.stored s _
  | some _ => exact fullRefresh_indifferent _ h

theorem ovlClearRule_indifferent : Indifferent ovlClearRule := fun s _ _ h =>
  fullRefresh_indifferent { s with ent := s.ent.map fun _ => none } h

/-! ### Instructions -/

/-- The command cycle adds no dependence of its own (42_update.md R93). -/
theorem Indifferent.commandCycle {rule : State → State × Reply} (h : Indifferent rule) (i : Instr) (s : State)
    {a b : Io} (hab : a.Alike b) :
    (commandCycle i rule { s with io := a }).withoutVcom = (commandCycle i rule { s with io := b }).withoutVcom := by
  have hfinish {x y : State × Reply} (hxy : OutcomesAlike x y) :
      (finish x.2 x.1).withoutVcom = (finish y.2 y.1).withoutVcom := by
    obtain ⟨hs, hr⟩ := hxy
    obtain ⟨hy, hio⟩ := (State.withoutVcom_eq_iff _ _).1 hs
    rw [hr, hy]
    exact (hio.emit (.result y.2.code)).state (finish y.2 x.1)
  unfold Machine.commandCycle
  dsimp only
  split
  · exact hfinish (hab.stored { s with phase := .busy (some i) } _)
  · exact hfinish (h { s with phase := .busy (some i) } hab)

/-- The rule of a command; a wire form has none. -/
def ruleOf : Instr → Option (State → State × Reply)
  | .enable => some enableRule
  | .disable => some disableRule
  | .damage x1 x2 y1 y2 => some (damageRule x1 x2 y1 y2)
  | .refresh => some fullRefresh
  | .setInvert v => some (setInvertRule v)
  | .setDither mode => some (setDitherRule mode)
  | .setCutoff c => some (setCutoffRule c)
  | .setIndicator idx g => some (setIndicatorRule idx g)
  | .ovlAdd x y w h pix => some (ovlAddRule x y w h pix)
  | .ovlRemove handle => some (ovlRemoveRule handle)
  | .ovlShow handle => some (setVisible true handle)
  | .ovlHide handle => some (setVisible false handle)
  | .ovlClear => some ovlClearRule
  | .wireClear => none
  | .wireWriteLines _ _ => none

theorem isSome_ruleOf (i : Instr) : (ruleOf i).isSome = isCommand i := by
  cases i <;> rfl

/-- A command runs its rule in the command cycle (42_update.md R93). -/
theorem exec_command {i : Instr} {rule : State → State × Reply} (h : ruleOf i = some rule) (s : State) :
    exec i s = .next (commandCycle i rule s) := by
  cases i <;> cases h <;> rfl

/-- A wire form is one transaction, of bytes that the configuration and the form give (log 7). -/
theorem exec_wireForm {i : Instr} (h : ruleOf i = none) :
    ∃ bytes : Config → List Byte, ∀ s, exec i s = .next { s with io := (s.io.transaction s.cfg (bytes s.cfg)).1 } := by
  cases i with
  | wireClear => exact ⟨clearBytes, fun _ => rfl⟩
  | wireWriteLines y1 rows => exact ⟨fun c => writeLinesBytes c y1.toNat rows, fun _ => rfl⟩
  | _ => cases h

theorem ruleOf_indifferent {i : Instr} {rule : State → State × Reply} (h : ruleOf i = some rule) :
    Indifferent rule := by
  cases i with
  | enable => exact Option.some.inj h ▸ enableRule_indifferent
  | disable => exact Option.some.inj h ▸ disableRule_indifferent
  | damage x1 x2 y1 y2 => exact Option.some.inj h ▸ damageRule_indifferent x1 x2 y1 y2
  | refresh => exact Option.some.inj h ▸ fullRefresh_indifferent
  | setInvert v => exact Option.some.inj h ▸ setInvertRule_indifferent v
  | setDither mode => exact Option.some.inj h ▸ setDitherRule_indifferent mode
  | setCutoff c => exact Option.some.inj h ▸ setCutoffRule_indifferent c
  | setIndicator idx g => exact Option.some.inj h ▸ setIndicatorRule_indifferent idx g
  | ovlAdd x y w h' pix => exact Option.some.inj h ▸ ovlAddRule_indifferent x y w h' pix
  | ovlRemove handle => exact Option.some.inj h ▸ ovlRemoveRule_indifferent handle
  | ovlShow handle => exact Option.some.inj h ▸ setVisible_indifferent true handle
  | ovlHide handle => exact Option.some.inj h ▸ setVisible_indifferent false handle
  | ovlClear => exact Option.some.inj h ▸ ovlClearRule_indifferent
  | wireClear => cases h
  | wireWriteLines _ _ => cases h

/-- Settles O37: the second state is the first with other pins that are alike, and both a command's rule and a wire form's
transaction keep pins alike. -/
theorem instructionsDoNotDependOnTicks : Obligations.InstructionsDoNotDependOnTicks := by
  intro i s1 s2 t1 t2 hs h1 h2
  obtain ⟨hs2, hio⟩ := (State.withoutVcom_eq_iff s1 s2).1 hs
  rw [hs2] at h2
  cases hr : ruleOf i with
  | some rule =>
    rw [exec_command hr] at h1 h2
    obtain rfl := Host.Outcome.next.inj h1
    obtain rfl := Host.Outcome.next.inj h2
    exact (ruleOf_indifferent hr).commandCycle i s1 hio
  | none =>
    obtain ⟨bytes, hb⟩ := exec_wireForm hr
    rw [hb] at h1 h2
    obtain rfl := Host.Outcome.next.inj h1
    obtain rfl := Host.Outcome.next.inj h2
    exact (hio.transaction s1.cfg (bytes s1.cfg)).2.state s1

end Sys2Proof.Machine
end

section
/-! Steps that wait, and DAMAGE that sends its rows. -/

namespace Sys2Proof.Machine

/-- Settles O16: the step waits, which is one tick and some more, and nothing while the timer is stopped. -/
theorem idleStepsOnlyTick : Obligations.IdleStepsOnlyTick := by
  intro s hc hm hi
  have hstep := step_waits hc hm hi
  obtain ⟨n, ticks, hn, hidle⟩ := s.io.idle_eq
  refine ⟨n, ticks, by rw [hstep, hidle], fun _ => hn, fun hr => ?_⟩
  rw [hstep, Io.idle_stopped hr]

/-- DAMAGE of rows inside the panel is their update, whatever its columns (42_update.md R97, R100). -/
theorem damageRule_inside {x1 x2 y1 y2 : Half} {s : State} (hx : x1.toNat ≤ x2.toNat) (hw : x2.toNat ≤ s.cfg.width)
    (hy : y1.toNat ≤ y2.toNat) (hh : y2.toNat ≤ s.cfg.height) :
    damageRule x1 x2 y1 y2 s = update y1.toNat y2.toNat s := by
  rw [damageRule, if_pos (by simpa [rectInPanel] using ⟨hx, hw, hy, hh⟩)]

/-- Settles O38: the rectangle passes its check, and the rule is the update of its rows. -/
theorem damageSendsThePicture : Obligations.DamageSendsThePicture := by
  intro s x1 x2 y1 y2 hinv hf hact hx hw hy hh
  exact updateRuns_of_rule (damageRule x1 x2 y1 y2) rfl hf (damageRule_inside hx hw (Nat.le_of_lt hy) hh)
    hinv.pictureReady hact hy hh

end Sys2Proof.Machine
end

section
/-! The events of one packet: its RESULT comes once, and last; and how many packets that many steps answer. -/

namespace Sys2Proof.Machine

/-! ### What a rule adds to the trace -/

/-- The event is a RESULT. -/
def Event.isResult : Event → Bool
  | .result _ => true
  | _ => false

/-- The second pins are the first with events added, none of them a RESULT. -/
def Io.NoResult (a b : Io) : Prop := ∃ evs, b.trace = a.trace ++ evs ∧ ∀ e ∈ evs, e.isResult = false

theorem Io.NoResult.refl (io : Io) : io.NoResult io := ⟨[], by simp, by simp⟩

theorem Io.NoResult.trans {a b c : Io} (h1 : a.NoResult b) (h2 : b.NoResult c) : a.NoResult c := by
  obtain ⟨e1, t1, n1⟩ := h1
  obtain ⟨e2, t2, n2⟩ := h2
  exact ⟨e1 ++ e2, by rw [t2, t1, List.append_assoc], List.forall_mem_append.2 ⟨n1, n2⟩⟩

/-- RESULT is not on the VCOM pin: no tick emits it. -/
theorem onVcom_eq_false_of_isResult {e : Event} (h : e.isResult = true) : e.onVcom = false := by
  cases e with
  | result code => rfl
  | _ => cases h

theorem Ticked.noResult {a b : Io} (h : Ticked a b) : a.NoResult b := by
  obtain ⟨evs, ht, hv⟩ := h.trace
  refine ⟨evs, ht, fun e he => ?_⟩
  by_contra hr
  have hoff := onVcom_eq_false_of_isResult (by simpa using hr)
  rw [hv e he] at hoff
  cases hoff

/-- Events that are no RESULT, with ticks between them. -/
theorem Io.Emits.noResult {a b : Io} {evs : List Event} (h : a.Emits evs b) (hn : ∀ e ∈ evs, e.isResult = false) :
    a.NoResult b := by
  obtain ⟨new, ht, hv⟩ := h.emitted.trace
  refine ⟨new, ht, fun e he => ?_⟩
  by_contra hr
  have hr : e.isResult = true := by simpa using hr
  have hnew : e ∈ Machine.withoutVcom new := List.mem_filter.2 ⟨he, by simp [onVcom_eq_false_of_isResult hr]⟩
  rw [hv] at hnew
  rw [hn e (List.mem_filter.1 hnew).1] at hr
  cases hr

/-- An event that is no RESULT, with a write that adds nothing to the trace. -/
theorem Io.act_noResult {f : Io → Io} {e : Event} (hf : ∀ io, (f io).trace = io.trace) (he : e.isResult = false)
    (io : Io) : io.NoResult (io.act f e) :=
  io.yieldTicks_ticked.noResult.trans ⟨[e], by rw [Io.act, Io.log_trace, hf], by simpa using he⟩

theorem Io.emit_noResult {e : Event} (he : e.isResult = false) (io : Io) : io.NoResult (io.emit e) :=
  Io.act_noResult (fun _ => rfl) he io

theorem Io.driveDisp_noResult (l : Bool) (io : Io) : io.NoResult (io.driveDisp l) :=
  Io.act_noResult (f := fun io => { io with disp := l }) (fun _ => rfl) rfl io

theorem Io.vcomLow_noResult (io : Io) : io.NoResult io.vcomLow :=
  Io.act_noResult (f := fun io => { io with vcom := { io.vcom with out := false, toggle := false } }) (fun _ => rfl)
    rfl io

/-- The cancel emits no event of its own (43_power_vcom.md R108). -/
theorem Io.cancelTimer_noResult (io : Io) : io.NoResult io.cancelTimer := io.yieldTicks_ticked.noResult

theorem Io.powerUp_noResult (c : Config) (io : Io) : io.NoResult (io.powerUp c) :=
  (io.driveDisp_noResult true).trans ((Io.vcomLow_noResult _).trans (Io.emit_noResult rfl _))

/-- A transaction's own events are no RESULT (41_transport.md R86). -/
theorem Io.transaction_noResult (c : Config) (bytes : List Byte) (io : Io) : io.NoResult (io.transaction c bytes).1 := by
  refine Io.NoResult.trans (b := io.sent _) ⟨[], by simp [Io.sent], by simp⟩
    ((Io.transaction_spec c bytes io).2.noResult fun e he => ?_)
  simp only [transactionEvents, List.mem_append, List.mem_cons, List.mem_map, List.not_mem_nil, or_false] at he
  rcases he with ((((rfl | rfl) | ⟨b, -, rfl⟩) | he) | (rfl | rfl))
  · rfl
  · rfl
  · rfl
  · split at he
    · obtain rfl := List.mem_singleton.1 he; rfl
    · cases he
  · rfl
  · rfl

theorem update_noResult (y1 y2 : Nat) (s : State) : s.io.NoResult (update y1 y2 s).1.io := by
  unfold update
  split
  · exact .refl _
  · split
    · exact .refl _
    · exact (Io.emit_noResult (e := .frameRead y1 y2) rfl s.io).trans (Io.transaction_noResult _ _ _)

theorem enableRule_noResult (s : State) : s.io.NoResult (enableRule s).1.io := by
  have hclear : s.io.NoResult ((s.io.powerUp s.cfg).clearScreen s.cfg).1 :=
    (Io.powerUp_noResult _ _).trans (Io.transaction_noResult _ _ _)
  unfold enableRule
  split
  · exact .refl _
  · dsimp only
    split
    · exact hclear
    · exact hclear.trans (Io.driveDisp_noResult _ _)

theorem disableRule_noResult (s : State) : s.io.NoResult (disableRule s).1.io := by
  unfold disableRule
  split
  · exact .refl _
  · exact s.io.cancelTimer_noResult.trans ((Io.driveDisp_noResult _ _).trans (Io.vcomLow_noResult _))

/-- The rule of every command goes in one of the ways of a rule. -/
theorem ruleOf_ruled {i : Instr} {rule : State → State × Reply} (h : ruleOf i = some rule) (s : State) :
    Ruled i s (rule s) := by
  cases i with
  | enable => exact Option.some.inj h ▸ enableRule_ruled s
  | disable => exact Option.some.inj h ▸ disableRule_ruled s
  | damage x1 x2 y1 y2 => exact Option.some.inj h ▸ damageRule_ruled x1 x2 y1 y2 s
  | refresh => exact Option.some.inj h ▸ .fullRefresh (.refl _ s)
  | setInvert v => exact Option.some.inj h ▸ setInvertRule_ruled v s
  | setDither mode => exact Option.some.inj h ▸ setDitherRule_ruled mode s
  | setCutoff c => exact Option.some.inj h ▸ setCutoffRule_ruled c s
  | setIndicator idx g => exact Option.some.inj h ▸ setIndicatorRule_ruled idx g s
  | ovlAdd x y w h' pix => exact Option.some.inj h ▸ ovlAddRule_ruled x y w h' pix s
  | ovlRemove handle => exact Option.some.inj h ▸ ovlRemoveRule_ruled handle s
  | ovlShow handle => exact Option.some.inj h ▸ setVisible_ruled _ true handle s
  | ovlHide handle => exact Option.some.inj h ▸ setVisible_ruled _ false handle s
  | ovlClear => exact Option.some.inj h ▸ .fullRefresh ⟨rfl, .cleared⟩
  | wireClear => cases h
  | wireWriteLines _ _ => cases h

/-- A rule emits no RESULT: the command cycle does (42_update.md R93). -/
theorem ruleOf_noResult {i : Instr} {rule : State → State × Reply} (h : ruleOf i = some rule) (s : State) :
    s.io.NoResult (rule s).1.io := by
  by_cases hon : i = .enable
  · subst hon
    exact Option.some.inj h ▸ enableRule_noResult s
  by_cases hoff : i = .disable
  · subst hoff
    exact Option.some.inj h ▸ disableRule_noResult s
  generalize hout : rule s = out
  cases hout ▸ ruleOf_ruled h s with
  | stored hu _ => exact hu.io ▸ .refl _
  | @updated u hu y1 y2 _ _ => exact hu.io ▸ update_noResult y1 y2 u
  | powered on _ _ _ => exact absurd on (not_or.2 ⟨hon, hoff⟩)

/-! ### The one RESULT of a packet -/

/-- The second pins are the first with events added, of which one is a RESULT. -/
def Io.OneResult (a b : Io) : Prop := ∃ evs, b.trace = a.trace ++ evs ∧ (evs.filter Event.isResult).length = 1

/-- The end of a command emits the RESULT (42_update.md R93). -/
theorem finish_oneResult {io : Io} {s : State} (h : io.NoResult s.io) (r : Reply) : io.OneResult (finish r s).io := by
  obtain ⟨e1, t1, n1⟩ := h
  obtain ⟨e2, t2, n2⟩ := s.io.yieldTicks_ticked.noResult
  refine ⟨e1 ++ e2 ++ [.result r.code], ?_, ?_⟩
  · rw [finish_io, Io.emit, Io.act, Io.log_trace, id, t2, t1, List.append_assoc, List.append_assoc, List.append_assoc]
  · have none {evs : List Event} (hn : ∀ e ∈ evs, e.isResult = false) : evs.filter Event.isResult = [] :=
      List.filter_eq_nil_iff.2 fun e he => by simp [hn e he]
    rw [List.filter_append, List.filter_append, none n1, none n2]
    rfl

theorem commandCycle_oneResult {i : Instr} {rule : State → State × Reply} (h : ruleOf i = some rule) (s : State) :
    s.io.OneResult (commandCycle i rule s).io := by
  rcases commandCycle_cases i rule s with ⟨-, -, he⟩ | ⟨-, he⟩ <;> rw [he]
  · exact finish_oneResult (s := { s with phase := .busy (some i) }) (.refl s.io) _
  · exact finish_oneResult (ruleOf_noResult h { s with phase := .busy (some i) }) _

theorem rejectPacket_oneResult (s : State) : s.io.OneResult (rejectPacket s).io := by
  unfold rejectPacket
  dsimp only
  split <;> exact finish_oneResult (s := { s with phase := .busy none }) (.refl s.io) _

/-- What a packet can stand for are the commands, no wire form (30_encoding.md R63). -/
theorem isCommand_of_commandOf {op : Byte} {a : BitVec 24} {ops : List Word} {i : Instr}
    (h : commandOf op a ops = some i) : isCommand i = true := by
  unfold commandOf at h
  dsimp only at h
  split at h
  case h_6 =>
    obtain ⟨m, -, rfl⟩ := Option.map_eq_some_iff.1 h
    rfl
  case h_14 => cases h
  all_goals exact Option.some.inj h ▸ rfl

/-- Every packet is answered with one RESULT (60_exceptions.md R126). -/
theorem runPacket_oneResult {ws : List Word} {s t : State} (he : runPacket ws s = .next t) : s.io.OneResult t.io := by
  cases hd : decodePacket ws with
  | ok i =>
    obtain ⟨header, ops, f, -, -, -, hc⟩ := decodePacket_ok hd
    obtain ⟨rule, hr⟩ := Option.isSome_iff_exists.1 ((isSome_ruleOf i).trans (isCommand_of_commandOf hc))
    rw [runPacket_decoded hd, exec_command hr] at he
    exact Host.Outcome.next.inj he ▸ commandCycle_oneResult hr s
  | error e =>
    rw [runPacket_rejected hd ((runPacket_answers_iff ws s).1 ⟨t, he⟩)] at he
    exact Host.Outcome.next.inj he ▸ rejectPacket_oneResult s

/-! ### As many steps as packets -/

/-- Between commands, as the invariant has it, no lock is held. -/
theorem Inv.midCommand {s : State} (h : Inv s) : s.midCommand = false := by
  simp [State.midCommand, State.updateLockHeld, h.idle, h.unlocked]

/-- A step on a waiting packet takes it, keeps the invariant, and emits one RESULT. -/
theorem step_packet {s : State} {ws : List Word} {rest : List Input} (h : Inv s) (hi : s.inputs = .packet ws :: rest)
    (hne : ws ≠ []) : ∃ t, step s = .next t ∧ t.inputs = rest ∧ Inv t ∧ s.io.OneResult t.io := by
  obtain ⟨t, ht⟩ := (runPacket_answers_iff ws { s with inputs := rest }).2 hne
  have hs : step s = .next t := (step_takes h.config h.midCommand hi).trans ht
  exact ⟨t, hs, (step_kept hs).2.trans (by rw [hi]; rfl), stepKeepsTheInvariant s t h hs,
    runPacket_oneResult (s := { s with inputs := rest }) ht⟩

/-- The first of several steps. -/
theorem coreRun_succ (M : Host.Core) {s u : M.State} (h : M.step s = .next u) (n : Nat) :
    M.run (n + 1) s = M.run n u := by
  rw [Host.Core.run, h]

/-- As many steps as packets wait answer them all, by induction on the packets. -/
theorem run_packets (inputs : List Input) (s : State) (h : Inv s) (hi : s.inputs = inputs)
    (hp : ∀ input ∈ inputs, ∃ ws, input = .packet ws ∧ ws ≠ []) :
    ∃ (t : State) (evs : List Event), Host.Core.run Sys2Proof.core inputs.length s = .next t ∧ t.inputs = [] ∧ Inv t ∧
      t.io.trace = s.io.trace ++ evs ∧ (evs.filter Event.isResult).length = inputs.length := by
  induction inputs generalizing s with
  | nil => exact ⟨s, [], rfl, hi, h, by simp, rfl⟩
  | cons input rest ih =>
    rw [List.forall_mem_cons] at hp
    obtain ⟨⟨ws, rfl, hne⟩, hrest⟩ := hp
    obtain ⟨u, hstep, hu, hinv, e1, t1, n1⟩ := step_packet h hi hne
    obtain ⟨t, e2, hrun, ht, hinv', t2, n2⟩ := ih u hinv hu hrest
    refine ⟨t, e1 ++ e2, ?_, ht, hinv', by rw [t2, t1, List.append_assoc], ?_⟩
    · exact (coreRun_succ Sys2Proof.core hstep rest.length).trans hrun
    · rw [List.filter_append, List.length_append, n1, n2, List.length_cons, Nat.add_comm]

/-- Settles O18: each step answers one packet with one RESULT. -/
theorem everyPacketIsAnsweredOnce : Obligations.EveryPacketIsAnsweredOnce := by
  intro s h hp
  obtain ⟨t, evs, hrun, ht, hinv, htrace, hcount⟩ := run_packets s.inputs s h rfl hp
  refine ⟨t, hrun, ht, hinv, ?_⟩
  rw [newEvents, htrace, List.drop_left]
  exact hcount

end Sys2Proof.Machine
end

section
/-! Runs that go on forever: VTIMER ticks again and again where the host adds nothing, and where it ticks again and again
each level comes back to the VCOM pin. -/

namespace Sys2Proof.Machine

/-! ### Runs to which the host adds nothing -/

/-- Each step of a run takes one input, as long as one waits (log 8). -/
theorem closedRun_inputs {run : Nat → State} (h : ∀ k, step (run k) = .next (run (k + 1))) (k n : Nat) :
    (run (k + n)).inputs = (run k).inputs.drop n := by
  induction n with
  | zero => rfl
  | succ n ih => rw [Nat.add_succ, (step_kept (h (k + n))).2, ih, List.tail_drop]

/-- A step with no input left has a VCOM event, or the timer is stopped (20_memory.md R52 (a); log 14). -/
theorem step_idle_event {s t : State} (hi : s.inputs = []) (he : step s = .next t) :
    s.io.vcom.running = false ∨ ∃ e ∈ newEvents s t, e.onVcom = true := by
  cases hr : s.io.vcom.running with
  | false => exact .inl rfl
  | true =>
    obtain ⟨e, rest, ht, hv⟩ := Io.idle_event hr
    rw [step_idle hi he]
    exact .inr ⟨e, by simp [newEvents, ht], hv⟩

/-- Settles O34: once the inputs that waited are taken, every step waits. -/
theorem closedRunsAreFair : Obligations.ClosedRunsAreFair := by
  intro run h k
  refine ⟨k + (run k).inputs.length, Nat.le_add_right _ _, step_idle_event ?_ (h _)⟩
  rw [closedRun_inputs h, List.drop_length]

/-! ### Levels that alternate -/

/-- The VCOM state follows the events, and every level driven is another than the one before it (43_power_vcom.md R105,
R106). -/
structure Io.Alternates (a b : Io) (evs : List Event) : Prop extends a.VcomFollows b evs where
  chain : (a.vcom.toggle :: vcomLevels evs).IsChain (· ≠ ·)

theorem Io.Alternates.trans {a b c : Io} {e1 e2 : List Event} (h1 : a.Alternates b e1) (h2 : b.Alternates c e2) :
    a.Alternates c (e1 ++ e2) where
  toVcomFollows := h1.toVcomFollows.trans h2.toVcomFollows
  chain := by
    obtain ⟨hhead, htail⟩ := List.isChain_cons.1 h2.chain
    rw [vcomLevels_append, ← List.cons_append, List.isChain_append]
    refine ⟨h1.chain, htail, fun x hx y hy => ?_⟩
    have hlast : x = b.vcom.toggle := by
      rw [h1.toggle]
      rw [List.getLast?_cons] at hx
      exact (Option.mem_some_iff.1 hx).symm
    exact hlast ▸ hhead y hy

theorem Io.Alternates.still {a b : Io} {evs : List Event} (h : a.VcomFollows b evs) (hl : vcomLevels evs = []) :
    a.Alternates b evs :=
  ⟨h, by simp [hl]⟩

/-- A tick drives the complement of VCOM_TOGGLE, counts a failure, or does nothing (43_power_vcom.md R105). -/
theorem Io.tick_alternates (io : Io) : ∃ evs, io.Alternates io.tick evs := by
  cases hr : io.vcom.running with
  | false => exact ⟨[], by simp only [Io.tick, hr]; exact .still (.still (by simp) rfl rfl rfl rfl rfl) rfl⟩
  | true =>
    have ht : io.tick = ((io.acquire .vtimer).toggleVcom).release := by simp [Io.tick, hr]
    rw [ht]
    rcases Io.toggleVcom_cases (io.acquire .vtimer) with ⟨-, h⟩ | ⟨-, h⟩ <;> rw [h]
    · exact ⟨[.gpioVcom !io.vcom.toggle], .driven rfl rfl rfl rfl, by simp [vcomLevels]⟩
    · exact ⟨[.gpioVcomFail], .still ⟨rfl, missedSucc_toNat _, rfl, id⟩ rfl⟩

/-- What ends with the timer running began with it running, and its levels alternate. -/
def Io.AlternatesWhileRunning (a b : Io) : Prop :=
  b.vcom.running = true → a.vcom.running = true ∧ ∃ evs, a.Alternates b evs

/-- Whatever does not start the timer has this property. -/
theorem alternatesWhileRunning_pinRel : PinRel Io.AlternatesWhileRunning where
  refl io hr := ⟨hr, [], .still (.still (by simp) rfl rfl rfl rfl rfl) rfl⟩
  trans h1 h2 hc := by
    obtain ⟨hb, e2, a2⟩ := h2 hc
    obtain ⟨ha, e1, a1⟩ := h1 hb
    exact ⟨ha, e1 ++ e2, a1.trans a2⟩
  tick io hr := ⟨io.tick_ticked.running ▸ hr, io.tick_alternates⟩
  log e io he hr :=
    have hv := vcom_of_not_onVcom he
    ⟨hr, [e], .still (.still rfl rfl rfl rfl hv.2 hv.1) hv.1⟩
  other io io' hv ht hr :=
    ⟨hv ▸ hr, [], .still (.still (by simpa using ht) (by rw [hv]) (by rw [hv]) (by rw [hv]) rfl rfl) rfl⟩

/-- DISABLE in Active leaves the timer stopped (43_power_vcom.md R104, R108). -/
theorem exec_disable_stops {s t : State} (hact : s.pstate = .active) (he : exec .disable s = .next t) :
    t.io.vcom.running = false := by
  obtain ⟨n, ticks, hd⟩ := disableRule_active (s := { s with phase := .busy (some .disable) }) hact
  obtain rfl := Host.Outcome.next.inj he
  rw [commandCycle_runs (.inr rfl), hd, (finish_held _ _).running]

theorem exec_alternates {i : Instr} {s t : State} (hact : s.pstate = .active) (he : exec i s = .next t) :
    s.io.AlternatesWhileRunning t.io := by
  by_cases hoff : i = .disable
  · subst hoff
    intro hr
    rw [exec_disable_stops hact he] at hr
    cases hr
  · exact alternatesWhileRunning_pinRel.exec (fun _ => by simp [hact]) (absurd · hoff) he

/-- In a step in Active that leaves the timer running the levels alternate: it is no reset and no DISABLE. -/
theorem step_alternates {s t : State} (hact : s.pstate = .active) (he : step s = .next t)
    (hr : t.io.vcom.running = true) : ∃ evs, s.io.Alternates t.io evs := by
  have h := alternatesWhileRunning_pinRel
  have key : s.io.AlternatesWhileRunning t.io := by
    cases step_moved he with
    | waits => exact h.idle _
    | ran rest _ he => exact exec_alternates (s := { s with inputs := rest }) hact he
    | rejects rest => exact h.rejectPacket { s with inputs := rest }
    | reads rest k => exact h.refl _
    | ticks rest => exact h.tick _
    | resets _ => cases hr
    | cut _ _ => cases hr
  exact (key hr).2

/-! ### Fair runs -/

theorem openRun_inv {run : Nat → State} {host : Nat → List Input} (h : OpenRun run host) (h0 : Inv (run 0)) (k : Nat) :
    Inv (run k) := by
  induction k with
  | zero => exact h0
  | succ k ih => exact stepKeepsTheInvariant _ _ (ih.carry (.refl _) _ _) (h k)

theorem mem_vcomLevels {l : Bool} {evs : List Event} : l ∈ vcomLevels evs ↔ .gpioVcom l ∈ evs := by
  induction evs with
  | nil => simp [vcomLevels]
  | cons e rest ih => cases e <;> simp [vcomLevels, ih]

/-- Where VCOM's levels alternate and one of them is never driven, the other is driven only from a VCOM_TOGGLE that is
the missing level, and VCOM_TOGGLE is the other level after it. -/
theorem Io.Alternates.driven_once {a b : Io} {evs : List Event} (h : a.Alternates b evs) {level l : Bool}
    (hl : .gpioVcom l ∈ evs) (hn : .gpioVcom level ∉ evs) : a.vcom.toggle = level ∧ b.vcom.toggle = !level := by
  rw [← mem_vcomLevels] at hl hn
  have hother : ∀ m ∈ vcomLevels evs, m = !level := fun m hm => Bool.eq_not_iff.2 fun he => hn (he ▸ hm)
  obtain ⟨l₁, rest, hlevels⟩ := List.exists_cons_of_ne_nil (List.ne_nil_of_mem hl)
  constructor
  · have hl₁ : l₁ = !level := hother l₁ (by simp [hlevels])
    have hne := (List.isChain_cons_cons.1 (hlevels ▸ h.chain)).1
    rw [hl₁] at hne
    simpa using hne
  · rw [h.toggle, List.getLast?_eq_some_getLast (List.ne_nil_of_mem hl), Option.getD_some]
    exact hother _ (List.getLast_mem _)

/-- VCOM_TOGGLE stays where it is as long as the level it would change to is not driven. -/
theorem Io.Alternates.toggle_stays {a b : Io} {evs : List Event} (h : a.Alternates b evs) {level : Bool}
    (ha : a.vcom.toggle = !level) (hn : .gpioVcom level ∉ evs) : b.vcom.toggle = !level := by
  cases hlevels : vcomLevels evs with
  | nil => rw [h.toggle, hlevels]; exact ha
  | cons l rest => exact (h.driven_once (mem_vcomLevels.1 (hlevels ▸ List.mem_cons_self)) hn).2

/-- Along a run from the invariant, in a step that finds and leaves the timer running, the levels alternate. -/
theorem openRun_alternates {run : Nat → State} {host : Nat → List Input} (h : OpenRun run host) (h0 : Inv (run 0))
    {m : Nat} (hr : (run m).io.vcom.running = true) (hr' : (run (m + 1)).io.vcom.running = true) :
    (run m).io.Alternates (run (m + 1)).io (newEvents (run m) (run (m + 1))) := by
  have hact := (openRun_inv h h0 m).timer.1 hr
  obtain ⟨evs, ha⟩ := step_alternates (s := { run m with inputs := (run m).inputs ++ host m }) hact (h m) hr'
  have hevs : newEvents (run m) (run (m + 1)) = evs := by rw [newEvents, ha.trace, List.drop_left]
  exact hevs ▸ ha

/-- Settles O35: if a level never came back, fairness would give a step that drives the other level, which leaves
VCOM_TOGGLE there for good, and then another such step, which needs VCOM_TOGGLE to be the missing level. -/
theorem fairRunsKeepVcomAlternating : Obligations.FairRunsKeepVcomAlternating := by
  intro run host start hopen hfair h0 hrun k level
  by_contra hno
  have hmissing (m : Nat) (hm : max k start ≤ m) : .gpioVcom level ∉ newEvents (run m) (run (m + 1)) :=
    fun hd => hno ⟨m, by omega, .inl hd⟩
  have hstep (m : Nat) (hm : max k start ≤ m) :
      (run m).io.Alternates (run (m + 1)).io (newEvents (run m) (run (m + 1))) :=
    openRun_alternates hopen h0 (hrun m (by omega)) (hrun (m + 1) (by omega))
  have hdrives (n : Nat) (hn : max k start ≤ n) :
      ∃ m l, n ≤ m ∧ .gpioVcom l ∈ newEvents (run m) (run (m + 1)) := by
    obtain ⟨m, hm, hstopped | ⟨e, he, hv⟩⟩ := hfair n
    · rw [hrun m (by omega)] at hstopped
      cases hstopped
    · cases e with
      | gpioVcom l => exact ⟨m, l, hm, he⟩
      | gpioVcomFail => exact absurd ⟨m, by omega, .inr he⟩ hno
      | _ => cases hv
  obtain ⟨m, l, hm, hd⟩ := hdrives _ (Nat.le_refl _)
  have hstays (n : Nat) : (run (m + 1 + n)).io.vcom.toggle = !level := by
    induction n with
    | zero => exact ((hstep m hm).driven_once hd (hmissing m hm)).2
    | succ n ih => exact (hstep (m + 1 + n) (by omega)).toggle_stays ih (hmissing (m + 1 + n) (by omega))
  obtain ⟨m', l', hm', hd'⟩ := hdrives (m + 1) (by omega)
  have htoggle := ((hstep m' (by omega)).driven_once hd' (hmissing m' (by omega))).1
  have hother := hstays (m' - (m + 1))
  rw [Nat.add_sub_cancel' hm', htoggle] at hother
  exact (Bool.eq_not_self level).1 hother

end Sys2Proof.Machine
end

section
/-! The words of packets and the bytes on the wire: what each reading of a field gives back (30_encoding.md R58 to R61,
40_datapath.md R81, R82). -/

namespace Sys2Proof

/-! ### Bit reversal and row addresses -/

theorem getLsbD_bitrev8 (b : Byte) {k : Nat} (hk : k < 8) : (bitrev8 b).getLsbD k = b.getLsbD (7 - k) := by
  interval_cases k <;> simp [bitrev8]

theorem bitrev8_bitrev8 (b : Byte) : bitrev8 (bitrev8 b) = b := by
  apply BitVec.eq_of_getLsbD_eq
  intro k hk
  rw [getLsbD_bitrev8 _ hk, getLsbD_bitrev8 _ (by omega), Nat.sub_sub_self (by omega)]

theorem rowOfAddress_rowAddress (y : Nat) : rowOfAddress (rowAddress y) = BitVec.ofNat 8 y := by
  rw [rowOfAddress, rowAddress, bitrev8_bitrev8, BitVec.ofNat_add]
  exact BitVec.add_sub_cancel _ _

/-! ### Fields of words -/

@[simp] theorem headerWord_op (op : Byte) (a : BitVec 24) : (headerWord op a).extractLsb' 24 8 = op :=
  BitVec.extractLsb'_append_eq_left

@[simp] theorem headerWord_arg (op : Byte) (a : BitVec 24) : (headerWord op a).extractLsb' 0 24 = a :=
  BitVec.extractLsb'_append_eq_right

/-- A header is its opcode and its argument (30_encoding.md R58). -/
theorem headerWord_fields (header : Word) :
    headerWord (header.extractLsb' 24 8) (header.extractLsb' 0 24) = header :=
  (BitVec.extractLsb'_append_extractLsb'_eq_extractLsb' rfl).trans BitVec.extractLsb'_eq_self

@[simp] theorem lowHalf_wordOfHalves (high low : Half) : lowHalf (wordOfHalves high low) = low :=
  BitVec.extractLsb'_append_eq_right

@[simp] theorem highHalf_wordOfHalves (high low : Half) : highHalf (wordOfHalves high low) = high :=
  BitVec.extractLsb'_append_eq_left

@[simp] theorem wordOfHalves_halves (w : Word) : wordOfHalves (highHalf w) (lowHalf w) = w :=
  (BitVec.extractLsb'_append_extractLsb'_eq_extractLsb' rfl).trans BitVec.extractLsb'_eq_self

/-- The high bits of a field are zero exactly where its number is small. -/
theorem and_allOnes_shiftLeft_eq_zero_iff {w : Nat} (a : BitVec w) (k : Nat) :
    a &&& (BitVec.allOnes w <<< k) = 0 ↔ a.toNat < 2 ^ k := by
  constructor
  · intro h
    apply Nat.lt_pow_two_of_testBit
    intro i hi
    rw [BitVec.testBit_toNat]
    by_cases hw : i < w
    · have hbit := congrArg (BitVec.getLsbD · i) h
      simpa [hw, Nat.not_lt.2 hi] using hbit
    · exact BitVec.getLsbD_of_ge a i (Nat.not_lt.1 hw)
  · intro h
    apply BitVec.eq_of_getLsbD_eq
    intro i hi
    by_cases hk : i < k
    · simp [hk]
    · have hbit : a.getLsbD i = false :=
        Nat.testBit_lt_two_pow (Nat.lt_of_lt_of_le h (Nat.pow_le_pow_right (by decide) (Nat.not_lt.1 hk)))
      simp [hbit]

/-! ### Pixel bytes (30_encoding.md R61) -/

theorem bytesOfWord_wordOfBytes (b0 b1 b2 b3 : Byte) :
    bytesOfWord (wordOfBytes b0 b1 b2 b3) = [b0, b1, b2, b3] := by
  have lift {n : Nat} (hi : BitVec n) (lo : Byte) (k : Nat) :
      (hi ++ lo).extractLsb' (8 + k) 8 = hi.extractLsb' k 8 :=
    (BitVec.extractLsb'_append_eq_of_le (Nat.le_add_right 8 k)).trans (by rw [Nat.add_sub_cancel_left])
  have h0 : (wordOfBytes b0 b1 b2 b3).extractLsb' 0 8 = b0 := BitVec.extractLsb'_append_eq_right
  have h1 : (wordOfBytes b0 b1 b2 b3).extractLsb' 8 8 = b1 :=
    (lift _ _ 0).trans BitVec.extractLsb'_append_eq_right
  have h2 : (wordOfBytes b0 b1 b2 b3).extractLsb' 16 8 = b2 :=
    (lift _ _ 8).trans ((lift _ _ 0).trans BitVec.extractLsb'_append_eq_right)
  have h3 : (wordOfBytes b0 b1 b2 b3).extractLsb' 24 8 = b3 :=
    (lift _ _ 16).trans ((lift _ _ 8).trans BitVec.extractLsb'_append_eq_left)
  rw [bytesOfWord, h0, h1, h2, h3]

/-- Unpacking takes back what packing put into the words. -/
theorem unpackPixels_packPixels (pix : List Byte) : unpackPixels pix.length (packPixels pix) = pix := by
  unfold unpackPixels
  induction pix using packPixels.induct with
  | case1 => rfl
  | case2 a => simp [packPixels, bytesOfWord_wordOfBytes]
  | case3 a b => simp [packPixels, bytesOfWord_wordOfBytes]
  | case4 a b c => simp [packPixels, bytesOfWord_wordOfBytes]
  | case5 a b c d rest ih => simpa [packPixels, bytesOfWord_wordOfBytes] using ih

end Sys2Proof
end

section
/-! The packet decoder: the packets that a format admits, and the one equivalence that every later proof about packets
uses (30_encoding.md R59, R63 to R66). -/

namespace Sys2Proof

/-! ### What a format admits -/

/-- The opcodes that 30_encoding.md R63 gives a format. -/
def Format.opcodes : Format → List Byte
  | .f0 => [0x01, 0x02, 0x11, 0x44]
  | .fb => [0x20]
  | .fm => [0x21]
  | .fc => [0x22]
  | .fi => [0x30]
  | .fr => [0x10]
  | .fh => [0x41, 0x42, 0x43]
  | .fo => [0x40]

/-- The header arguments that a format admits are those below this: its reserved bits are zero and its MODE is not 3
(30_encoding.md R59, R65). -/
def Format.argLimit : Format → Nat
  | .f0 => 1
  | .fb => 2
  | .fm => 3
  | .fc => 256
  | .fi => 65536
  | .fr => 1
  | .fh => 1
  | .fo => 1

/-- How many words a format has after the header, where these stand there (30_encoding.md R59, R66). -/
def Format.operands (f : Format) (ops : List Word) : Nat :=
  match f with
  | .f0 => 0
  | .fb => 0
  | .fm => 0
  | .fc => 0
  | .fi => 0
  | .fr => 2
  | .fh => 1
  | .fo => 2 + pixelWords ((lowHalf (ops.getD 1 0)).toNat * (highHalf (ops.getD 1 0)).toNat)

/-- The format admits a packet of this opcode, header argument and operand words. -/
structure Format.Admits (f : Format) (op : Byte) (a : BitVec 24) (ops : List Word) : Prop where
  opcode : op ∈ f.opcodes
  arg : a.toNat < f.argLimit
  length : ops.length = f.operands ops

theorem opFormat_eq_some_iff (op : Byte) (f : Format) : opFormat op = some f ↔ op ∈ f.opcodes := by
  constructor
  · intro h
    unfold opFormat at h
    split at h
    case h_14 => cases h
    all_goals
      next hop =>
        obtain rfl := Option.some.inj h
        simp [Format.opcodes, ← BitVec.toNat_inj, hop]
  · intro h
    cases f <;> simp only [Format.opcodes, List.mem_cons, List.not_mem_nil, or_false] at h
    case f0 => rcases h with rfl | rfl | rfl | rfl <;> rfl
    case fh => rcases h with rfl | rfl | rfl <;> rfl
    all_goals subst h; rfl

/-- The decoder's two checks of the header argument are one bound. -/
theorem Format.lt_argLimit_iff (f : Format) (a : BitVec 24) :
    a.toNat < f.argLimit ↔ a &&& f.reserved = 0 ∧ ¬ (f = .fm ∧ a.extractLsb' 0 2 = 3) := by
  cases f with
  | fm =>
    have hmode : a.extractLsb' 0 2 = 3 ↔ a.toNat % 4 = 3 := by
      rw [← BitVec.toNat_inj]
      simp
    have hbits : a &&& Format.fm.reserved = 0 ↔ a.toNat < 4 := and_allOnes_shiftLeft_eq_zero_iff a 2
    simp only [hbits, hmode, Format.argLimit, true_and]
    omega
  | fb => exact (and_allOnes_shiftLeft_eq_zero_iff a 1).symm.trans (by simp [Format.reserved])
  | fc => exact (and_allOnes_shiftLeft_eq_zero_iff a 8).symm.trans (by simp [Format.reserved])
  | fi => exact (and_allOnes_shiftLeft_eq_zero_iff a 16).symm.trans (by simp [Format.reserved])
  | _ => exact (and_allOnes_shiftLeft_eq_zero_iff a 0).symm.trans (by simp [Format.reserved])

theorem Format.length_cons (f : Format) (header : Word) (ops : List Word) :
    f.length (header :: ops) = f.operands ops + 1 := by
  cases f with
  | fo => simp only [Format.length, Format.operands, List.getD_cons_succ]; omega
  | _ => rfl

/-- A packet decodes to what a format that admits it makes of it (30_encoding.md R64). -/
theorem decodePacket_eq_ok_iff (op : Byte) (a : BitVec 24) (ops : List Word) (i : Instr) :
    decodePacket (headerWord op a :: ops) = .ok i ↔
      (∃ f : Format, f.Admits op a ops) ∧ commandOf op a ops = some i := by
  simp only [decodePacket, headerWord_op, headerWord_arg]
  constructor
  · intro h
    split at h
    · cases h
    next f hf =>
    split at h
    · cases h
    next hbits =>
    split at h
    · cases h
    next hmode =>
    split at h
    · cases h
    next hlen =>
    split at h
    · cases h
    next hc =>
    rw [Format.length_cons] at hlen
    have hop := (opFormat_eq_some_iff op f).1 hf
    have harg := (f.lt_argLimit_iff a).2 ⟨not_not.1 hbits, hmode⟩
    exact ⟨⟨f, hop, harg, by simpa using hlen⟩, Except.ok.inj h ▸ hc⟩
  · rintro ⟨⟨f, hop, harg, hlen⟩, hc⟩
    obtain ⟨hbits, hmode⟩ := (f.lt_argLimit_iff a).1 harg
    have hf := (opFormat_eq_some_iff op f).2 hop
    simp only [hf]
    rw [if_neg (not_not.2 hbits), if_neg hmode, if_neg (by simp [Format.length_cons, hlen]), hc]

/-! ### The command of an admitted packet -/

theorem modeOfBits_eq_some_iff (b : BitVec 2) (m : DitherMode) : modeOfBits b = some m ↔ b = m.bits := by
  cases m <;> revert b <;> decide

theorem isSome_modeOfBits_iff (b : BitVec 2) : (modeOfBits b).isSome = true ↔ b ≠ 3 := by
  revert b
  decide

/-- Every packet that a format admits stands for a command (30_encoding.md R64). -/
theorem Format.Admits.exists_command {f : Format} {op : Byte} {a : BitVec 24} {ops : List Word}
    (h : f.Admits op a ops) : ∃ i, commandOf op a ops = some i := by
  obtain ⟨hop, harg, -⟩ := h
  cases f <;> simp only [Format.opcodes, List.mem_cons, List.not_mem_nil, or_false] at hop
  case f0 => rcases hop with rfl | rfl | rfl | rfl <;> exact ⟨_, rfl⟩
  case fh => rcases hop with rfl | rfl | rfl <;> exact ⟨_, rfl⟩
  case fm =>
    subst hop
    have hmode : a.extractLsb' 0 2 ≠ 3 := fun he => ((Format.lt_argLimit_iff .fm a).1 harg).2 ⟨rfl, he⟩
    obtain ⟨m, hm⟩ := Option.isSome_iff_exists.1 ((isSome_modeOfBits_iff _).2 hmode)
    exact ⟨.setDither m, by simp [commandOf, hm]⟩
  all_goals subst hop; exact ⟨_, rfl⟩

/-! ### Header arguments -/

/-- The lowest bits of a small argument are all of it. -/
theorem zeroExtend_extractLsb' (a : BitVec 24) {k : Nat} (h : a.toNat < 2 ^ k) :
    (a.extractLsb' 0 k).zeroExtend 24 = a := by
  apply BitVec.eq_of_toNat_eq
  simp [Nat.mod_eq_of_lt h, Nat.mod_eq_of_lt a.isLt]

theorem ofBool_getLsbD_zero (a : BitVec 24) : BitVec.ofBool (a.getLsbD 0) = a.extractLsb' 0 1 :=
  (BitVec.setWidth_one (x := a)).symm.trans (BitVec.setWidth_eq_extractLsb' (by decide))

theorem indicatorArg_low (idx g : Byte) : (0#8 ++ idx ++ g : BitVec 24).extractLsb' 0 8 = g :=
  BitVec.extractLsb'_append_eq_right

theorem indicatorArg_high (idx g : Byte) : (0#8 ++ idx ++ g : BitVec 24).extractLsb' 8 8 = idx :=
  (BitVec.extractLsb'_append_eq_of_le (xhi := 0#8 ++ idx) (xlo := g) (Nat.le_refl 8)).trans
    BitVec.extractLsb'_append_eq_right

theorem indicatorArg_lt (idx g : Byte) : (0#8 ++ idx ++ g : BitVec 24).toNat < 65536 := by
  apply Nat.lt_pow_two_of_testBit (n := 16)
  intro k hk
  rw [BitVec.testBit_toNat, BitVec.getLsbD_append, BitVec.getLsbD_append, if_neg (by omega), if_neg (by omega),
    BitVec.getLsbD_zero]

/-- The argument of SET_INDICATOR is its two fields under zeros (30_encoding.md R59). -/
theorem indicatorArg_fields (a : BitVec 24) (h : a.toNat < 65536) :
    (0#8 ++ a.extractLsb' 8 8 ++ a.extractLsb' 0 8 : BitVec 24) = a := by
  have hhigh : 0#8 = a.extractLsb' 16 8 := by
    apply BitVec.eq_of_toNat_eq
    simp [Nat.shiftRight_eq_div_pow]
    omega
  have hfields : a.extractLsb' 16 8 ++ a.extractLsb' 8 8 = a.extractLsb' 8 16 :=
    BitVec.extractLsb'_append_extractLsb'_eq_extractLsb' rfl
  rw [hhigh, hfields]
  exact (BitVec.extractLsb'_append_extractLsb'_eq_extractLsb' rfl).trans BitVec.extractLsb'_eq_self

end Sys2Proof
end

section
/-! Packets and commands: what the encoder writes decodes back, and what decodes is what the encoder writes
(30_encoding.md R59 to R66). -/

namespace Sys2Proof

/-! ### From commands to packets -/

/-- The packet of a command is admitted by the format of its opcode, and stands for it. -/
theorem decode_encode_command (c : Config) {i : Instr} (hi : Machine.isCommand i = true) (hw : i.wf c = true) :
    decode c (encode c i) = .ok i := by
  have back {op : Byte} {a : BitVec 24} {ops : List Word} (f : Format) (h : f.Admits op a ops)
      (hc : commandOf op a ops = some i) : decode c (.packet (headerWord op a :: ops)) = .ok i :=
    (decodePacket_eq_ok_iff op a ops i).2 ⟨⟨f, h⟩, hc⟩
  cases i with
  | enable => exact back .f0 ⟨by decide, by decide, rfl⟩ rfl
  | disable => exact back .f0 ⟨by decide, by decide, rfl⟩ rfl
  | damage x1 x2 y1 y2 => exact back .fr ⟨by decide, by decide, rfl⟩ (by simp [commandOf])
  | refresh => exact back .f0 ⟨by decide, by decide, rfl⟩ rfl
  | setInvert v => exact back .fb ⟨by decide, by cases v <;> decide, rfl⟩ (by simp [commandOf])
  | setDither m =>
    have hm : (m.bits.zeroExtend 24).extractLsb' 0 2 = m.bits := by cases m <;> rfl
    exact back .fm ⟨by decide, by cases m <;> decide, rfl⟩
      (by simp [commandOf, hm, (modeOfBits_eq_some_iff _ m).2])
  | setCutoff v =>
    have hv : (v.zeroExtend 24).extractLsb' 0 8 = v :=
      (BitVec.extractLsb'_setWidth_of_le (by decide)).trans BitVec.extractLsb'_eq_self
    exact back .fc ⟨by decide, by simp [Format.argLimit]; omega, rfl⟩ (by simp [commandOf, hv])
  | setIndicator idx g =>
    exact back .fi ⟨by decide, indicatorArg_lt idx g, rfl⟩
      (by simp [commandOf, indicatorArg_low, indicatorArg_high])
  | ovlAdd x y w h pix =>
    have hpix : pix.length = w.toNat * h.toNat := by simpa [Instr.wf, Instr.pixelsFit] using hw
    refine back .fo ⟨by decide, by decide, ?_⟩ ?_
    · simp [Format.operands, Laws.EncodeLength.packPixels_length, hpix]
      omega
    · simp [commandOf, ← hpix, unpackPixels_packPixels]
  | ovlRemove handle => exact back .fh ⟨by decide, by decide, rfl⟩ rfl
  | ovlShow handle => exact back .fh ⟨by decide, by decide, rfl⟩ rfl
  | ovlHide handle => exact back .fh ⟨by decide, by decide, rfl⟩ rfl
  | ovlClear => exact back .f0 ⟨by decide, by decide, rfl⟩ rfl
  | wireClear => cases hi
  | wireWriteLines _ _ => cases hi

/-! ### From packets to commands -/

theorem eq_zero_of_toNat_lt_one {w : Nat} {a : BitVec w} (h : a.toNat < 1) : a = 0#w :=
  BitVec.eq_of_toNat_eq (by simpa using h)

/-- A packet that a format other than FO admits is the encoding of its command. -/
theorem Format.Admits.encode_eq {f : Format} {op : Byte} {a : BitVec 24} {ops : List Word} {i : Instr}
    (h : f.Admits op a ops) (hfo : f ≠ .fo) (hc : commandOf op a ops = some i) (c : Config) :
    encode c i = .packet (headerWord op a :: ops) := by
  obtain ⟨hop, harg, hlen⟩ := h
  cases f <;> simp only [opcodes, List.mem_cons, List.not_mem_nil, or_false] at hop
  case f0 =>
    obtain rfl := List.eq_nil_of_length_eq_zero hlen
    obtain rfl := eq_zero_of_toNat_lt_one harg
    rcases hop with rfl | rfl | rfl | rfl <;> cases hc <;> rfl
  case fb =>
    obtain rfl := List.eq_nil_of_length_eq_zero hlen
    subst hop
    cases hc
    simp only [encode, ofBool_getLsbD_zero]
    rw [zeroExtend_extractLsb' a harg]
  case fm =>
    obtain rfl := List.eq_nil_of_length_eq_zero hlen
    subst hop
    obtain ⟨m, hm, rfl⟩ := Option.map_eq_some_iff.1 hc
    simp only [encode, ← (modeOfBits_eq_some_iff _ m).1 hm]
    rw [zeroExtend_extractLsb' a (Nat.lt_succ_of_lt harg)]
  case fc =>
    obtain rfl := List.eq_nil_of_length_eq_zero hlen
    subst hop
    cases hc
    simp only [encode]
    rw [zeroExtend_extractLsb' a (k := 8) harg]
  case fi =>
    obtain rfl := List.eq_nil_of_length_eq_zero hlen
    subst hop
    cases hc
    simp only [encode, indicatorArg_fields a harg]
  case fr =>
    obtain ⟨w1, w2, rfl⟩ := List.length_eq_two.1 hlen
    obtain rfl := eq_zero_of_toNat_lt_one harg
    subst hop
    cases hc
    simp [encode]
  case fh =>
    obtain ⟨w1, rfl⟩ := List.length_eq_one_iff.1 hlen
    obtain rfl := eq_zero_of_toNat_lt_one harg
    rcases hop with rfl | rfl | rfl <;> cases hc <;> rfl
  case fo => exact absurd rfl hfo

/-- A packet that FO admits is an OVL_ADD of its fields, with as many data words as its pixels take. -/
theorem Format.Admits.ovlAdd {op : Byte} {a : BitVec 24} {ops : List Word} {i : Instr}
    (h : Format.fo.Admits op a ops) (hc : commandOf op a ops = some i) :
    ∃ x y w h' data, op = 0x40 ∧ a = 0 ∧ ops = wordOfHalves y x :: wordOfHalves h' w :: data ∧
      data.length = pixelWords (w.toNat * h'.toNat) ∧
      i = .ovlAdd x y w h' (unpackPixels (w.toNat * h'.toNat) data) := by
  obtain ⟨hop, harg, hlen⟩ := h
  obtain rfl := List.mem_singleton.1 hop
  obtain rfl := eq_zero_of_toNat_lt_one harg
  match ops, hlen with
  | [], hlen | [_], hlen =>
    simp only [operands, List.length_nil, List.length_singleton] at hlen
    omega
  | w1 :: w2 :: data, hlen =>
    cases hc
    refine ⟨lowHalf w1, highHalf w1, lowHalf w2, highHalf w2, data, rfl, rfl, by simp, ?_, rfl⟩
    simp only [operands, List.length_cons, List.getD_cons_succ, List.getD_cons_zero] at hlen
    omega

/-- A packet that decodes is one that a format admits. -/
theorem exists_admits_of_decodePacket {ws : List Word} {i : Instr} (h : decodePacket ws = .ok i) :
    ∃ (f : Format) (op : Byte) (a : BitVec 24) (ops : List Word),
      ws = headerWord op a :: ops ∧ f.Admits op a ops ∧ commandOf op a ops = some i := by
  cases ws with
  | nil => cases h
  | cons header ops =>
    rw [← headerWord_fields header] at h ⊢
    obtain ⟨⟨f, hf⟩, hc⟩ := (decodePacket_eq_ok_iff _ _ ops i).1 h
    exact ⟨f, _, _, ops, rfl, hf, hc⟩

/-- The decodable packets are the admitted ones (30_encoding.md R64). -/
theorem exists_decodePacket_iff (op : Byte) (a : BitVec 24) (ops : List Word) :
    (∃ i, decodePacket (headerWord op a :: ops) = .ok i) ↔ ∃ f : Format, f.Admits op a ops := by
  constructor
  · rintro ⟨i, hi⟩
    exact ((decodePacket_eq_ok_iff op a ops i).1 hi).1
  · rintro ⟨f, hf⟩
    obtain ⟨i, hc⟩ := hf.exists_command
    exact ⟨i, (decodePacket_eq_ok_iff op a ops i).2 ⟨⟨f, hf⟩, hc⟩⟩

/-- Of the commands only OVL_ADD can be ill-formed. -/
theorem wf_of_carriesItsPixels (c : Config) {i : Instr} (hi : Machine.isCommand i = true)
    (hp : Machine.CarriesItsPixels i) : i.wf c = true := by
  cases i with
  | ovlAdd x y w h pix => exact hp x y w h pix rfl
  | wireClear => cases hi
  | wireWriteLines _ _ => cases hi
  | _ => rfl

/-- The encoding of what an admitted packet stands for has its length, its first three words, and its pixel bytes. -/
theorem Format.Admits.encode_agrees {f : Format} {op : Byte} {a : BitVec 24} {ops : List Word} {i : Instr}
    (hf : f.Admits op a ops) (hc : commandOf op a ops = some i) (c : Config) :
    ∃ ws', encode c i = .packet ws' ∧ ws'.length = (headerWord op a :: ops).length ∧
      ws'.take 3 = (headerWord op a :: ops).take 3 ∧ ∀ x y w h pix, i = .ovlAdd x y w h pix →
        unpackPixels pix.length ((headerWord op a :: ops).drop 3) = pix ∧
          unpackPixels pix.length (ws'.drop 3) = pix := by
  by_cases hfo : f = .fo
  · subst hfo
    obtain ⟨x, y, w, h, data, rfl, rfl, rfl, hdata, rfl⟩ := hf.ovlAdd hc
    have hlen : (unpackPixels (w.toNat * h.toNat) data).length = w.toNat * h.toNat := by
      rw [Machine.unpackPixels_length, hdata, pixelWords]
      omega
    refine ⟨_, rfl, ?_, rfl, ?_⟩
    · simp [Laws.EncodeLength.packPixels_length, hlen, hdata]
    · rintro _ _ _ _ _ ⟨⟩
      exact ⟨by rw [hlen]; rfl, unpackPixels_packPixels _⟩
  · refine ⟨_, hf.encode_eq hfo hc c, rfl, rfl, ?_⟩
    rintro x y w h pix rfl
    obtain ⟨hop, -⟩ := Machine.commandOf_ovlAdd hc
    obtain rfl : op = 0x40 := BitVec.eq_of_toNat_eq hop
    exact absurd (Option.some.inj (((opFormat_eq_some_iff _ f).2 hf.opcode).symm.trans rfl)) hfo

/-- There are eight formats. -/
theorem Format.exists_iff (p : Format → Prop) :
    (∃ f, p f) ↔ p .f0 ∨ p .fb ∨ p .fm ∨ p .fc ∨ p .fi ∨ p .fr ∨ p .fh ∨ p .fo := by
  constructor
  · rintro ⟨f, hf⟩
    cases f <;> simp [hf]
  · rintro (h | h | h | h | h | h | h | h) <;> exact ⟨_, h⟩

theorem Format.admits_iff (f : Format) (op : Byte) (a : BitVec 24) (ops : List Word) :
    f.Admits op a ops ↔
      op.toNat ∈ f.opcodes.map BitVec.toNat ∧ a.toNat < f.argLimit ∧ ops.length = f.operands ops := by
  rw [List.mem_map_of_injective fun _ _ => BitVec.eq_of_toNat_eq]
  exact ⟨fun ⟨h1, h2, h3⟩ => ⟨h1, h2, h3⟩, fun ⟨h1, h2, h3⟩ => ⟨h1, h2, h3⟩⟩

/-! ### The obligations -/

/-- Settles O2: the packet is admitted by a format, and its encoding agrees with it. -/
theorem acceptedPacketsAreEncodings : Obligations.AcceptedPacketsAreEncodings := by
  intro c ws i hd
  obtain ⟨f, op, a, ops, rfl, hf, hc⟩ := exists_admits_of_decodePacket hd
  have hi := Machine.isCommand_of_commandOf hc
  exact ⟨wf_of_carriesItsPixels c hi (Machine.decodePacket_carriesItsPixels hd), hi, hf.encode_agrees hc c⟩

/-- Settles O3: what decodes is what a format admits, format by format. -/
theorem packetsOutsideTheTableAreRefused : Obligations.PacketsOutsideTheTableAreRefused := by
  intro header ops
  obtain ⟨op, a, rfl⟩ : ∃ op a, header = headerWord op a := ⟨_, _, (headerWord_fields header).symm⟩
  dsimp only
  rw [headerWord_op, headerWord_arg, exists_decodePacket_iff, Format.exists_iff]
  have hfo : ops.length = Format.fo.operands ops ↔ 2 ≤ ops.length ∧ ops.length =
      2 + (((ops.getD 1 0).extractLsb' 0 16).toNat * ((ops.getD 1 0).extractLsb' 16 16).toNat + 3) / 4 :=
    ⟨fun h => ⟨h ▸ Nat.le_add_right _ _, h⟩, And.right⟩
  simp only [Format.admits_iff, hfo]
  simp [Format.opcodes, Format.argLimit, Format.operands]

end Sys2Proof
end

section
/-! The wire forms: where their bytes stand, and that they decode back (30_encoding.md R69). -/

namespace Sys2Proof

open Machine (taggedRow_length taggedRows_length)

/-- What makes a multi-row write well-formed. -/
theorem wf_wireWriteLines_iff (c : Config) (y1 : Byte) (rows : List (List Byte)) :
    (Instr.wireWriteLines y1 rows).wf c = true ↔
      rows ≠ [] ∧ (∀ p ∈ rows, p.length = c.bytesPerRow) ∧ y1.toNat + rows.length ≤ c.height := by
  simp [Instr.wf, Instr.someRow, Instr.payloadsFit, Instr.rowsOnPanel, and_assoc]

/-! ### Where the bytes stand -/

theorem taggedRow_address (y : Nat) (p : List Byte) : (taggedRow y p)[0]? = some (rowAddress y) := rfl

theorem taggedRow_payload {y j : Nat} {p : List Byte} (h : j < p.length) : (taggedRow y p)[1 + j]? = p[j]? := by
  rw [taggedRow, Nat.add_comm, List.getElem?_cons_succ, List.getElem?_append_left h]

theorem taggedRow_trailer (y : Nat) (p : List Byte) : (taggedRow y p)[1 + p.length]? = some 0 := by
  rw [taggedRow, Nat.add_comm, List.getElem?_cons_succ, List.getElem?_concat_length]

/-- Byte k of row r of consecutive tagged rows, all of the same stride. -/
theorem getElem?_taggedRows {n : Nat} {rows : List (List Byte)} (h : ∀ p ∈ rows, p.length = n) (y : Nat) {r k : Nat}
    (hr : r < rows.length) (hk : k < 2 + n) :
    (taggedRows y rows)[r * (2 + n) + k]? = (taggedRow (y + r) (rows.getD r []))[k]? := by
  induction rows generalizing y r with
  | nil => cases hr
  | cons p rest ih =>
    have hp : (taggedRow y p).length = 2 + n := by rw [taggedRow_length, h p (by simp), Nat.add_comm]
    cases r with
    | zero => rw [taggedRows, Nat.zero_mul, Nat.zero_add, List.getElem?_append_left (hp ▸ hk)]; rfl
    | succ r =>
      have hidx : (r + 1) * (2 + n) + k = (taggedRow y p).length + (r * (2 + n) + k) := by
        rw [hp, Nat.succ_mul]
        omega
      rw [taggedRows, hidx, List.getElem?_append_right (Nat.le_add_right _ _), Nat.add_sub_cancel_left,
        ih (fun q hq => h q (by simp [hq])) (y + 1) (by simpa using hr), Nat.add_assoc, Nat.add_comm 1 r]
      rfl

/-- Byte k of row r of a multi-row write. -/
theorem getElem?_writeLinesBytes_row {c : Config} {rows : List (List Byte)}
    (h : ∀ p ∈ rows, p.length = c.bytesPerRow) (y : Nat) {r k : Nat} (hr : r < rows.length) (hk : k < c.stride) :
    (writeLinesBytes c y rows)[1 + r * c.stride + k]? = (taggedRow (y + r) (rows.getD r []))[k]? := by
  have hlt : r * c.stride + k < (taggedRows y rows).length := by
    have hrow : (r + 1) * c.stride ≤ rows.length * c.stride := Nat.mul_le_mul_right _ hr
    rw [taggedRows_length h]
    rw [Nat.succ_mul] at hrow
    exact Nat.lt_of_lt_of_le (Nat.add_lt_add_left hk _) hrow
  rw [writeLinesBytes, Nat.add_assoc, Nat.add_comm 1, List.getElem?_cons_succ, List.getElem?_append_left hlt]
  exact getElem?_taggedRows h y hr hk

/-- A byte of the final trailer of a multi-row write. -/
theorem getElem?_writeLinesBytes_trailer {c : Config} {rows : List (List Byte)}
    (h : ∀ p ∈ rows, p.length = c.bytesPerRow) (y : Nat) {k : Nat} (hk : k < c.finalTrailerBytes) :
    (writeLinesBytes c y rows)[1 + rows.length * c.stride + k]? = some 0 := by
  have hlen : (taggedRows y rows).length = rows.length * c.stride := taggedRows_length h
  rw [writeLinesBytes, Nat.add_assoc, Nat.add_comm 1, List.getElem?_cons_succ,
    List.getElem?_append_right (by omega), hlen, Nat.add_sub_cancel_left]
  simp [hk]

/-! ### The decoder of wire bytes -/

/-- The address bytes of consecutive rows. -/
def rowAddresses (y n : Nat) : List Byte := (List.range' y n).map rowAddress

theorem rowAddresses_succ (y n : Nat) : rowAddresses y (n + 1) = rowAddress y :: rowAddresses (y + 1) n := rfl

theorem rowAddresses_length (y n : Nat) : (rowAddresses y n).length = n := by simp [rowAddresses]

theorem addressesFrom_rowAddresses (y n : Nat) : addressesFrom y (rowAddresses y n) = true := by
  induction n generalizing y with
  | zero => rfl
  | succ n ih => simp [rowAddresses_succ, addressesFrom, ih]

/-- Tagged rows are split into their addresses and payloads, whatever follows them. -/
theorem splitRows_taggedRows {n : Nat} {rows : List (List Byte)} (h : ∀ p ∈ rows, p.length = n) (y : Nat)
    (tail : List Byte) :
    splitRows n rows.length (taggedRows y rows ++ tail) = some ((rowAddresses y rows.length).zip rows, tail) := by
  induction rows generalizing y with
  | nil => rfl
  | cons p rest ih =>
    have hp : p.length = n := h p (by simp)
    have hbytes : taggedRows y (p :: rest) ++ tail =
        rowAddress y :: (p ++ 0 :: (taggedRows (y + 1) rest ++ tail)) := by
      simp [taggedRows, taggedRow]
    have hrest : (p ++ 0 :: (taggedRows (y + 1) rest ++ tail)).drop n = 0 :: (taggedRows (y + 1) rest ++ tail) :=
      List.drop_left' hp
    rw [hbytes, List.length_cons, splitRows, hrest, ← List.drop_drop, hrest]
    simp [ih fun q hq => h q (by simp [hq]), rowAddresses_succ, List.take_left' hp]

theorem decodeWire_clearBytes (c : Config) : decodeWire c (clearBytes c) = .ok .wireClear := by
  simp [decodeWire, clearBytes]

/-- More than two bytes can only be WW. -/
theorem decodeWire_of_length {c : Config} {bs : List Byte} (h : 2 < bs.length) :
    decodeWire c bs = decodeWriteLines c bs := by
  match bs, h with
  | _ :: _ :: _ :: _, _ => rfl

theorem rowOfAddress_headD_rowAddresses (y1 : Byte) {n : Nat} (h : 0 < n) :
    rowOfAddress ((rowAddresses y1.toNat n).headD 0) = y1 := by
  cases n with
  | zero => cases h
  | succ n => exact (rowOfAddress_rowAddress _).trans (by simp)

/-- The bytes of a multi-row write decode back, whatever the panel. -/
theorem decodeWriteLines_writeLinesBytes {c : Config} {rows : List (List Byte)} (hne : rows ≠ [])
    (h : ∀ p ∈ rows, p.length = c.bytesPerRow) (y1 : Byte) :
    decodeWriteLines c (writeLinesBytes c y1.toNat rows) = .ok (.wireWriteLines y1 rows) := by
  have hpos : 0 < rows.length := List.length_pos_of_ne_nil hne
  have hstride : 0 < c.stride := Nat.add_pos_left Nat.two_pos _
  have hlen : (taggedRows y1.toNat rows ++ List.replicate c.finalTrailerBytes 0).length =
      rows.length * c.stride + c.finalTrailerBytes := by
    rw [List.length_append, List.length_replicate, taggedRows_length h]
    rfl
  have hrow : c.stride ≤ rows.length * c.stride := Nat.le_mul_of_pos_left _ hpos
  have hzip := rowAddresses_length y1.toNat rows.length
  simp only [decodeWriteLines, writeLinesBytes, hlen, Nat.add_sub_cancel, Nat.mul_mod_left,
    Nat.mul_div_cancel _ hstride, splitRows_taggedRows h, List.map_fst_zip (Nat.le_of_eq hzip),
    List.map_snd_zip (Nat.le_of_eq hzip.symm), rowOfAddress_headD_rowAddresses y1 hpos, addressesFrom_rowAddresses]
  simp [hrow]

/-- The bytes of a well-formed wire form decode back. -/
theorem decode_encode_wireForm (c : Config) {i : Instr} (hi : Machine.isCommand i = false) (hw : i.wf c = true) :
    decode c (encode c i) = .ok i := by
  cases i with
  | wireClear => exact decodeWire_clearBytes c
  | wireWriteLines y1 rows =>
    obtain ⟨hne, hp, -⟩ := (wf_wireWriteLines_iff c y1 rows).1 hw
    have hlong : 2 < (writeLinesBytes c y1.toNat rows).length := by
      have hsize : (writeLinesBytes c y1.toNat rows).length = 1 + rows.length * c.stride + c.finalTrailerBytes :=
        Laws.EncodeLength.wireWriteLines y1 rows c hw
      have hrow : c.stride ≤ rows.length * c.stride := Nat.le_mul_of_pos_left _ (List.length_pos_of_ne_nil hne)
      have hstride : 2 ≤ c.stride := Nat.le_add_right 2 _
      omega
    exact (decodeWire_of_length hlong).trans (decodeWriteLines_writeLinesBytes hne hp y1)
  | _ => cases hi

/-! ### The obligations -/

/-- Settles O1: a command decodes back from its packet, a wire form from its bytes. -/
theorem encodedInstructionsDecodeBack : Obligations.EncodedInstructionsDecodeBack := by
  intro c i hw
  cases hi : Machine.isCommand i with
  | true => exact decode_encode_command c hi hw
  | false => exact decode_encode_wireForm c hi hw

/-- Settles O4: all but the OVL_ADD are what the encoder writes; that one fills the ignored byte of its data word. -/
theorem specWordsDecodeAsListed : Obligations.SpecWordsDecodeAsListed := by
  have written {i : Instr} {ws : List Word} (hw : i.wf Config.default = true)
      (he : encode Config.default i = .packet ws) : decodePacket ws = .ok i := by
    simpa only [he, decode] using encodedInstructionsDecodeBack Config.default i hw
  exact ⟨written rfl rfl, written rfl rfl, written rfl rfl, written rfl rfl, written rfl rfl, written rfl rfl,
    by decide, written rfl rfl⟩

/-- Settles O7: every byte of a row stands at its offset in the row's stride. -/
theorem wireBytesAreLaidOutInRows : Obligations.WireBytesAreLaidOutInRows := by
  intro c y1 rows hw
  obtain ⟨-, hp, -⟩ := (wf_wireWriteLines_iff c y1 rows).1 hw
  refine ⟨rfl, Laws.EncodeLength.wireWriteLines y1 rows c hw, rfl, fun r hr => ?_,
    fun k hk => getElem?_writeLinesBytes_trailer hp _ hk⟩
  have hrow (k : Nat) (hk : k < c.stride) := getElem?_writeLinesBytes_row hp y1.toNat hr hk
  have hlen : (rows.getD r []).length = c.bytesPerRow := by
    rw [List.getD_eq_getElem _ _ hr]
    exact hp _ (List.getElem_mem hr)
  have hstride : c.stride = 2 + c.bytesPerRow := rfl
  refine ⟨(hrow 0 (by omega)).trans (taggedRow_address _ _), fun j hj => ?_, ?_⟩
  · rw [Nat.add_assoc, hrow (1 + j) (by omega)]
    exact taggedRow_payload (hlen.symm ▸ hj)
  · have hlast : c.stride - 1 = 1 + (rows.getD r []).length := by omega
    rw [Nat.add_sub_assoc (by omega), hrow (c.stride - 1) (by omega), hlast]
    exact taggedRow_trailer _ _

end Sys2Proof
end

section
/-! What a rejected packet, a wire form and a pseudo-command do (30_encoding.md R65, R68, R69). -/

namespace Sys2Proof.Machine

/-- A rejected packet ends the command cycle with its code and does nothing else (60_exceptions.md R124). -/
theorem rejectPacket_eq (s : State) :
    rejectPacket s =
      finish (.error (if s.fault then .preconditionFault else .invalidCommand)) { s with phase := .busy none } := by
  cases hf : s.fault <;> simp [rejectPacket, hf]

/-- Settles O9: the step takes the packet, and its cycle is only the end of one. -/
theorem rejectedPacketsHaveNoEffect : Obligations.RejectedPacketsHaveNoEffect := by
  intro s rest ws e hc hm hi hd hne
  have hstep : step s = .next (rejectPacket { s with inputs := rest }) :=
    (step_takes hc hm hi).trans (runPacket_rejected hd hne _)
  rw [hstep, rejectPacket_eq]
  obtain ⟨io, hend, hio⟩ := finish_quiet (.error (if s.fault then .preconditionFault else .invalidCommand))
    { s with inputs := rest } (.busy none)
  exact ⟨io, congrArg _ hend, hio⟩

/-- Settles O48: the meaning of either wire form is one transaction of its bytes. -/
theorem wireFormsAreOneTransaction : Obligations.WireFormsAreOneTransaction := fun s =>
  ⟨⟨_, rfl, (Io.transaction_spec s.cfg (clearBytes s.cfg) s.io).2⟩, fun y1 rows _ =>
    ⟨_, rfl, (Io.transaction_spec s.cfg (writeLinesBytes s.cfg y1.toNat rows) s.io).2⟩⟩

/-! ### Pseudo-commands -/

/-- An update of rows in Active composites, converts and transmits them (42_update.md R95). -/
theorem update_sends {s : State} (hact : s.pstate = .active) {y1 y2 : Nat} (hrows : y1 ≠ y2) :
    update y1 y2 s = transmit (y2 - y1) (convert y1 y2 (composite y1 y2 s)) := by
  rw [update, if_neg (not_not.2 hact), if_neg hrows]

/-- An update neither reads nor writes EXEC's phase. -/
theorem update_phase (y1 y2 : Nat) (s : State) (p : Phase) :
    update y1 y2 { s with phase := p } = ({ (update y1 y2 s).1 with phase := p }, (update y1 y2 s).2) := by
  by_cases hact : s.pstate = .active
  · by_cases hrows : y1 = y2
    · subst hrows
      rw [update_empty hact, update_empty (s := { s with phase := p }) hact]
    · rw [update_sends hact hrows, update_sends (s := { s with phase := p }) hact hrows]
      rfl
  · rw [update_skipped hact, update_skipped (s := { s with phase := p }) hact]

/-- A command whose rule is an update leaves no trace of which command it was. -/
theorem commandCycle_update {i : Instr} {rule : State → State × Reply} {s : State} {y1 y2 : Nat}
    (hi : runsWhileFaulted i = false) (hr : ∀ p, rule { s with phase := p } = update y1 y2 { s with phase := p }) :
    commandCycle i rule s =
      if s.fault then finish (.error .preconditionFault) s
      else finish (update y1 y2 s).2 (update y1 y2 s).1 := by
  cases hf : s.fault with
  | true => exact commandCycle_faulted hf hi rule
  | false =>
    rw [commandCycle_runs (.inl hf), hr, update_phase]
    rfl

/-- The numbers of an admitted panel's sides fit a coordinate field (00_scope.md R8). -/
theorem toNat_ofNat_sides {c : Config} (hc : c.ok = true) :
    (BitVec.ofNat 16 c.width).toNat = c.width ∧ (BitVec.ofNat 16 c.height).toNat = c.height := by
  have hok := (Config.ok_iff c).1 hc
  simp only [BitVec.toNat_ofNat]
  omega

/-- FULL_DAMAGE does what REFRESH does (30_encoding.md R68). -/
theorem exec_fullDamage {s : State} (hc : s.cfg.ok = true) :
    exec (Instr.fullDamage s.cfg) s = exec .refresh s := by
  obtain ⟨hwidth, hheight⟩ := toNat_ofNat_sides hc
  have hdamage (p : Phase) :
      damageRule 0 (BitVec.ofNat 16 s.cfg.width) 0 (BitVec.ofNat 16 s.cfg.height) { s with phase := p } =
        update 0 s.cfg.height { s with phase := p } := by
    have hrows := damageRule_inside (x1 := 0) (y1 := 0) (s := { s with phase := p }) (Nat.zero_le _)
      (Nat.le_of_eq hwidth) (Nat.zero_le _) (Nat.le_of_eq hheight)
    rwa [hheight] at hrows
  have hrefresh (p : Phase) : fullRefresh { s with phase := p } = update 0 s.cfg.height { s with phase := p } := rfl
  have hcycle : commandCycle (Instr.fullDamage s.cfg)
      (damageRule 0 (BitVec.ofNat 16 s.cfg.width) 0 (BitVec.ofNat 16 s.cfg.height)) s =
        commandCycle .refresh fullRefresh s :=
    (commandCycle_update rfl hdamage).trans (commandCycle_update rfl hrefresh).symm
  exact congrArg Host.Outcome.next hcycle

/-- Settles O47: the sides fit their fields, and the whole panel's DAMAGE is REFRESH. -/
theorem pseudoCommandsExpand : Obligations.PseudoCommandsExpand := by
  intro c hc
  obtain ⟨hwidth, hheight⟩ := toNat_ofNat_sides hc
  refine ⟨fun y1 y2 => ⟨_, hwidth, rfl⟩, fun _ => rfl, ⟨_, _, hwidth, hheight, rfl⟩, ?_⟩
  rintro s rfl
  exact exec_fullDamage hc

end Sys2Proof.Machine
end

section
/-! Row addresses: the bit reversal of the 1-based row number names the row (40_datapath.md R81, R82). -/

namespace Sys2Proof

/-- Settles O5: by the bits of a reversed byte. -/
theorem bitReversalMirrorsTheByte : Obligations.BitReversalMirrorsTheByte := fun b =>
  ⟨fun _ hk => getLsbD_bitrev8 b hk, bitrev8_bitrev8 b⟩

/-- No row number of a panel of at most 255 rows wraps in its address byte. -/
theorem toNat_bitrev8_rowAddress {y : Nat} (hy : y < 255) : (bitrev8 (rowAddress y)).toNat = y + 1 := by
  rw [rowAddress, bitrev8_bitrev8, BitVec.toNat_ofNat, Nat.mod_eq_of_lt (by omega)]

/-- Settles O6: a row's address reversed back is its 1-based number, so equal addresses are of one row. -/
theorem rowAddressesNameTheRow : Obligations.RowAddressesNameTheRow := by
  intro c y hc hy
  have hok := (Machine.Config.ok_iff c).1 hc
  have hrow {r : Nat} (hr : r < c.height) : (bitrev8 (rowAddress r)).toNat = r + 1 :=
    toNat_bitrev8_rowAddress (by omega)
  refine ⟨?_, hrow hy, fun y' hy' heq => ?_⟩
  · rw [rowAddress, Nat.mod_eq_of_lt (by omega)]
  · have hnum : y' + 1 = y + 1 := by rw [← hrow hy', ← hrow hy, heq]
    omega

end Sys2Proof
end

section
/-! What REFRESH sends, and where an indicator's cell stands in the picture. -/

namespace Sys2Proof.Machine

/-- Settles O39: the rule is the update of all rows, and an admitted panel has one at least. -/
theorem refreshSendsTheWholePicture : Obligations.RefreshSendsTheWholePicture := by
  intro s hinv hf hact
  have hok := (Config.ok_iff s.cfg).1 hinv.config
  exact updateRuns_of_rule fullRefresh rfl hf rfl hinv.pictureReady hact (by omega) (Nat.le_refl _)

/-- In an occupied slot's cell the indicators put the glyph's bit of that row and column (40_datapath.md R73, R74). -/
theorem indicatorByte_cell {s : State} {i r k x : Nat} (hen : s.cfg.indicatorsEnabled = true)
    (hi : i < Config.maxIndicators) (hr : r < s.cfg.glyphSize) (hk : k < s.cfg.glyphSize)
    (hx : x + s.cfg.glyphSize * (i + 1) = s.cfg.width + k) (hxw : x < s.cfg.width)
    (hcode : s.ind.toList.getD i 0 ≠ 0) :
    s.indicatorByte x r =
      some (glyphSample ((glyphRow s.cfg (s.ind.toList.getD i 0) r).testBit (s.cfg.glyphSize - 1 - k))) := by
  have hcol : (s.cfg.width : Int) - (s.cfg.glyphSize : Int) * ((i : Int) + 1) + k = x := by
    have hcast := congrArg (Nat.cast (R := Int)) hx
    push_cast at hcast
    omega
  obtain ⟨hslot, hbit⟩ := (cellColumn_iff hxw hk).1 hcol
  rw [State.indicatorByte]
  simp only [hslot, hbit]
  rw [if_pos ⟨hen, hr, hi, hcode⟩]

/-- Settles O52: GRAY holds the picture, in which the indicators cover overlays and frame. -/
theorem indicatorCellsCoverTheStrip : Obligations.IndicatorCellsCoverTheStrip := by
  intro s y1 y2 i r k x hinv hen h2 hi hr hy1 hy2 hk hx hcode
  have hxw : x < s.cfg.width := by
    have hcell : s.cfg.glyphSize ≤ s.cfg.glyphSize * (i + 1) := Nat.le_mul_of_pos_right _ (Nat.succ_pos i)
    omega
  rw [composite_grayAt hinv.pictureReady hxw h2 hy1 hy2, State.pictureByte,
    indicatorByte_cell hen hi hr hk hx hxw hcode]
  rfl

end Sys2Proof.Machine
end

section
/-! Thresholds, the bits of a payload byte, and what a tagged line depends on (40_datapath.md R76 to R80, R84, R85). -/

namespace Sys2Proof.Machine

/-! ### Thresholds -/

theorem defaultDither2_entry : ∀ i j : Fin 2, ((Config.defaultDither2.get i).get j).toNat =
    (([[32, 160], [224, 96]] : List (List Nat)).getD j []).getD i 0 := by decide

theorem defaultDither4_entry : ∀ i j : Fin 4, ((Config.defaultDither4.get i).get j).toNat =
    (([[8, 136, 40, 168], [200, 72, 232, 104], [56, 184, 24, 152], [248, 120, 216, 88]] :
      List (List Nat)).getD j []).getD i 0 := by decide

/-- Settles O53: entry by entry of the two tables, the column and row taken modulo their side. -/
theorem thresholdsAreTheListedTables : Obligations.ThresholdsAreTheListedTables := fun _ _ _ =>
  ⟨rfl, defaultDither2_entry ⟨_, _⟩ ⟨_, _⟩, defaultDither4_entry ⟨_, _⟩ ⟨_, _⟩⟩

/-- The threshold reads the cutoff in mode 0 only, and of the configuration only the matrices (40_datapath.md R76). -/
theorem threshold_congr {c c' : Config} {mode : DitherMode} {cutoff cutoff' : Byte} (h2 : c.dither2 = c'.dither2)
    (h4 : c.dither4 = c'.dither4) (hcut : mode = .off → cutoff = cutoff') (x y : Nat) :
    threshold c mode cutoff x y = threshold c' mode cutoff' x y := by
  cases mode with
  | off => exact hcut rfl
  | two => rw [threshold, threshold, h2]
  | four => rw [threshold, threshold, h4]

/-! ### The bits of a payload byte -/

/-- The sample of column x of row y is at least its threshold (40_datapath.md R78). -/
def reachesThreshold (cs : ConvertSettings) (gray : Nat → Byte) (y x : Nat) : Bool :=
  decide (threshold cs.cfg cs.mode cs.cutoff x y ≤ gray (y * cs.cfg.width + x))

/-- Two bytes are equal if they agree in the bits of all eight columns, the first column in bit 7. -/
theorem byte_ext {a b : Byte} (h : ∀ k < 8, a.getLsbD (7 - k) = b.getLsbD (7 - k)) : a = b := by
  apply BitVec.eq_of_getLsbD_eq
  intro i hi
  rw [← Nat.sub_sub_self (show i ≤ 7 by omega)]
  exact h (7 - i) (by omega)

/-- The mask of column k is set in the bit of that column alone (40_datapath.md R79). -/
theorem getLsbD_columnMask {i : Nat} (hi : i < 8) (k : Nat) : (0x80#8 >>> k).getLsbD (7 - i) = decide (i = k) := by
  rw [BitVec.getLsbD_ushiftRight, show 0x80#8 = BitVec.twoPow 8 7 from rfl, BitVec.getLsbD_twoPow]
  simp only [show (7 = k + (7 - i)) ↔ i = k by omega]
  simp

/-- The packed byte has each column's bit in its place: after k rounds of the packing loop the bits of the first k
columns stand. -/
theorem getLsbD_packBits (f : Nat → Bool) {k : Nat} (hk : k < 8) : (packBits f).getLsbD (7 - k) = f k := by
  rw [← packLoop_eq]
  have hloop := forRange_induct (a := 0) (b := 8) (f := fun k (d : Byte) => if f k then d ||| (0x80#8 >>> k) else d)
    (P := fun n (d : Byte) => ∀ i < 8, d.getLsbD (7 - i) = (decide (i < n) && f i)) (x := 0#8) (Nat.zero_le _)
    (by simp) ?_
  · rw [hloop k hk, decide_eq_true hk, Bool.true_and]
  · intro n d _ _ ih i hi
    by_cases hin : i = n
    · subst hin
      cases hf : f i <;> simp [hf, ih i hi, getLsbD_columnMask hi]
    · have hlt : i < n + 1 ↔ i < n := by omega
      cases hf : f n <;> simp [ih i hi, getLsbD_columnMask hi, hin, hlt]

/-- Bit 7 − k of a payload byte is column k's comparison, the other way round where INVERT = 1. -/
theorem getLsbD_convertByte (cs : ConvertSettings) (gray : Nat → Byte) (y j : Nat) {k : Nat} (hk : k < 8) :
    (convertByte cs gray y j).getLsbD (7 - k) = (reachesThreshold cs gray y (8 * j + k) != cs.invert) := by
  have hones : (0xFF#8).getLsbD (7 - k) = true := by
    rw [show 0xFF#8 = BitVec.allOnes 8 from rfl, BitVec.getLsbD_allOnes]
    exact decide_eq_true (by omega)
  have hpack := getLsbD_packBits (fun k => reachesThreshold cs gray y (8 * j + k)) hk
  have hbyte : convertByte cs gray y j =
      let d := packBits fun k => reachesThreshold cs gray y (8 * j + k)
      if cs.invert then d ^^^ 0xFF#8 else d := convertByte_eq cs gray y j
  rw [hbyte]
  cases cs.invert with
  | false => simpa using hpack
  | true => simpa [BitVec.getLsbD_xor, hones] using hpack

/-- Settles O54: the comparison of the bytes is that of their numbers. -/
theorem payloadBitsCompareWithTheThreshold : Obligations.PayloadBitsCompareWithTheThreshold :=
  fun cs gray y j _ hk => getLsbD_convertByte cs gray y j hk

/-! ### Uniform groups -/

/-- Eight comparisons that agree give a byte of equal bits. -/
theorem convertByte_uniform {cs : ConvertSettings} {gray : Nat → Byte} {y j : Nat} (b : Bool)
    (h : ∀ k < 8, reachesThreshold cs gray y (8 * j + k) = b) :
    convertByte cs gray y j = if b != cs.invert then 0xFF else 0x00 := by
  apply byte_ext
  intro k hk
  rw [getLsbD_convertByte _ _ _ _ hk, h k hk]
  generalize (b != cs.invert) = bit
  cases bit with
  | false => simp
  | true =>
    rw [if_pos rfl, show (0xFF : Byte) = BitVec.allOnes 8 from rfl, BitVec.getLsbD_allOnes]
    exact (decide_eq_true (by omega)).symm

/-- A group that reaches all its thresholds. -/
theorem convertByte_allReach {cs : ConvertSettings} {gray : Nat → Byte} {y j : Nat}
    (h : ∀ k < 8, reachesThreshold cs gray y (8 * j + k) = true) :
    convertByte cs gray y j = if cs.invert then 0x00 else 0xFF := by
  rw [convertByte_uniform true h]
  cases cs.invert <;> rfl

/-- A group that reaches none of its thresholds. -/
theorem convertByte_noneReach {cs : ConvertSettings} {gray : Nat → Byte} {y j : Nat}
    (h : ∀ k < 8, reachesThreshold cs gray y (8 * j + k) = false) :
    convertByte cs gray y j = if cs.invert then 0xFF else 0x00 := by
  rw [convertByte_uniform false h]
  cases cs.invert <;> rfl

/-- Settles O55: a sample of 0 reaches no threshold but 0, one of 255 reaches every threshold, and every sample reaches
the threshold 0. -/
theorem uniformGroupsGiveUniformBytes : Obligations.UniformGroupsGiveUniformBytes := by
  intro cs gray y j
  refine ⟨fun h => convertByte_noneReach fun k hk => ?_, fun h => convertByte_allReach fun k hk => ?_,
    fun hmode hcut => convertByte_allReach fun k _ => ?_⟩
  · obtain ⟨hzero, hne⟩ := h k hk
    rw [reachesThreshold, hzero]
    exact decide_eq_false fun hle => hne (BitVec.le_zero_iff.1 hle)
  · rw [reachesThreshold, h k hk]
    exact decide_eq_true (Nat.le_of_lt_succ (BitVec.isLt _))
  · rw [reachesThreshold, hmode, threshold, hcut]
    exact decide_eq_true (Nat.zero_le _)

/-! ### Tagged lines -/

/-- A payload byte depends on its eight comparisons and INVERT alone. -/
theorem convertByte_congr {cs cs' : ConvertSettings} {gray gray' : Nat → Byte} {y j : Nat}
    (hinv : cs.invert = cs'.invert)
    (h : ∀ k < 8, reachesThreshold cs gray y (8 * j + k) = reachesThreshold cs' gray' y (8 * j + k)) :
    convertByte cs gray y j = convertByte cs' gray' y j := by
  apply byte_ext
  intro k hk
  rw [getLsbD_convertByte _ _ _ _ hk, getLsbD_convertByte _ _ _ _ hk, h k hk, hinv]

/-- The payload of a row depends on the row's comparisons and INVERT alone. -/
theorem rowPayload_congr {cs cs' : ConvertSettings} {gray gray' : Nat → Byte} {y : Nat}
    (hw : cs.cfg.width = cs'.cfg.width) (hinv : cs.invert = cs'.invert)
    (h : ∀ x < cs.cfg.width, reachesThreshold cs gray y x = reachesThreshold cs' gray' y x) :
    rowPayload cs gray y = rowPayload cs' gray' y := by
  have hbytes : cs.cfg.bytesPerRow = cs'.cfg.bytesPerRow := congrArg (· / 8) hw
  rw [rowPayload, rowPayload, ← hbytes]
  apply List.map_congr_left
  intro j hj
  have hcols : 8 * j + 8 ≤ cs.cfg.width := by
    have hlt : j < cs.cfg.width / 8 := List.mem_range.1 hj
    omega
  exact convertByte_congr hinv fun k hk => h (8 * j + k) (by omega)

/-- What the transmitter reads of a converted row is its tagged line, whatever TAGGED held (40_datapath.md R84). -/
theorem convertRow_read (cs : ConvertSettings) (gray : Nat → Byte) (y1 y : Nat) (m : Memory) (free : Nat → Byte)
    {k : Nat} (hk : k < cs.cfg.stride) :
    (convertRow cs gray y1 y m).read free ((y - y1) * cs.cfg.stride + k) =
      (taggedRow y (rowPayload cs gray y)).getD k 0 := by
  have hlen : k < (taggedRow y (rowPayload cs gray y)).length := by
    rw [taggedRow_length, rowPayload_length, Nat.add_comm]
    exact hk
  rw [Memory.read, convertRow_get?, if_pos (by omega), Nat.add_sub_cancel_left, List.getD_eq_getElem _ _ hlen,
    List.getElem?_eq_getElem hlen]
  rfl

/-- Settles O56: both conversions write the tagged line of one payload. -/
theorem taggedLinesHaveNoHiddenState : Obligations.TaggedLinesHaveNoHiddenState := by
  intro cs cs' gray gray' y y1 y1' m m' free free' hw h2 h4 hinv hmode hcut hgray k hk
  have hstride : cs.cfg.stride = cs'.cfg.stride := congrArg (fun w => 2 + w / 8) hw
  have hreach : ∀ x < cs.cfg.width, reachesThreshold cs gray y x = reachesThreshold cs' gray' y x := by
    intro x hx
    rw [reachesThreshold, reachesThreshold, threshold_congr h2 h4 hcut, hgray x hx, hmode, hw]
  rw [convertRow_read cs gray y1 y m free hk, hstride, convertRow_read cs' gray' y1' y m' free' (hstride ▸ hk),
    rowPayload_congr hw hinv hreach]

end Sys2Proof.Machine
end

section
/-! The order of chip-select transactions: whatever EXEC and VTIMER emit, the bus monitor finds each transaction that
begins ended, its guards in their places (41_transport.md R86, R89, 70_reset_and_hazards.md R142). -/

namespace Sys2Proof.Machine

/-! ### The bus monitor -/

theorem busRun_cons (c : Config) (p : BusPhase) (e : Event) (rest : List Event) :
    busRun c p (e :: rest) = (busStep c p e).bind fun q => busRun c q rest := by
  rw [busRun]
  cases busStep c p e <;> rfl

theorem busRun_append (c : Config) (p : BusPhase) (a b : List Event) :
    busRun c p (a ++ b) = (busRun c p a).bind fun q => busRun c q b := by
  induction a generalizing p with
  | nil => rfl
  | cons e rest ih => simp only [List.cons_append, busRun_cons, Option.bind_assoc, ih]

/-- Events of the VCOM pin may stand anywhere. -/
theorem busStep_onVcom {e : Event} (he : e.onVcom = true) (c : Config) (p : BusPhase) : busStep c p e = some p := by
  cases e with
  | gpioVcom l => cases p <;> rfl
  | gpioVcomFail => cases p <;> rfl
  | _ => cases he

/-- The monitor does not see the VCOM pin. -/
theorem busRun_withoutVcom (c : Config) (p : BusPhase) (evs : List Event) :
    busRun c p (withoutVcom evs) = busRun c p evs := by
  induction evs generalizing p with
  | nil => rfl
  | cons e rest ih =>
    cases he : e.onVcom with
    | true =>
      rw [withoutVcom, List.filter_cons_of_neg (by simp [he]), busRun_cons, busStep_onVcom he]
      exact ih p
    | false =>
      rw [withoutVcom, List.filter_cons_of_pos (by simp [he]), busRun_cons, busRun_cons]
      exact congrArg (busStep c p e).bind (funext ih)

/-- Between the guards any number of bytes may go out. -/
theorem busRun_spi (c : Config) (bytes : List Byte) : busRun c .sending (bytes.map .spi) = some .sending := by
  induction bytes with
  | nil => rfl
  | cons b rest ih => exact ih

/-- A transaction is in order for every outcome of the bus (41_transport.md R86, R88). -/
theorem busRun_transactionEvents (c : Config) (bytes : List Byte) (refusal : Option Nat) :
    busRun c .idle (transactionEvents c bytes refusal) = some .idle := by
  have hopen : busRun c .idle [.cs true, .wait .csSetup c.csSetupTime] = some .sending := by simp [busRun, busStep]
  have hclose : ∀ p, p = .sending ∨ p = .failed →
      busRun c p [.wait .csHold c.csHoldTime, .cs false] = some .idle := by
    rintro p (rfl | rfl) <;> simp [busRun, busStep]
  rw [transactionEvents, busRun_append, busRun_append, busRun_append, hopen, Option.bind_some, busRun_spi,
    Option.bind_some]
  cases refusal with
  | none => exact hclose _ (.inl rfl)
  | some k => exact hclose _ (.inr rfl)

/-! ### Pins -/

/-- The second pins are the first with events added that the bus monitor accepts, from no transaction to none. -/
def Io.BusOrdered (c : Config) (a b : Io) : Prop :=
  ∃ evs, b.trace = a.trace ++ evs ∧ busRun c .idle evs = some .idle

namespace Io.BusOrdered

/-- Where the trace stands still. -/
theorem of_trace_eq {c : Config} {a b : Io} (h : b.trace = a.trace) : a.BusOrdered c b := ⟨[], by simp [h], rfl⟩

theorem refl (c : Config) (io : Io) : io.BusOrdered c io := .of_trace_eq rfl

theorem trans {c : Config} {x y z : Io} (h1 : x.BusOrdered c y) (h2 : y.BusOrdered c z) : x.BusOrdered c z := by
  obtain ⟨e1, t1, r1⟩ := h1
  obtain ⟨e2, t2, r2⟩ := h2
  exact ⟨e1 ++ e2, by rw [t2, t1, List.append_assoc], by rw [busRun_append, r1]; exact r2⟩

/-- Events that the monitor accepts, in whatever way those of the VCOM pin stand among them. -/
theorem of_withoutVcom {c : Config} {a b : Io} {new evs : List Event} (ht : b.trace = a.trace ++ new)
    (hv : Machine.withoutVcom new = Machine.withoutVcom evs) (hr : busRun c .idle evs = some .idle) :
    a.BusOrdered c b :=
  ⟨new, ht, by rw [← busRun_withoutVcom, hv, busRun_withoutVcom, hr]⟩

end Io.BusOrdered

theorem Ticked.busOrdered {a b : Io} (h : Ticked a b) (c : Config) : a.BusOrdered c b := by
  obtain ⟨new, ht, hv⟩ := h.trace
  exact .of_withoutVcom ht (evs := []) (withoutVcom_of_onVcom hv) rfl

theorem Io.Emits.busOrdered {a b : Io} {evs : List Event} (h : a.Emits evs b) {c : Config}
    (hr : busRun c .idle evs = some .idle) : a.BusOrdered c b := by
  obtain ⟨new, ht, hv⟩ := h.emitted.trace
  exact .of_withoutVcom ht hv hr

/-- An event that may stand between transactions, with a write that adds nothing to the trace. -/
theorem Io.act_busOrdered {f : Io → Io} {e : Event} {c : Config} (hf : ∀ io, (f io).trace = io.trace)
    (he : busRun c .idle [e] = some .idle) (io : Io) : io.BusOrdered c (io.act f e) :=
  (io.yieldTicks_ticked.busOrdered c).trans ⟨[e], by rw [Io.act, Io.log_trace, hf], he⟩

theorem Io.driveDisp_busOrdered (c : Config) (l : Bool) (io : Io) : io.BusOrdered c (io.driveDisp l) :=
  Io.act_busOrdered (f := fun io => { io with disp := l }) (fun _ => rfl) rfl io

theorem Io.vcomLow_busOrdered (c : Config) (io : Io) : io.BusOrdered c io.vcomLow :=
  Io.act_busOrdered (f := fun io => { io with vcom := { io.vcom with out := false, toggle := false } })
    (fun _ => rfl) rfl io

/-- A whole transaction, from any level of the chip select (41_transport.md R86, R89). -/
theorem Io.transaction_busOrdered (c : Config) (bytes : List Byte) (io : Io) :
    io.BusOrdered c (io.transaction c bytes).1 :=
  .trans (y := io.sent _) (.of_trace_eq rfl)
    ((Io.transaction_spec c bytes io).2.busOrdered (busRun_transactionEvents c bytes _))

/-- The power-up with its clear-screen command, which is one transaction (43_power_vcom.md R103, 41_transport.md
R91). -/
theorem Io.powerUp_clearScreen_busOrdered (c : Config) (io : Io) :
    io.BusOrdered c ((io.powerUp c).clearScreen c).1 :=
  (io.driveDisp_busOrdered c true).trans <| (Io.vcomLow_busOrdered c _).trans <|
    ((Io.emit_emits (.wait .settle c.settleTime) _).busOrdered rfl).trans (Io.transaction_busOrdered c _ _)

/-! ### Rules and instructions -/

theorem update_busOrdered (y1 y2 : Nat) (s : State) : s.io.BusOrdered s.cfg (update y1 y2 s).1.io := by
  unfold update
  split
  · exact .refl _ _
  · split
    · exact .refl _ _
    · exact ((s.io.emit_emits (.frameRead y1 y2)).busOrdered rfl).trans (Io.transaction_busOrdered s.cfg _ _)

theorem enableRule_busOrdered (s : State) : s.io.BusOrdered s.cfg (enableRule s).1.io := by
  have hclear := Io.powerUp_clearScreen_busOrdered s.cfg s.io
  unfold enableRule
  split
  · exact .refl _ _
  · dsimp only
    split
    · exact hclear
    · exact hclear.trans (Io.driveDisp_busOrdered s.cfg false _)

theorem disableRule_busOrdered (s : State) : s.io.BusOrdered s.cfg (disableRule s).1.io := by
  have hcancel : s.io.BusOrdered s.cfg s.io.cancelTimer := s.io.yieldTicks_ticked.busOrdered s.cfg
  unfold disableRule
  split
  · exact .refl _ _
  · exact hcancel.trans ((Io.driveDisp_busOrdered s.cfg false _).trans (Io.vcomLow_busOrdered s.cfg _))

/-- Every rule keeps the order: outside ENABLE and DISABLE it reaches the bus by an update only (41_transport.md R90,
R91). -/
theorem ruleOf_busOrdered {i : Instr} {rule : State → State × Reply} (h : ruleOf i = some rule) (s : State) :
    s.io.BusOrdered s.cfg (rule s).1.io := by
  by_cases hon : i = .enable
  · subst hon
    exact Option.some.inj h ▸ enableRule_busOrdered s
  by_cases hoff : i = .disable
  · subst hoff
    exact Option.some.inj h ▸ disableRule_busOrdered s
  generalize hout : rule s = out
  cases hout ▸ ruleOf_ruled h s with
  | stored hu _ => exact hu.io ▸ .refl _ _
  | @updated u hu y1 y2 _ _ => exact hu.io ▸ hu.cfg ▸ update_busOrdered y1 y2 u
  | powered on _ _ _ => exact absurd on (not_or.2 ⟨hon, hoff⟩)

/-- RESULT stands between transactions (42_update.md R93). -/
theorem finish_busOrdered (c : Config) (r : Reply) (s : State) : s.io.BusOrdered c (finish r s).io :=
  (s.io.emit_emits (.result r.code)).busOrdered rfl

theorem exec_busOrdered {i : Instr} {s t : State} (he : exec i s = .next t) : s.io.BusOrdered s.cfg t.io := by
  cases hr : ruleOf i with
  | none =>
    obtain ⟨bytes, hb⟩ := exec_wireForm hr
    rw [hb] at he
    exact Host.Outcome.next.inj he ▸ Io.transaction_busOrdered s.cfg _ s.io
  | some rule =>
    rw [exec_command hr] at he
    obtain rfl := Host.Outcome.next.inj he
    rcases commandCycle_cases i rule s with ⟨-, -, hc⟩ | ⟨-, hc⟩ <;> rw [hc]
    · exact finish_busOrdered s.cfg _ { s with phase := .busy (some i) }
    · exact (ruleOf_busOrdered hr { s with phase := .busy (some i) }).trans (finish_busOrdered s.cfg _ _)

/-! ### Steps -/

/-- Settles O49: by the ways a step can go; the reset adds nothing, as between commands the chip select is
deasserted. -/
theorem stepsKeepTheBusDiscipline : Obligations.StepsKeepTheBusDiscipline := by
  intro s t hinv hw he
  show s.io.BusOrdered s.cfg t.io
  cases step_moved he with
  | waits => exact s.io.idle_ticked.busOrdered s.cfg
  | ran rest _ he => exact exec_busOrdered (s := { s with inputs := rest }) he
  | rejects rest =>
    rw [rejectPacket_eq]
    exact finish_busOrdered s.cfg _ { s with inputs := rest, phase := .busy none }
  | reads rest k => exact .refl _ _
  | ticks rest => exact s.io.tick_ticked.busOrdered s.cfg
  | resets _ =>
    refine .of_trace_eq (show s.io.afterReset.trace = s.io.trace from ?_)
    simp [Io.afterReset, hinv.deselected]
  | cut hi _ => rw [hi] at hw; cases hw

end Sys2Proof.Machine
end

section
/-! ENABLE in Off with the timer stopped, by the outcome of its clear-screen command. -/

namespace Sys2Proof.Machine

/-- ENABLE in Off whose clear-screen command succeeds: Active, the timer running (43_power_vcom.md R103). -/
theorem exec_enable_ok {s : State} (hf : s.fault = false) (hp : s.pstate = .off)
    (hc : ((s.io.powerUp s.cfg).clearScreen s.cfg).2 = true) :
    exec .enable s = .next (({ s with pstate := .active } : State).ended .ok
      (((s.io.powerUp s.cfg).clearScreen s.cfg).1.startTimer.emit (.result .ok))) := by
  have hrule := enableRule_ok (s := { s with phase := .busy (some .enable) }) hp hc
  rw [exec_command rfl, commandCycle_runs (.inl hf), hrule]
  rfl

/-- ENABLE in Off whose clear-screen command fails: display-enable falls again (43_power_vcom.md R103). -/
theorem exec_enable_fail {s : State} (hf : s.fault = false) (hp : s.pstate = .off)
    (hc : ((s.io.powerUp s.cfg).clearScreen s.cfg).2 = false) :
    exec .enable s = .next (s.ended (.error .powerSequenceError)
      ((((s.io.powerUp s.cfg).clearScreen s.cfg).1.driveDisp false).emit (.result .powerSequenceError))) := by
  have hrule := enableRule_fail (s := { s with phase := .busy (some .enable) }) hp hc
  rw [exec_command rfl, commandCycle_runs (.inl hf), hrule]
  rfl

/-- Settles O27: nothing ticks before the timer starts, so the pins are as listed; what ticks may come falls before
RESULT. -/
theorem enablePowersThePanelUp : Obligations.EnablePowersThePanelUp := by
  intro s hf hp hr hb
  obtain ⟨hok, hpins⟩ := Io.powerUp_clearScreen s.cfg hr
  rw [hb] at hok hpins
  obtain ⟨n, ticks, hy⟩ := ((s.io.powerUp s.cfg).clearScreen s.cfg).1.startTimer.yieldTicks_eq
  refine ⟨n, ticks, ?_⟩
  rw [exec_enable_ok hf hp hok, Io.emit, Io.act, hy, hpins]
  rfl

/-- Settles O28: the timer never runs, so the events are all there is. -/
theorem failedClearLeavesThePanelOff : Obligations.FailedClearLeavesThePanelOff := by
  intro s k hf hp hr hb
  obtain ⟨hfail, hpins⟩ := Io.powerUp_clearScreen s.cfg hr
  rw [hb] at hfail hpins
  rw [exec_enable_fail hf hp hfail, hpins, Io.driveDisp, Io.act_stopped, Io.emit, Io.act_stopped]
  · simp [Io.log, transactionEvents, clearBytes]
  · exact hr
  · exact hr

end Sys2Proof.Machine
end

section
/-! How a packet's events end: none that its rule adds is a RESULT, and the end of its cycle adds one, which STATUS then
holds. -/

namespace Sys2Proof.Machine

/-- EXEC is idle after pins on which no RESULT was added, and its last event is RESULT with the code in STATUS. -/
structure Answered (s t : State) : Prop where
  trace : ∃ io, s.io.NoResult io ∧ t.io = io.log (.result t.result)
  phase : t.phase = .idle

/-- The end of a command answers it (42_update.md R93). -/
theorem finish_answered {s u : State} (h : s.io.NoResult u.io) (r : Reply) : Answered s (finish r u) :=
  ⟨⟨u.io.yieldTicks, h.trans u.io.yieldTicks_ticked.noResult, rfl⟩, rfl⟩

theorem commandCycle_answered {i : Instr} {rule : State → State × Reply} (h : ruleOf i = some rule) (s : State) :
    Answered s (commandCycle i rule s) := by
  rcases commandCycle_cases i rule s with ⟨-, -, he⟩ | ⟨-, he⟩ <;> rw [he]
  · exact finish_answered (.refl s.io) _
  · exact finish_answered (s := s) (ruleOf_noResult h { s with phase := .busy (some i) }) _

theorem rejectPacket_answered (s : State) : Answered s (rejectPacket s) := by
  rw [rejectPacket_eq]
  exact finish_answered (.refl s.io) _

/-- What a packet decodes to is a command, with a rule (30_encoding.md R63). -/
theorem ruleOf_decodePacket {ws : List Word} {i : Instr} (h : decodePacket ws = .ok i) :
    ∃ rule, ruleOf i = some rule := by
  obtain ⟨header, ops, f, -, -, -, hc⟩ := decodePacket_ok h
  exact Option.isSome_iff_exists.1 ((isSome_ruleOf i).trans (isCommand_of_commandOf hc))

theorem runPacket_answered {ws : List Word} {s t : State} (he : runPacket ws s = .next t) : Answered s t := by
  cases hd : decodePacket ws with
  | ok i =>
    obtain ⟨rule, hr⟩ := ruleOf_decodePacket hd
    rw [runPacket_decoded hd, exec_command hr] at he
    exact Host.Outcome.next.inj he ▸ commandCycle_answered hr s
  | error e =>
    rw [runPacket_rejected hd ((runPacket_answers_iff ws s).1 ⟨t, he⟩)] at he
    exact Host.Outcome.next.inj he ▸ rejectPacket_answered s

/-- Settles O17: a packet runs a command's cycle or is rejected, and either is answered. -/
theorem everyPacketEndsWithItsResult : Obligations.EveryPacketEndsWithItsResult := by
  intro s t ws he
  obtain ⟨⟨io, ⟨evs, htrace, hno⟩, hio⟩, hphase⟩ := runPacket_answered he
  refine ⟨evs, ?_, fun code hmem => Bool.noConfusion (hno _ hmem), hphase⟩
  rw [hio, Io.log_trace, htrace]

end Sys2Proof.Machine
end

section
/-! What sets FAULT: of all rules DAMAGE's alone, and of all inputs a packet alone (60_exceptions.md R123). -/

namespace Sys2Proof.Machine

/-! ### Rules -/

theorem update_fault (y1 y2 : Nat) (s : State) : (update y1 y2 s).1.fault = s.fault := by rw [update_frame]

theorem enableRule_fault (s : State) : (enableRule s).1.fault = s.fault := by
  unfold enableRule
  split
  · rfl
  · dsimp only
    split <;> rfl

theorem disableRule_fault (s : State) : (disableRule s).1.fault = s.fault := by
  unfold disableRule
  split <;> rfl

/-- DAMAGE sets FAULT where its rectangle is outside its bounds, and only there (42_update.md R100). -/
theorem damageRule_fault (x1 x2 y1 y2 : Half) (s : State) :
    (damageRule x1 x2 y1 y2 s).1.fault = (s.fault || !rectInPanel s.cfg x1 x2 y1 y2) := by
  unfold damageRule
  split
  next h => simp [update_fault, h]
  next h => simp [h]

/-- A rule that stores and then refreshes the panel, or not. -/
theorem ite_fullRefresh_fault (c : Prop) [Decidable c] (s : State) :
    (if c then fullRefresh s else (s, .ok)).1.fault = s.fault := by
  split
  · exact update_fault _ _ _
  · rfl

theorem setInvertRule_fault (v : Bool) (s : State) : (setInvertRule v s).1.fault = s.fault :=
  ite_fullRefresh_fault (v ≠ s.invert) { s with invert := v }

theorem setDitherRule_fault (m : DitherMode) (s : State) : (setDitherRule m s).1.fault = s.fault :=
  ite_fullRefresh_fault (m ≠ s.ditherMode) { s with ditherMode := m }

theorem setCutoffRule_fault (c : Byte) (s : State) : (setCutoffRule c s).1.fault = s.fault :=
  ite_fullRefresh_fault (c ≠ s.cutoff) { s with cutoff := c }

theorem setIndicatorRule_fault (idx g : Byte) (s : State) : (setIndicatorRule idx g s).1.fault = s.fault := by
  unfold setIndicatorRule
  split
  · exact update_fault _ _ _
  · rfl

theorem ovlAddRule_fault (x y w h : Half) (pix : List Byte) (s : State) :
    (ovlAddRule x y w h pix s).1.fault = s.fault := by
  unfold ovlAddRule
  repeat' split
  all_goals rfl

theorem ovlRemoveRule_fault (handle : Word) (s : State) : (ovlRemoveRule handle s).1.fault = s.fault := by
  unfold ovlRemoveRule
  split
  · rfl
  · exact ite_fullRefresh_fault _ (s.updateEntry handle fun _ => none)

theorem setVisible_fault (v : Bool) (handle : Word) (s : State) : (setVisible v handle s).1.fault = s.fault := by
  unfold setVisible
  split
  · rfl
  · exact update_fault _ _ _

/-- The instruction is a DAMAGE whose rectangle breaks its bounds (42_update.md R100). -/
def IsBadDamage (c : Config) (i : Instr) : Prop :=
  ∃ x1 x2 y1 y2, i = .damage x1 x2 y1 y2 ∧
    ¬ (x1.toNat ≤ x2.toNat ∧ x2.toNat ≤ c.width ∧ y1.toNat ≤ y2.toNat ∧ y2.toNat ≤ c.height)

/-- Of all rules only DAMAGE's changes FAULT. -/
theorem ruleOf_fault {i : Instr} {rule : State → State × Reply} (h : ruleOf i = some rule) (s : State) :
    (rule s).1.fault = s.fault ∨ IsBadDamage s.cfg i := by
  cases i with
  | enable => exact .inl (Option.some.inj h ▸ enableRule_fault s)
  | disable => exact .inl (Option.some.inj h ▸ disableRule_fault s)
  | damage x1 x2 y1 y2 =>
    obtain rfl := Option.some.inj h
    cases hrect : rectInPanel s.cfg x1 x2 y1 y2 with
    | true => exact .inl (by simp [damageRule_fault, hrect])
    | false => exact .inr ⟨x1, x2, y1, y2, rfl, of_decide_eq_false hrect⟩
  | refresh => exact .inl (Option.some.inj h ▸ update_fault _ _ s)
  | setInvert v => exact .inl (Option.some.inj h ▸ setInvertRule_fault v s)
  | setDither mode => exact .inl (Option.some.inj h ▸ setDitherRule_fault mode s)
  | setCutoff c => exact .inl (Option.some.inj h ▸ setCutoffRule_fault c s)
  | setIndicator idx g => exact .inl (Option.some.inj h ▸ setIndicatorRule_fault idx g s)
  | ovlAdd x y w h' pix => exact .inl (Option.some.inj h ▸ ovlAddRule_fault x y w h' pix s)
  | ovlRemove handle => exact .inl (Option.some.inj h ▸ ovlRemoveRule_fault handle s)
  | ovlShow handle => exact .inl (Option.some.inj h ▸ setVisible_fault true handle s)
  | ovlHide handle => exact .inl (Option.some.inj h ▸ setVisible_fault false handle s)
  | ovlClear => exact .inl (Option.some.inj h ▸ update_fault _ _ _)
  | wireClear => cases h
  | wireWriteLines _ _ => cases h

/-! ### Instructions and inputs -/

/-- An instruction keeps FAULT unless it is a DAMAGE outside its bounds. -/
theorem exec_fault {i : Instr} {s t : State} (he : exec i s = .next t) : t.fault = s.fault ∨ IsBadDamage s.cfg i := by
  cases hr : ruleOf i with
  | none =>
    obtain ⟨bytes, hb⟩ := exec_wireForm hr
    rw [hb] at he
    exact .inl (Host.Outcome.next.inj he ▸ rfl)
  | some rule =>
    rw [exec_command hr] at he
    obtain rfl := Host.Outcome.next.inj he
    rcases commandCycle_cases i rule s with ⟨-, -, hc⟩ | ⟨-, hc⟩ <;> rw [hc]
    · exact .inl rfl
    · exact ruleOf_fault hr { s with phase := .busy (some i) }

theorem rejectPacket_fault (s : State) : (rejectPacket s).fault = s.fault := by rw [rejectPacket_eq]; rfl

/-- A packet keeps FAULT unless it is a DAMAGE outside its bounds. -/
theorem runPacket_fault {ws : List Word} {s t : State} (he : runPacket ws s = .next t) :
    t.fault = s.fault ∨ ∃ i, decodePacket ws = .ok i ∧ IsBadDamage s.cfg i := by
  cases hd : decodePacket ws with
  | ok i =>
    rw [runPacket_decoded hd] at he
    exact (exec_fault he).imp_right fun hbad => ⟨i, rfl, hbad⟩
  | error e =>
    rw [runPacket_rejected hd ((runPacket_answers_iff ws s).1 ⟨t, he⟩)] at he
    exact .inl (Host.Outcome.next.inj he ▸ rejectPacket_fault s)

/-- Wire bytes decode to no command (30_encoding.md R69). -/
theorem ruleOf_decodeWire {c : Config} {bs : List Byte} {i : Instr} (h : decodeWire c bs = .ok i) :
    ruleOf i = none := by
  unfold decodeWire decodeWriteLines at h
  dsimp only at h
  repeat' split at h
  all_goals cases h
  all_goals rfl

theorem runWire_fault {bs : List Byte} {s t : State} (he : runWire bs s = .next t) : t.fault = s.fault := by
  obtain ⟨i, hd⟩ := (runWire_answers_iff bs s).1 ⟨t, he⟩
  obtain ⟨bytes, hb⟩ := exec_wireForm (ruleOf_decodeWire hd)
  rw [runWire_decoded hd, hb] at he
  exact Host.Outcome.next.inj he ▸ rfl

/-- A move of the host that sets FAULT is a packet with a DAMAGE outside its bounds; a reset clears it. -/
theorem runInput_setsFault {input : Input} {s t : State} (hf : s.fault = false) (he : runInput input s = .next t)
    (ht : t.fault = true) : ∃ ws i, input = .packet ws ∧ decodePacket ws = .ok i ∧ IsBadDamage s.cfg i := by
  have changed : t.fault ≠ s.fault := by simp [hf, ht]
  cases input with
  | packet ws =>
    obtain ⟨i, hd, hbad⟩ := (runPacket_fault he).resolve_left changed
    exact ⟨ws, i, rfl, hd, hbad⟩
  | wire bs => exact absurd (runWire_fault he) changed
  | statusRead k => cases he; exact absurd rfl changed
  | tick => cases he; exact absurd rfl changed
  | reset => cases he; cases ht
  | resetDuring ws events =>
    obtain ⟨done, hd⟩ := (runPacket_answers_iff ws s).2 ((runInput_resetDuring_answers_iff ws events s).1 ⟨t, he⟩)
    simp only [runInput, hd] at he
    cases he
    cases ht

/-- A step that answers has run the next input, the reset included (log 8). -/
theorem runInput_of_step {s t : State} {input : Input} {rest : List Input} (hi : s.inputs = input :: rest)
    (he : step s = .next t) : runInput input { s with inputs := rest } = .next t := by
  have hc := ok_of_step_answers ⟨t, he⟩
  by_cases hr : input = .reset
  · subst hr
    exact (step_resets hc hi).symm.trans he
  · exact (step_takes hc (between_of_step_answers (by simpa [hi] using hr) ⟨t, he⟩) hi).symm.trans he

/-- Settles O22: waiting keeps FAULT, and of the inputs a packet with a DAMAGE outside its bounds alone sets it. -/
theorem onlyABadRectangleSetsFault : Obligations.OnlyABadRectangleSetsFault := by
  intro s t hf he ht
  cases hi : s.inputs with
  | nil =>
    obtain rfl := step_idle hi he
    exact absurd (hf.symm.trans ht) Bool.false_ne_true
  | cons input rest =>
    obtain ⟨ws, i, rfl, hd, x1, x2, y1, y2, rfl, hbad⟩ :=
      runInput_setsFault (s := { s with inputs := rest }) hf (runInput_of_step hi he) ht
    exact ⟨ws, rest, x1, x2, y1, y2, rfl, hd, hbad⟩

end Sys2Proof.Machine
end

section
/-! What the commands that ask for an update store before it, and what they do where none is asked for: one equation for
each rule, used in Active and outside it. -/

namespace Sys2Proof.Machine

/-! ### The rules -/

/-- SET_INVERT of a new value (44_control.md R111). -/
theorem setInvertRule_changed {v : Bool} {s : State} (h : v ≠ s.invert) :
    setInvertRule v s = update 0 s.cfg.height { s with invert := v } := if_pos h

/-- SET_DITHER of a new value (44_control.md R112). -/
theorem setDitherRule_changed {m : DitherMode} {s : State} (h : m ≠ s.ditherMode) :
    setDitherRule m s = update 0 s.cfg.height { s with ditherMode := m } := if_pos h

/-- SET_CUTOFF of a new value (44_control.md R113). -/
theorem setCutoffRule_changed {c : Byte} {s : State} (h : c ≠ s.cutoff) :
    setCutoffRule c s = update 0 s.cfg.height { s with cutoff := c } := if_pos h

theorem setInvertRule_held (s : State) : setInvertRule s.invert s = (s, .ok) := if_neg (not_not.2 rfl)

theorem setDitherRule_held (s : State) : setDitherRule s.ditherMode s = (s, .ok) := if_neg (not_not.2 rfl)

theorem setCutoffRule_held (s : State) : setCutoffRule s.cutoff s = (s, .ok) := if_neg (not_not.2 rfl)

/-- OVL_SHOW and OVL_HIDE of a live entry (45_overlay.md R117, R118). -/
theorem setVisible_live {s : State} (distinct : (s.liveEntries.map (·.handle)).Nodup) {e : Overlay}
    (he : e ∈ s.liveEntries) (v : Bool) :
    setVisible v e.handle s =
      update 0 s.cfg.height { s with ent := mapHandle e.handle (fun e => { e with visible := v }) s.ent } := by
  rw [setVisible, entryOf_live distinct he]
  dsimp only
  rw [State.updateEntry_eq, updateEntry_visible]
  rfl

/-- OVL_REMOVE of a live entry: the panel is resent where the entry was visible (45_overlay.md R116). -/
theorem ovlRemoveRule_live {s : State} (distinct : (s.liveEntries.map (·.handle)).Nodup) {e : Overlay}
    (he : e ∈ s.liveEntries) :
    ovlRemoveRule e.handle s =
      if e.visible then update 0 s.cfg.height { s with ent := dropHandle e.handle s.ent }
      else ({ s with ent := dropHandle e.handle s.ent }, .ok) := by
  rw [ovlRemoveRule, entryOf_live distinct he]
  dsimp only
  rw [State.updateEntry_eq, updateEntry_remove]
  rfl

/-- OVL_CLEAR (45_overlay.md R119). -/
theorem ovlClearRule_eq (s : State) :
    ovlClearRule s = update 0 s.cfg.height { s with ent := List.replicate s.ent.length none } := by
  rw [ovlClearRule, List.map_const']
  rfl

/-- An empty registry makes a picture. -/
theorem PictureReady.cleared {s : State} (h : PictureReady s) (n : Nat) :
    PictureReady { s with ent := List.replicate n none } := by
  have hlive : State.liveEntries { s with ent := List.replicate n none } = [] := by simp [State.liveEntries]
  refine ⟨h.config, ?_, ?_⟩ <;> rw [hlive]
  · exact fun e he => absurd he List.not_mem_nil
  · exact List.nodup_nil

/-! ### Commands that ask for an update -/

/-- The state as the cycle of the command hands it to the rule (42_update.md R93). -/
def State.during (s : State) (i : Instr) : State := { s with phase := .busy (some i) }

/-- The rule of the command is the update of the rows [y1, y2) from `stored`. -/
def AsksUpdate (i : Instr) (s stored : State) (y1 y2 : Nat) : Prop :=
  ∃ rule, ruleOf i = some rule ∧ rule (s.during i) = update y1 y2 (stored.during i)

namespace AsksUpdate

/-- In Active the update of the whole panel runs, and a panel has a row at least (42_update.md R95, R99). -/
theorem resends {i : Instr} {s stored : State} (h : AsksUpdate i s stored 0 s.cfg.height) (hf : s.fault = false)
    (hact : stored.pstate = .active) (hp : PictureReady stored) (hcfg : stored.cfg = s.cfg) :
    UpdateRuns i s stored 0 s.cfg.height := by
  obtain ⟨rule, hr, hu⟩ := h
  have hrows := (Config.ok_iff stored.cfg).1 hp.config
  rw [hcfg] at hrows
  exact updateRuns_of_rule rule (exec_command hr s) hf hu hp hact (by omega) (Nat.le_of_eq (by rw [hcfg]))

/-- Outside Active the update is skipped and what was stored stays (42_update.md R96). -/
theorem skipped {i : Instr} {s stored : State} {y1 y2 : Nat} (h : AsksUpdate i s stored y1 y2) (hf : s.fault = false)
    (hoff : stored.pstate ≠ .active) : EndsQuietly i s stored .okSkipped := by
  obtain ⟨rule, hr, hu⟩ := h
  have hskip := update_skipped (s := stored.during i) hoff y1 y2
  exact endsQuietly_of_rule rule (exec_command hr s) (.inl hf) (hu.trans hskip)

theorem damage {x1 x2 y1 y2 : Half} {s : State} (hx : x1.toNat ≤ x2.toNat) (hw : x2.toNat ≤ s.cfg.width)
    (hy : y1.toNat ≤ y2.toNat) (hh : y2.toNat ≤ s.cfg.height) :
    AsksUpdate (.damage x1 x2 y1 y2) s s y1.toNat y2.toNat :=
  ⟨_, rfl, damageRule_inside (s := s.during _) hx hw hy hh⟩

theorem refresh (s : State) : AsksUpdate .refresh s s 0 s.cfg.height := ⟨_, rfl, rfl⟩

theorem setInvert {v : Bool} {s : State} (h : v ≠ s.invert) :
    AsksUpdate (.setInvert v) s { s with invert := v } 0 s.cfg.height :=
  ⟨_, rfl, setInvertRule_changed (s := s.during _) h⟩

theorem setDither {m : DitherMode} {s : State} (h : m ≠ s.ditherMode) :
    AsksUpdate (.setDither m) s { s with ditherMode := m } 0 s.cfg.height :=
  ⟨_, rfl, setDitherRule_changed (s := s.during _) h⟩

theorem setCutoff {c : Byte} {s : State} (h : c ≠ s.cutoff) :
    AsksUpdate (.setCutoff c) s { s with cutoff := c } 0 s.cfg.height :=
  ⟨_, rfl, setCutoffRule_changed (s := s.during _) h⟩

theorem setIndicator {idx : Byte} (h : idx.toNat < 6) (g : Byte) (s : State) :
    AsksUpdate (.setIndicator idx g) s { s with ind := s.ind.set idx.toNat g h } 0
      (min s.cfg.stripRows s.cfg.height) := ⟨_, rfl, setIndicatorRule_slot h g _⟩

section
variable {s : State} {e : Overlay} (distinct : (s.liveEntries.map (·.handle)).Nodup) (he : e ∈ s.liveEntries)
include distinct he

theorem ovlShow : AsksUpdate (.ovlShow e.handle) s
    { s with ent := mapHandle e.handle (fun e => { e with visible := true }) s.ent } 0 s.cfg.height :=
  ⟨_, rfl, setVisible_live (s := s.during _) distinct he true⟩

theorem ovlHide : AsksUpdate (.ovlHide e.handle) s
    { s with ent := mapHandle e.handle (fun e => { e with visible := false }) s.ent } 0 s.cfg.height :=
  ⟨_, rfl, setVisible_live (s := s.during _) distinct he false⟩

theorem ovlRemove (hv : e.visible = true) : AsksUpdate (.ovlRemove e.handle) s
    { s with ent := dropHandle e.handle s.ent } 0 s.cfg.height :=
  ⟨_, rfl, (ovlRemoveRule_live (s := s.during _) distinct he).trans (if_pos hv)⟩

end

theorem ovlClear (s : State) :
    AsksUpdate .ovlClear s { s with ent := List.replicate s.ent.length none } 0 s.cfg.height :=
  ⟨_, rfl, ovlClearRule_eq _⟩

end AsksUpdate

/-! ### The obligations -/

/-- Settles O40: the three ask for the whole panel, and a setting has no part in what makes a picture. -/
theorem changedSettingsResendThePanel : Obligations.ChangedSettingsResendThePanel := by
  intro s hinv hf hact
  refine ⟨fun v hv => ?invert, fun m hm => ?dither, fun c hc => ?cutoff⟩
  case invert =>
    exact (AsksUpdate.setInvert hv).resends hf hact ⟨hinv.config, hinv.entriesFit, hinv.handlesDistinct⟩ rfl
  case dither =>
    exact (AsksUpdate.setDither hm).resends hf hact ⟨hinv.config, hinv.entriesFit, hinv.handlesDistinct⟩ rfl
  case cutoff =>
    exact (AsksUpdate.setCutoff hc).resends hf hact ⟨hinv.config, hinv.entriesFit, hinv.handlesDistinct⟩ rfl

/-- Settles O42: the four ask for the whole panel, and the registry they leave makes a picture. -/
theorem overlayChangesResendThePanel : Obligations.OverlayChangesResendThePanel := by
  intro s hinv hf hact
  have hp := hinv.pictureReady
  refine ⟨fun e he => ⟨?shown, ?hidden, fun hv => ?removed⟩, ?cleared⟩
  case shown => exact (AsksUpdate.ovlShow hp.distinct he).resends hf hact (hp.mapVisible e.handle true) rfl
  case hidden => exact (AsksUpdate.ovlHide hp.distinct he).resends hf hact (hp.mapVisible e.handle false) rfl
  case removed => exact (AsksUpdate.ovlRemove hp.distinct he hv).resends hf hact (hp.dropHandle e.handle) rfl
  case cleared => exact (AsksUpdate.ovlClear s).resends hf hact (hp.cleared s.ent.length) rfl

/-- Settles O43: each of the commands asks for an update, which is skipped. -/
theorem updatesOutsideActiveAreSkipped : Obligations.UpdatesOutsideActiveAreSkipped := by
  intro s hinv hf hoff
  have distinct := hinv.handlesDistinct
  exact ⟨fun x1 x2 y1 y2 hx hw hy hh => (AsksUpdate.damage hx hw hy hh).skipped hf hoff,
    (AsksUpdate.refresh s).skipped hf hoff,
    fun v hv => (AsksUpdate.setInvert hv).skipped hf hoff,
    fun m hm => (AsksUpdate.setDither hm).skipped hf hoff,
    fun c hc => (AsksUpdate.setCutoff hc).skipped hf hoff,
    fun idx g h => (AsksUpdate.setIndicator h g s).skipped hf hoff,
    fun e he => ⟨(AsksUpdate.ovlShow distinct he).skipped hf hoff, (AsksUpdate.ovlHide distinct he).skipped hf hoff,
      fun hv => (AsksUpdate.ovlRemove distinct he hv).skipped hf hoff⟩,
    (AsksUpdate.ovlClear s).skipped hf hoff⟩

/-- Settles O44: no rule asks for an update but that of DAMAGE, whose rows are none. -/
theorem unchangedOutputSendsNothing : Obligations.UnchangedOutputSendsNothing := by
  intro s hinv hf
  refine ⟨?invert, ?dither, ?cutoff, fun e he hv => ?remove, fun x1 x2 y hact hx hw hy => ?damage⟩
  case invert => exact endsQuietly_of_rule _ rfl (.inl hf) (setInvertRule_held (s.during (.setInvert s.invert)))
  case dither => exact endsQuietly_of_rule _ rfl (.inl hf) (setDitherRule_held (s.during (.setDither s.ditherMode)))
  case cutoff => exact endsQuietly_of_rule _ rfl (.inl hf) (setCutoffRule_held (s.during (.setCutoff s.cutoff)))
  case remove =>
    exact endsQuietly_of_rule _ rfl (.inl hf)
      ((ovlRemoveRule_live (s := s.during (.ovlRemove e.handle)) hinv.handlesDistinct he).trans (if_neg (by simp [hv])))
  case damage =>
    exact endsQuietly_of_rule _ rfl (.inl hf)
      ((damageRule_inside (s := s.during (.damage x1 x2 y y)) hx hw (Nat.le_refl _) hy).trans
        (update_empty (s := s.during (.damage x1 x2 y y)) hact y.toNat))

end Sys2Proof.Machine
end

section
/-! The order of the panel's power: whatever EXEC and VTIMER emit, the panel monitor finds settle before the clear, VCOM
toggling only after a good clear, and bytes only to a settled panel (43_power_vcom.md R102 to R105,
70_reset_and_hazards.md R142). -/

namespace Sys2Proof.Machine

/-! ### The panel monitor -/

theorem panelRun_cons (c : Config) (p : PanelPhase) (e : Event) (rest : List Event) :
    panelRun c p (e :: rest) = (panelStep c p e).bind fun q => panelRun c q rest := by
  rw [panelRun]
  cases panelStep c p e <;> rfl

theorem panelRun_append (c : Config) (p : PanelPhase) (a b : List Event) :
    panelRun c p (a ++ b) = (panelRun c p a).bind fun q => panelRun c q b := by
  induction a generalizing p with
  | nil => rfl
  | cons e rest ih => simp only [List.cons_append, panelRun_cons, Option.bind_assoc, ih]

/-- A running panel takes every event but those of display-enable. -/
theorem panelRun_running (c : Config) {evs : List Event} (h : ∀ l, .gpioDisp l ∉ evs) :
    panelRun c .running evs = some .running := by
  induction evs with
  | nil => rfl
  | cons e rest ih =>
    have hstep : panelStep c .running e = some .running := by
      cases e with
      | gpioDisp l => exact absurd List.mem_cons_self (h l)
      | _ => rfl
    rw [panelRun_cons, hstep]
    exact ih fun l hl => h l (List.mem_cons_of_mem _ hl)

/-- While the clear-screen command goes out any number of bytes may (43_power_vcom.md R103). -/
theorem panelRun_clearing_spi (c : Config) (bytes : List Byte) :
    panelRun c .clearing (bytes.map .spi) = some .clearing := by
  induction bytes with
  | nil => rfl
  | cons b rest ih => exact ih

/-- The transaction of a settled panel is its clear, good or failed as the bus answers (43_power_vcom.md R103). -/
theorem panelRun_clear (c : Config) (bytes : List Byte) (refusal : Option Nat) :
    panelRun c .settled (transactionEvents c bytes refusal) =
      some (if refusal.isSome then .clearFailed else .running) := by
  rw [transactionEvents, panelRun_append, panelRun_append, panelRun_append,
    show panelRun c .settled [.cs true, .wait .csSetup c.csSetupTime] = some .clearing from rfl, Option.bind_some,
    panelRun_clearing_spi, Option.bind_some]
  cases refusal <;> rfl

/-- The settle time must pass in full (43_power_vcom.md R103). -/
theorem panelStep_settle {c : Config} {t : Nat} (h : c.settleTime ≤ t) :
    panelStep c .raised (.wait .settle t) = some .settled := by
  rw [panelStep, if_pos h]

/-- Display-enable, VCOM low and the settle time make a panel that is off a settled one (43_power_vcom.md R103). -/
theorem panelRun_settle {c : Config} {t : Nat} (h : c.settleTime ≤ t) :
    panelRun c .off [.gpioDisp true, .gpioVcom false, .wait .settle t] = some .settled := by
  have hraise : panelStep c .off (.gpioDisp true) = some .raised := rfl
  have hlow : panelStep c .raised (.gpioVcom false) = some .raised := rfl
  rw [panelRun_cons, hraise, Option.bind_some, panelRun_cons, hlow, Option.bind_some, panelRun_cons,
    panelStep_settle h]
  rfl

theorem gpioDisp_notMem_transactionEvents (c : Config) (bytes : List Byte) (refusal : Option Nat) (l : Bool) :
    .gpioDisp l ∉ transactionEvents c bytes refusal := by
  cases refusal <;> simp [transactionEvents, -List.map_take]

/-! ### Pins -/

/-- The second pins are the first with events added that take the panel monitor from one phase to another. -/
def Io.PanelRuns (c : Config) (a : Io) (p : PanelPhase) (b : Io) (q : PanelPhase) : Prop :=
  ∃ evs, b.trace = a.trace ++ evs ∧ panelRun c p evs = some q

namespace Io.PanelRuns

/-- Where the trace stands still. -/
theorem of_trace_eq {c : Config} {a b : Io} (h : b.trace = a.trace) (p : PanelPhase) : PanelRuns c a p b p :=
  ⟨[], by simp [h], rfl⟩

theorem refl (c : Config) (io : Io) (p : PanelPhase) : PanelRuns c io p io p := .of_trace_eq rfl p

theorem trans {c : Config} {x y z : Io} {p q r : PanelPhase} (h1 : PanelRuns c x p y q) (h2 : PanelRuns c y q z r) :
    PanelRuns c x p z r := by
  obtain ⟨e1, t1, r1⟩ := h1
  obtain ⟨e2, t2, r2⟩ := h2
  exact ⟨e1 ++ e2, by rw [t2, t1, List.append_assoc], by rw [panelRun_append, r1]; exact r2⟩

end Io.PanelRuns

/-- Ticks keep the phase: the timer runs beside a running panel only (10_state.md R38, 43_power_vcom.md R105). -/
theorem Ticked.panelRuns {a b : Io} (h : Ticked a b) (c : Config) {p : PanelPhase}
    (hp : a.vcom.running = true → p = .running) : a.PanelRuns c p b p := by
  cases hr : a.vcom.running with
  | false => exact .of_trace_eq (by rw [h.stopped hr]) p
  | true =>
    obtain ⟨evs, ht, hv⟩ := h.trace
    obtain rfl := hp hr
    exact ⟨evs, ht, panelRun_running c fun l hl => Bool.noConfusion (hv _ hl)⟩

/-- Events of a running panel that do not move display-enable, with ticks between them. -/
theorem Io.Emits.panelRuns {a b : Io} {evs : List Event} (h : a.Emits evs b) (c : Config)
    (hd : ∀ l, .gpioDisp l ∉ evs) : a.PanelRuns c .running b .running := by
  obtain ⟨new, ht, hv⟩ := h.emitted.trace
  refine ⟨new, ht, panelRun_running c fun l hl => hd l ?_⟩
  have hmem : .gpioDisp l ∈ Machine.withoutVcom new := List.mem_filter.2 ⟨hl, rfl⟩
  rw [hv] at hmem
  exact (List.mem_filter.1 hmem).1

/-- A running panel takes every transaction (41_transport.md R86). -/
theorem Io.transaction_panelRuns (c : Config) (bytes : List Byte) (io : Io) :
    io.PanelRuns c .running (io.transaction c bytes).1 .running :=
  .trans (y := io.sent _) (.of_trace_eq rfl _)
    ((Io.transaction_spec c bytes io).2.panelRuns c (gpioDisp_notMem_transactionEvents c bytes _))

/-! ### Rules and instructions -/

/-- The timer runs in Active only (10_state.md R38). -/
def State.Timed (s : State) : Prop := s.io.vcom.running = true → s.pstate = .active

theorem State.Timed.panelPhase {s : State} (timed : s.Timed) (hr : s.io.vcom.running = true) :
    s.pstate.panelPhase = .running := by
  rw [timed hr]
  rfl

/-- What happens from one state to another keeps the order of the panel's power, and leaves the timer running in Active
only. -/
structure PanelOrdered (c : Config) (s t : State) : Prop where
  events : s.io.PanelRuns c s.pstate.panelPhase t.io t.pstate.panelPhase
  timed : t.Timed

/-- Where neither PSTATE nor the pins move. -/
theorem PanelOrdered.of_eq {c : Config} {s t : State} (hp : t.pstate = s.pstate) (hio : t.io = s.io)
    (timed : s.Timed) : PanelOrdered c s t where
  events := by rw [hp, hio]; exact .refl c _ _
  timed := by rw [State.Timed, hp, hio]; exact timed

theorem PanelOrdered.trans {c : Config} {s t u : State} (h1 : PanelOrdered c s t) (h2 : PanelOrdered c t u) :
    PanelOrdered c s u :=
  ⟨h1.events.trans h2.events, h2.timed⟩

/-- Ticks, with any change that touches neither PSTATE nor the pins. -/
theorem PanelOrdered.of_ticked {c : Config} {s t : State} (hp : t.pstate = s.pstate) (hio : Ticked s.io t.io)
    (timed : s.Timed) : PanelOrdered c s t where
  events := by
    rw [hp]
    exact hio.panelRuns c timed.panelPhase
  timed hr := hp.trans (timed (hio.running ▸ hr))

/-- RESULT comes while the panel is off or runs (42_update.md R93). -/
theorem finish_panelOrdered (c : Config) (r : Reply) {s : State}
    (timed : s.Timed) : PanelOrdered c s (finish r s) where
  events := by
    refine (s.io.yieldTicks_ticked.panelRuns c timed.panelPhase).trans ⟨[.result r.code], rfl, ?_⟩
    rw [finish_pstate, PowerState.panelPhase]
    split <;> rfl
  timed hr := timed ((finish_held r s).running ▸ hr)

/-- An update sends to a running panel only (42_update.md R96). -/
theorem update_panelOrdered (y1 y2 : Nat) {s : State} (timed : s.Timed) :
    PanelOrdered s.cfg s (update y1 y2 s).1 := by
  by_cases hact : s.pstate = .active
  · by_cases hrows : y1 = y2
    · rw [hrows, update_empty hact]
      exact .of_eq rfl rfl timed
    · rw [update_sends hact hrows]
      refine ⟨?_, fun _ => hact⟩
      show s.io.PanelRuns s.cfg s.pstate.panelPhase _ s.pstate.panelPhase
      rw [hact]
      exact ((s.io.emit_emits (.frameRead y1 y2)).panelRuns s.cfg (by simp)).trans
        (Io.transaction_panelRuns s.cfg _ _)
  · rw [update_skipped hact]
    exact .of_eq rfl rfl timed

/-- ENABLE powers a panel up that is off: it is settled and cleared, then runs where the clear is good and is off again
where it fails (43_power_vcom.md R103). -/
theorem enableRule_panelOrdered {s : State} (timed : s.Timed) :
    PanelOrdered s.cfg s (enableRule s).1 := by
  by_cases hoff : s.pstate = .off
  · have hstopped : s.io.vcom.running = false := by simpa [State.Timed, hoff] using timed
    obtain ⟨hanswer, hpins⟩ := Io.powerUp_clearScreen s.cfg hstopped
    have hclear : s.io.PanelRuns s.cfg s.pstate.panelPhase ((s.io.powerUp s.cfg).clearScreen s.cfg).1
        (if (busRefusal s.io.bus 2).isSome then .clearFailed else .running) := by
      refine ⟨_, congrArg Io.trace hpins, ?_⟩
      rw [hoff, panelRun_append, show PowerState.off.panelPhase = .off from rfl, panelRun_settle (Nat.le_refl _)]
      exact panelRun_clear s.cfg _ _
    cases hb : busRefusal s.io.bus 2 with
    | none =>
      rw [hb] at hanswer hclear
      rw [enableRule_ok hoff hanswer]
      exact ⟨hclear, fun _ => rfl⟩
    | some k =>
      rw [hb] at hanswer hclear
      rw [enableRule_fail hoff hanswer]
      have hstill : ((s.io.powerUp s.cfg).clearScreen s.cfg).1.vcom.running = false := by rw [hpins]; exact hstopped
      rw [Io.driveDisp, Io.act_stopped _ _ hstill]
      refine ⟨hclear.trans ⟨[.gpioDisp false], rfl, ?_⟩, fun hr => Bool.noConfusion (hstill.symm.trans hr)⟩
      show panelRun s.cfg .clearFailed _ = some s.pstate.panelPhase
      rw [hoff]
      rfl
  · rw [show enableRule s = raise .sequenceError s by simp [enableRule, hoff]]
    exact .of_eq rfl rfl timed

/-- DISABLE powers a running panel down, the timer joined first (43_power_vcom.md R104, R108). -/
theorem disableRule_panelOrdered {s : State} (timed : s.Timed) :
    PanelOrdered s.cfg s (disableRule s).1 := by
  by_cases hact : s.pstate = .active
  · obtain ⟨n, ticks, hd⟩ := disableRule_active hact
    have hjoined : s.io.PanelRuns s.cfg s.pstate.panelPhase (s.io.ticksDone n) .running :=
      hact ▸ (Io.ticksDone_ticked n s.io).panelRuns s.cfg fun _ => rfl
    rw [hd]
    exact ⟨hjoined.trans ⟨[.gpioDisp false, .gpioVcom false], rfl, rfl⟩, nofun⟩
  · rw [show disableRule s = raise .sequenceError s by simp [disableRule, hact]]
    exact .of_eq rfl rfl timed

/-- Every rule keeps the order: outside ENABLE and DISABLE it reaches the pins by an update only (43_power_vcom.md
R110). -/
theorem ruleOf_panelOrdered {i : Instr} {rule : State → State × Reply} (h : ruleOf i = some rule) {s : State}
    (timed : s.Timed) : PanelOrdered s.cfg s (rule s).1 := by
  by_cases hon : i = .enable
  · subst hon
    exact Option.some.inj h ▸ enableRule_panelOrdered timed
  by_cases hoff : i = .disable
  · subst hoff
    exact Option.some.inj h ▸ disableRule_panelOrdered timed
  generalize hout : rule s = out
  cases hout ▸ ruleOf_ruled h s with
  | stored hu _ => exact .of_eq hu.pstate hu.io timed
  | @updated u hu y1 y2 _ _ =>
    have hstored : PanelOrdered s.cfg s u := .of_eq hu.pstate hu.io timed
    exact hstored.trans (hu.cfg ▸ update_panelOrdered y1 y2 hstored.timed)
  | powered on _ _ _ => exact absurd on (not_or.2 ⟨hon, hoff⟩)

theorem commandCycle_panelOrdered {i : Instr} {rule : State → State × Reply} (h : ruleOf i = some rule) {s : State}
    (timed : s.Timed) : PanelOrdered s.cfg s (commandCycle i rule s) := by
  have hbusy : PanelOrdered s.cfg s { s with phase := .busy (some i) } := .of_eq rfl rfl timed
  rcases commandCycle_cases i rule s with ⟨-, -, he⟩ | ⟨-, he⟩ <;> rw [he]
  · exact hbusy.trans (finish_panelOrdered s.cfg _ timed)
  · have hrule := ruleOf_panelOrdered h (s := { s with phase := .busy (some i) }) timed
    exact (hbusy.trans hrule).trans (finish_panelOrdered s.cfg _ hrule.timed)

/-- Every packet, a command or not, keeps the order. -/
theorem runPacket_panelOrdered {ws : List Word} {s t : State} (he : runPacket ws s = .next t)
    (timed : s.Timed) : PanelOrdered s.cfg s t := by
  cases hd : decodePacket ws with
  | ok i =>
    obtain ⟨rule, hr⟩ := ruleOf_decodePacket hd
    rw [runPacket_decoded hd, exec_command hr] at he
    exact Host.Outcome.next.inj he ▸ commandCycle_panelOrdered hr timed
  | error e =>
    rw [runPacket_rejected hd ((runPacket_answers_iff ws s).1 ⟨t, he⟩), rejectPacket_eq] at he
    have hbusy : PanelOrdered s.cfg s { s with phase := .busy none } := .of_eq rfl rfl timed
    exact Host.Outcome.next.inj he ▸ hbusy.trans (finish_panelOrdered s.cfg _ timed)

/-! ### Steps -/

/-- Settles O50: by the input that the step takes; what is no packet adds the events of ticks at most. -/
theorem stepsKeepThePanelDiscipline : Obligations.StepsKeepThePanelDiscipline := by
  intro s t hinv ho he
  have timed : s.Timed := hinv.timer.1
  suffices h : PanelOrdered s.cfg s t from h.events
  cases hi : s.inputs with
  | nil => exact step_idle hi he ▸ .of_ticked rfl s.io.idle_ticked timed
  | cons input rest =>
    have hrun := runInput_of_step hi he
    cases input with
    | packet ws =>
      have htaken : PanelOrdered s.cfg s { s with inputs := rest } := .of_eq rfl rfl timed
      exact htaken.trans (runPacket_panelOrdered hrun timed)
    | statusRead k => exact Host.Outcome.next.inj hrun ▸ .of_eq rfl rfl timed
    | tick => exact Host.Outcome.next.inj hrun ▸ .of_ticked rfl s.io.tick_ticked timed
    | wire bs => rw [hi] at ho; cases ho
    | reset => rw [hi] at ho; cases ho
    | resetDuring ws events => rw [hi] at ho; cases ho

end Sys2Proof.Machine
end

section
/-! The tick, DISABLE in Active, VCOM while the timer is stopped, and the levels of one step (43_power_vcom.md R104 to
R108). -/

namespace Sys2Proof.Machine

/-! ### One tick -/

/-- A tick of the running timer is its VCOM write, the lock held in between (43_power_vcom.md R105, 10_state.md R36). -/
theorem Io.tick_running {io : Io} (h : io.vcom.running = true) :
    io.tick = ((io.acquire .vtimer).toggleVcom).release := by
  simp [Io.tick, h]

theorem Io.tick_stopped {io : Io} (h : io.vcom.running = false) : io.tick = io := by
  simp [Io.tick, h]

/-- A tick that the pin takes writes the complement of VCOM_TOGGLE (43_power_vcom.md R105, R106). -/
theorem Io.tick_taken {io : Io} (hr : io.vcom.running = true) (hl : io.vcom.lock = none)
    (hp : io.vpin.peek Config.freeVpin 0 = true) :
    io.tick = { io with
      vpin := io.vpin.skip 1
      vcom := { io.vcom with toggle := !io.vcom.toggle, out := !io.vcom.toggle }
      trace := io.trace ++ [.gpioVcom !io.vcom.toggle] } := by
  rcases Io.toggleVcom_cases (io.acquire .vtimer) with ⟨-, h⟩ | ⟨hn, -⟩
  · rw [Io.tick_running hr, h]
    simp [Io.release, Io.log, Io.acquire, hl]
  · exact Bool.noConfusion (hn.symm.trans hp)

/-- A tick that the pin does not take is counted, up to 2^32 − 1 (43_power_vcom.md R105, R107). -/
theorem Io.tick_missed {io : Io} (hr : io.vcom.running = true) (hl : io.vcom.lock = none)
    (hp : io.vpin.peek Config.freeVpin 0 = false) :
    io.tick = { io with
      vpin := io.vpin.skip 1
      vcom := { io.vcom with missed := BitVec.ofNat 32 (min (io.vcom.missed.toNat + 1) (2 ^ 32 - 1)) }
      trace := io.trace ++ [.gpioVcomFail] } := by
  rcases Io.toggleVcom_cases (io.acquire .vtimer) with ⟨ht, -⟩ | ⟨-, h⟩
  · exact Bool.noConfusion (ht.symm.trans hp)
  · rw [Io.tick_running hr, h, ← missedSucc_toNat, BitVec.ofNat_toNat, BitVec.setWidth_eq]
    simp [Io.release, Io.log, Io.acquire, hl]

/-- Between commands nobody holds the VCOM lock (log 12). -/
theorem unlocked_of_between {s : State} (h : s.midCommand = false) : s.io.vcom.lock = none := by
  simp only [State.midCommand, Bool.or_eq_false_iff] at h
  simpa using h.2

/-- Settles O30: the step is the tick, which is nothing, a level or a count. -/
theorem ticksToggleOrCount : Obligations.TicksToggleOrCount := by
  intro s rest hc hm hi
  have hstep : step s = .next { s with inputs := rest, io := s.io.tick } := step_takes hc hm hi
  have hl := unlocked_of_between hm
  refine ⟨fun hr => ?_, fun hr hp => ?_, fun hr hp => ?_⟩
  · rw [hstep, Io.tick_stopped hr]
  · rw [hstep, Io.tick_taken hr hl hp]
  · rw [hstep, Io.tick_missed hr hl hp]

/-! ### DISABLE -/

/-- Settles O29: DISABLE runs with FAULT or without, and its RESULT comes with the timer stopped. -/
theorem disablePowersThePanelDown : Obligations.DisablePowersThePanelDown := by
  intro s hact
  obtain ⟨n, ticks, hd⟩ := disableRule_active (s := { s with phase := .busy (some .disable) }) hact
  refine ⟨n, ticks, ?_⟩
  rw [exec_command rfl, commandCycle_runs (.inr rfl), hd, finish, Io.emit, Io.act_stopped _ _ rfl]
  simp [State.ended, Io.log]

/-! ### While the timer is stopped -/

theorem newEvents_eq {s t : State} {evs : List Event} (h : t.io.trace = s.io.trace ++ evs) : newEvents s t = evs := by
  rw [newEvents, h, List.drop_left]

/-- What a block does whose timer is stopped and stays so: no VCOM write fails, none is counted, and none drives the pin
high (43_power_vcom.md R105, R108). -/
structure Io.Resting (a b : Io) : Prop where
  stopped : b.vcom.running = false
  missed : b.vcom.missed = a.vcom.missed
  out : b.vcom.out = true → a.vcom.out = true
  trace : ∃ evs, b.trace = a.trace ++ evs ∧ ∀ e ∈ evs, e ≠ .gpioVcom true ∧ e ≠ .gpioVcomFail

/-- From a stopped timer the block rests. -/
def Io.Rests (a b : Io) : Prop := a.vcom.running = false → a.Resting b

/-- Whatever does not start the timer lets it rest. -/
theorem rests_pinRel : PinRel Io.Rests where
  refl io hr := ⟨hr, rfl, id, [], by simp⟩
  trans h1 h2 hr := by
    obtain ⟨r1, m1, o1, e1, t1, n1⟩ := h1 hr
    obtain ⟨r2, m2, o2, e2, t2, n2⟩ := h2 r1
    exact ⟨r2, m2.trans m1, o1 ∘ o2, e1 ++ e2, by rw [t2, t1, List.append_assoc],
      List.forall_mem_append.2 ⟨n1, n2⟩⟩
  tick io hr := by
    rw [Io.tick_stopped hr]
    exact ⟨hr, rfl, id, [], by simp⟩
  log e io he hr := by
    refine ⟨hr, rfl, id, [e], rfl, fun e' he' => ?_⟩
    obtain rfl := List.mem_singleton.1 he'
    exact ⟨fun h => by simp [h, Event.onVcom] at he, fun h => by simp [h, Event.onVcom] at he⟩
  other io io' hv ht hr := ⟨hv ▸ hr, by rw [hv], by rw [hv]; exact id, [], by simpa using ht⟩

/-- VCOM driven low is no tick (43_power_vcom.md R103, R104). -/
theorem Io.vcomLow_rests (io : Io) : io.Rests io.vcomLow :=
  rests_pinRel.trans (rests_pinRel.yieldTicks io) fun hr => ⟨hr, rfl, nofun, [.gpioVcom false], rfl, by simp⟩

/-- ENABLE starts the timer, or its clear fails and the timer rests (43_power_vcom.md R103). -/
theorem enableRule_rests (s : State) :
    (enableRule s).1.io.vcom.running = true ∨ s.io.Rests (enableRule s).1.io := by
  have h := rests_pinRel
  by_cases hoff : s.pstate = .off
  · cases hc : ((s.io.powerUp s.cfg).clearScreen s.cfg).2 with
    | true =>
      rw [enableRule_ok hoff hc]
      exact .inl rfl
    | false =>
      have hup : s.io.Rests (s.io.powerUp s.cfg) :=
        h.trans (h.driveDisp true _) (h.trans (Io.vcomLow_rests _) (h.emit rfl _))
      rw [enableRule_fail hoff hc]
      exact .inr (h.trans hup (h.trans (h.transaction s.cfg (clearBytes s.cfg) _) (h.driveDisp false _)))
  · rw [show enableRule s = raise .sequenceError s by simp [enableRule, hoff]]
    exact .inr (h.refl _)

/-- DISABLE lets the timer rest, also where it finds it stopped (43_power_vcom.md R104, R108). -/
theorem disableRule_rests (s : State) : s.io.Rests (disableRule s).1.io := by
  have h := rests_pinRel
  by_cases hact : s.pstate = .active
  · have hcancel : s.io.Rests s.io.cancelTimer :=
      h.trans (h.yieldTicks _) fun _ => ⟨rfl, rfl, id, [], by simp [Io.cancelTimer]⟩
    have hrule : (disableRule s).1.io = (s.io.cancelTimer.driveDisp false).vcomLow := by simp [disableRule, hact]
    rw [hrule]
    exact h.trans hcancel (h.trans (h.driveDisp false _) (Io.vcomLow_rests _))
  · rw [show disableRule s = raise .sequenceError s by simp [disableRule, hact]]
    exact h.refl _

/-- An instruction that leaves the timer stopped lets it rest. -/
theorem exec_rests {i : Instr} {s t : State} (he : exec i s = .next t) (ht : t.io.vcom.running = false) :
    s.io.Rests t.io := by
  have h := rests_pinRel
  by_cases hon : i = .enable
  · subst hon
    obtain rfl := Host.Outcome.next.inj he
    rcases commandCycle_cases .enable enableRule s with ⟨-, -, hc⟩ | ⟨-, hc⟩ <;> rw [hc] at ht ⊢
    · exact h.finish _ { s with phase := .busy (some .enable) }
    · have hstopped := (finish_held _ _).running.symm.trans ht
      have hrule := (enableRule_rests { s with phase := .busy (some .enable) }).resolve_left (by simp [hstopped])
      exact h.trans hrule (h.finish _ _)
  by_cases hoff : i = .disable
  · subst hoff
    obtain rfl := Host.Outcome.next.inj he
    exact h.commandCycle fun s' _ _ => disableRule_rests s'
  · exact h.exec (absurd · hon) (absurd · hoff) he

/-- Settles O31: by the ways a step can go, of which none but a good ENABLE starts the timer. -/
theorem vtimerRestsUntilEnable : Obligations.VtimerRestsUntilEnable := by
  intro s t hr hn he ht
  have h := rests_pinRel
  have hrests : s.io.Rests t.io := by
    cases step_moved he with
    | waits => exact h.idle _
    | ran rest _ he => exact exec_rests (s := { s with inputs := rest }) he ht
    | rejects rest => exact h.rejectPacket { s with inputs := rest }
    | reads rest k => exact h.refl _
    | ticks rest => exact h.tick _
    | resets hi => rw [hi] at hn; cases hn
    | cut hi _ => rw [hi] at hn; cases hn
  obtain ⟨-, hmissed, hout, evs, htrace, hevs⟩ := hrests hr
  exact ⟨hmissed, hout, newEvents_eq htrace ▸ hevs⟩

/-! ### The levels of one step -/

/-- In a list of levels each of which differs from the one before it, the levels at even places are the complement of
the one before the list. -/
theorem getElem?_of_isChain_ne {levels : List Bool} {first : Bool} (h : (first :: levels).IsChain (· ≠ ·)) {k : Nat}
    {l : Bool} (hk : levels[k]? = some l) : l = (first != decide (k % 2 = 0)) := by
  induction levels generalizing first k with
  | nil => cases hk
  | cons l₁ rest ih =>
    obtain ⟨hne, hrest⟩ := List.isChain_cons_cons.1 h
    obtain rfl : l₁ = !first := Bool.eq_not_iff.2 hne.symm
    cases k with
    | zero => simpa using hk.symm
    | succ k =>
      have hparity : decide ((k + 1) % 2 = 0) = !decide (k % 2 = 0) := by
        rw [← decide_not, decide_eq_decide]
        omega
      rw [ih hrest (by simpa using hk), hparity]
      cases first <;> simp

/-- Settles O33: the timer runs in Active only, and the step there is no reset and no DISABLE. -/
theorem vcomLevelsAlternate : Obligations.VcomLevelsAlternate := by
  intro s t hinv hr he ht k l hk
  obtain ⟨evs, h⟩ := step_alternates (hinv.timer.1 hr) he ht
  exact getElem?_of_isChain_ne h.chain (newEvents_eq h.trace ▸ hk)

end Sys2Proof.Machine
end

section
/-! A handle that no live entry has: after OVL_REMOVE the removed one is such a handle, and the commands on it are
refused (45_overlay.md R116 to R118). -/

namespace Sys2Proof.Machine

/-! ### The rules on an unknown handle -/

section
variable {s : State} {handle : Word} (stale : ∀ e ∈ s.liveEntries, e.handle ≠ handle)
include stale

theorem ovlRemoveRule_unknown : ovlRemoveRule handle s = (s, .error .invalidHandle) := by
  rw [ovlRemoveRule, entryOf_none.2 stale]
  rfl

theorem setVisible_unknown (v : Bool) : setVisible v handle s = (s, .error .invalidHandle) := by
  rw [setVisible, entryOf_none.2 stale]
  rfl

end

/-! ### The registry after OVL_REMOVE -/

theorem update_ent (y1 y2 : Nat) (s : State) : (update y1 y2 s).1.ent = s.ent := by rw [update_frame]

/-- OVL_REMOVE of a live entry's handle drops all that has the handle, and the update after it, if there is one, leaves
the registry alone (45_overlay.md R116). -/
theorem ovlRemoveRule_ent {s : State} {e : Overlay} (he : e ∈ s.liveEntries) :
    (ovlRemoveRule e.handle s).1.ent = dropHandle e.handle s.ent := by
  cases hfound : s.entryOf e.handle with
  | none => exact absurd rfl (entryOf_none.1 hfound e he)
  | some f =>
    rw [← updateEntry_remove]
    simp only [ovlRemoveRule, hfound]
    split
    · exact update_ent _ _ _
    · rfl

/-- No live entry has the handle after it is dropped. -/
theorem handle_ne_of_dropHandle {s : State} {ent : List (Option Overlay)} {handle : Word}
    (h : s.ent = dropHandle handle ent) : ∀ e ∈ s.liveEntries, e.handle ≠ handle := by
  intro e he
  rw [State.liveEntries, h, liveEntries_dropHandle] at he
  exact of_decide_eq_true (List.mem_filter.1 he).2

/-- OVL_REMOVE of a live entry's handle answers a state without FAULT that has dropped it, whatever the update sends. -/
theorem exec_ovlRemove_live {s : State} {e : Overlay} (hf : s.fault = false) (he : e ∈ s.liveEntries) :
    ∃ t, exec (.ovlRemove e.handle) s = .next t ∧ t.fault = false ∧ t.ent = dropHandle e.handle s.ent := by
  refine ⟨_, (exec_command rfl s).trans (congrArg _ (commandCycle_runs (.inl hf) _)), ?fault, ?ent⟩
  case fault => exact (ovlRemoveRule_fault e.handle (s.during _)).trans hf
  case ent => exact ovlRemoveRule_ent (s := s.during _) he

/-- Settles O46: the removal leaves FAULT alone and the handle unknown, and the three rules refuse an unknown handle. -/
theorem removedHandlesAreStale : Obligations.RemovedHandlesAreStale := by
  intro s e hf he
  obtain ⟨t, hrun, hfault, hent⟩ := exec_ovlRemove_live hf he
  have stale := handle_ne_of_dropHandle hent
  refine ⟨t, hrun, ?removed, ?shown, ?hidden⟩
  case removed => exact endsQuietly_of_rule _ rfl (.inl hfault) (ovlRemoveRule_unknown (s := t.during _) stale)
  case shown => exact endsQuietly_of_rule _ rfl (.inl hfault) (setVisible_unknown (s := t.during _) stale true)
  case hidden => exact endsQuietly_of_rule _ rfl (.inl hfault) (setVisible_unknown (s := t.during _) stale false)

end Sys2Proof.Machine
end

section
/-! What the overlays leave in GRAY: the bytes of the entry of the highest handle, in the rows of the update and nowhere
else (40_datapath.md R72, 45_overlay.md R120). -/

namespace Sys2Proof.Machine

/-- The entry's pixel, counted from its corner, is a pixel it covers. -/
theorem Overlay.covers_pixel {e : Overlay} {ox oy : Nat} (hx : ox < e.w.toNat) (hy : oy < e.h.toNat) :
    e.covers (e.x.toNat + ox) (e.y.toNat + oy) = true :=
  decide_eq_true (by omega)

/-- An entry that fits holds a byte for each of its pixels (10_state.md R30). -/
theorem Overlay.fits.getElem?_pix {c : Config} {e : Overlay} (h : e.fits c) {ox oy : Nat} (hx : ox < e.w.toNat)
    (hy : oy < e.h.toNat) : e.pix[oy * e.w.toNat + ox]? = some (e.pixel ox oy) := by
  obtain ⟨-, -, -, hlen⟩ := h
  have hlt : oy * e.w.toNat + ox < e.pix.length := hlen ▸ offset_lt hx hy
  rw [Overlay.pixel, List.getD_eq_getElem _ _ hlt, List.getElem?_eq_getElem hlt]

/-- With distinct handles, the visible live entry that covers a pixel under the highest handle is the top one there
(40_datapath.md R72). -/
theorem topOverlay_eq_some {ent : List (Option Overlay)} {e : Overlay} {x y : Nat}
    (distinct : ((ent.filterMap id).map (·.handle)).Nodup) (he : e ∈ ent.filterMap id) (hv : e.visible = true)
    (hc : e.covers x y = true)
    (highest : ∀ f ∈ ent.filterMap id, f.visible = true → f.covers x y = true → f.handle ≤ e.handle) :
    topOverlay ent x y = some e := by
  have hspec := topOverlay_spec ent x y
  cases htop : topOverlay ent x y with
  | none =>
    rw [htop] at hspec
    exact Bool.noConfusion (hc.symm.trans (hspec e he hv))
  | some f =>
    rw [htop] at hspec
    obtain ⟨⟨hf, hfv⟩, hfc, htopmost⟩ := hspec
    have hhandle : f.handle = e.handle := BitVec.le_antisymm (highest f hf hfv hfc) (htopmost e he hv hc)
    rw [List.inj_on_of_nodup_map distinct hf he hhandle]

/-- An entry outside the rows writes nothing (40_datapath.md R72). -/
theorem compositeEntry_outside {e : Overlay} {y1 y2 : Nat} (h : e.y.toNat + e.h.toNat ≤ y1 ∨ y2 ≤ e.y.toNat)
    (c : Config) (m : Memory) : compositeEntry c y1 y2 e m = m := by
  refine forRange_keeps (P := (· = m)) rfl fun oy gray _ hoy hgray => ?_
  exact (if_neg (by omega)).trans hgray

/-- Settles O51: GRAY holds the picture, in which the top overlay of a pixel covers the frame; the other two clauses are
what one entry, and compositing as a whole, leave alone. -/
theorem overlaysAreReproducedExactly : Obligations.OverlaysAreReproducedExactly := by
  intro s y1 y2 hinv h12 h2
  have hp := hinv.pictureReady
  refine ⟨fun e he ox oy hen hv hox hoy hy1 hy2 highest hind => ?inside, fun e _ hout m => ?outside, ?rows⟩
  case inside =>
    have hfit := hp.fit e he
    have hxw : e.x.toNat + ox < s.cfg.width := by
      obtain ⟨-, hright, -⟩ := hfit
      omega
    have htop := topOverlay_eq_some hp.distinct he hv (Overlay.covers_pixel hox hoy) highest
    rw [composite_grayAt hp hxw h2 hy1 hy2, State.pictureByte, hind, State.overlayByte, if_pos hen, htop,
      hfit.getElem?_pix hox hoy]
    simp
  case outside => exact compositeEntry_outside hout s.cfg m
  case rows =>
    obtain ⟨-, others, -⟩ := buffersUpdated hp h12 h2
    exact others

end Sys2Proof.Machine
end

section
/-! The checks of a command, in the order of R124: the rule ends with the code of the first check that fails and changes
nothing but FAULT, or, where none fails, with a code below 3; nothing but a reset clears FAULT (60_exceptions.md R121 to
R124). -/

namespace Sys2Proof.Machine

/-! ### FAULT stays -/

/-- With FAULT = 1 an instruction leaves it so: the one rule that sets FAULT is turned away (60_exceptions.md R123). -/
theorem exec_keepsFault {i : Instr} {s t : State} (hf : s.fault = true) (he : exec i s = .next t) : t.fault = true := by
  rcases exec_fault he with hkept | ⟨x1, x2, y1, y2, rfl, -⟩
  · exact hkept.trans hf
  · rw [exec_command rfl, commandCycle_faulted hf rfl] at he
    exact Host.Outcome.next.inj he ▸ hf

/-- Settles O21: by the ways a step can go, of which the two with a reset are excluded. -/
theorem onlyResetClearsFault : Obligations.OnlyResetClearsFault := by
  intro s t hf hn he
  cases step_moved he with
  | waits => exact hf
  | ran rest _ he => exact exec_keepsFault (s := { s with inputs := rest }) hf he
  | rejects rest => exact (rejectPacket_fault { s with inputs := rest }).trans hf
  | reads rest k => exact hf
  | ticks rest => exact hf
  | resets hi => rw [hi] at hn; cases hn
  | cut hi _ => rw [hi] at hn; cases hn

/-! ### What the checks decide -/

/-- DISABLE alone executes while FAULT = 1 (60_exceptions.md R123). -/
theorem runsWhileFaulted_iff (i : Instr) : runsWhileFaulted i = true ↔ i = .disable := by
  cases i <;> simp [runsWhileFaulted]

/-- The state of a command that its checks end with the code: FAULT is set for PRECONDITION_FAULT, all else stays
(60_exceptions.md R122, R123). -/
def State.refusedWith (s : State) (code : ResultCode) : State :=
  { s with fault := s.fault || decide (code = .preconditionFault) }

theorem State.refusedWith_eq {s : State} {code : ResultCode} (h : code = .preconditionFault → s.fault = true) :
    s.refusedWith code = s := by
  have hfault : (s.fault || decide (code = .preconditionFault)) = s.fault := by
    by_cases hc : code = .preconditionFault
    · simp [h hc]
    · simp [hc]
  rw [State.refusedWith, hfault]

/-- The reply of a command that was executed: OK, or one of the two errors of execution, the codes 0 to 2
(60_exceptions.md R121). -/
def Reply.Executed (r : Reply) : Prop := r.code = .ok ∨ r.code = .transportError ∨ r.code = .powerSequenceError

theorem Reply.Executed.bits_lt {r : Reply} (h : r.Executed) : r.code.bits.toNat < 3 := by
  rcases h with h | h | h <;> rw [h] <;> decide

/-- What a rule answers goes by the checks of the command: the code of the first that fails and no other effect, or the
reply of a command that was executed (60_exceptions.md R121, R124). -/
inductive Decided (i : Instr) (s : State) (out : State × Reply) : Prop
  | fails {code : ResultCode} (check : commandCheck s i = some code) (refuses : out = (s.refusedWith code, .error code))
  | passes (check : commandCheck s i = none) (ends : out.2.Executed)

/-- A failed check other than the rectangle's raises its code and leaves FAULT alone. -/
theorem Decided.raised {i : Instr} {s : State} {out : State × Reply} (code : ResultCode)
    (check : commandCheck s i = some code) (hcode : code ≠ .preconditionFault) (h : out = raise code s) :
    Decided i s out :=
  .fails check (by rw [h, State.refusedWith_eq fun hc => absurd hc hcode]; rfl)

/-- An update ends with OK or TRANSPORT_ERROR (42_update.md R95, R96, R98). -/
theorem update_ends (y1 y2 : Nat) (s : State) : (update y1 y2 s).2.Executed := by
  unfold update
  split
  · exact .inl rfl
  split
  · exact .inl rfl
  · unfold transmit
    dsimp only
    split
    · exact .inl rfl
    · exact .inr (.inl rfl)

/-- A rule that stores and then refreshes the panel, or not, ends as an update does. -/
theorem ite_fullRefresh_ends (c : Prop) [Decidable c] (s : State) :
    (if c then fullRefresh s else (s, .ok)).2.Executed := by
  split
  · exact update_ends _ _ _
  · exact .inl rfl

theorem disableRule_decided (s : State) : Decided .disable s (disableRule s) := by
  by_cases active : s.pstate = .active
  · obtain ⟨n, ticks, he⟩ := disableRule_active active
    refine .passes (by simp [commandCheck, active]) ?_
    rw [he]
    exact .inl rfl
  · exact .raised .sequenceError (by simp [commandCheck, active]) nofun (if_pos active)

section
variable {s : State} (hf : s.fault = false)
include hf

theorem enableRule_decided : Decided .enable s (enableRule s) := by
  by_cases off : s.pstate = .off
  · refine .passes (by simp [commandCheck, hf, off]) ?_
    cases hc : ((s.io.powerUp s.cfg).clearScreen s.cfg).2 with
    | true => rw [enableRule_ok off hc]; exact .inl rfl
    | false => rw [enableRule_fail off hc]; exact .inr (.inr rfl)
  · exact .raised .sequenceError (by simp [commandCheck, hf, off]) nofun (if_pos off)

/-- The rectangle check is the one that sets FAULT (42_update.md R100). -/
theorem damageRule_decided (x1 x2 y1 y2 : Half) : Decided (.damage x1 x2 y1 y2) s (damageRule x1 x2 y1 y2 s) := by
  by_cases inside : x1.toNat ≤ x2.toNat ∧ x2.toNat ≤ s.cfg.width ∧ y1.toNat ≤ y2.toNat ∧ y2.toNat ≤ s.cfg.height
  · obtain ⟨hx, hw, hy, hh⟩ := inside
    refine .passes (by simp [commandCheck, hf, hx, hw, hy, hh]) ?_
    rw [damageRule_inside hx hw hy hh]
    exact update_ends _ _ s
  · refine .fails (code := .preconditionFault) (if_pos (.inr inside)) ?_
    rw [damageRule, rectInPanel, if_neg (by simpa using inside), raiseFault, State.refusedWith, decide_eq_true rfl,
      Bool.or_true]

theorem setIndicatorRule_decided (idx g : Byte) : Decided (.setIndicator idx g) s (setIndicatorRule idx g s) := by
  by_cases slot : idx.toNat < 6
  · refine .passes (by simp [commandCheck, hf, slot]) ?_
    rw [setIndicatorRule_slot slot]
    exact update_ends _ _ _
  · exact .raised .indexOutOfRange (by simp [commandCheck, hf, Nat.le_of_not_lt slot]) nofun (dif_neg slot)

/-- The three checks of OVL_ADD one after another (45_overlay.md R115). -/
theorem ovlAddRule_decided (x y w h : Half) (pix : List Byte) :
    Decided (.ovlAdd x y w h pix) s (ovlAddRule x y w h pix s) := by
  have empty_iff : emptyArea w h = true ↔ w = 0 ∨ h = 0 := by
    simp [emptyArea, BitVec.toNat_eq]
  have exceeds_iff : exceedsPanel s.cfg x y w h = true ↔
      s.cfg.width < x.toNat + w.toNat ∨ s.cfg.height < y.toNat + h.toNat := by
    simp [exceedsPanel]
  have unfaulted : ¬ s.fault = true := by simp [hf]
  simp only [ovlAddRule, empty_iff, exceeds_iff]
  split
  next empty => exact .raised .invalidGeometry (by rw [commandCheck, if_neg unfaulted, if_pos empty]) nofun rfl
  next area =>
  split
  next exceeds =>
    exact .raised .invalidGeometry (by rw [commandCheck, if_neg unfaulted, if_neg area, if_pos exceeds]) nofun rfl
  next inside =>
  split
  next full =>
    refine .raised .capacityExceeded ?_ nofun rfl
    rw [commandCheck, if_neg unfaulted, if_neg area, if_neg inside, if_pos full]
  next free =>
    refine .passes ?_ (.inl rfl)
    rw [commandCheck, if_neg unfaulted, if_neg area, if_neg inside, if_neg free]

theorem ovlRemoveRule_decided (handle : Word) : Decided (.ovlRemove handle) s (ovlRemoveRule handle s) := by
  cases hfound : s.entryOf handle with
  | none =>
    have stale := entryOf_none.1 hfound
    exact .raised .invalidHandle (by simpa [commandCheck, hf] using stale) nofun (ovlRemoveRule_unknown stale)
  | some e =>
    refine .passes (by simpa [commandCheck, hf] using ⟨e, entryOf_some hfound⟩) ?_
    rw [ovlRemoveRule, hfound]
    exact ite_fullRefresh_ends _ (s.updateEntry handle fun _ => none)

/-- OVL_SHOW and OVL_HIDE have one rule and the same check (45_overlay.md R117, R118). -/
theorem setVisible_decided {i : Instr} (v : Bool) {handle : Word} (hi : i = .ovlShow handle ∨ i = .ovlHide handle) :
    Decided i s (setVisible v handle s) := by
  have check : commandCheck s i = if ∀ e ∈ s.liveEntries, e.handle ≠ handle then some .invalidHandle else none := by
    rcases hi with rfl | rfl <;> simp [commandCheck, hf]
  cases hfound : s.entryOf handle with
  | none =>
    have stale := entryOf_none.1 hfound
    exact .raised .invalidHandle (check.trans (if_pos stale)) nofun (setVisible_unknown stale v)
  | some e =>
    obtain ⟨he, hh⟩ := entryOf_some hfound
    refine .passes (check.trans (if_neg fun stale => stale e he hh)) ?_
    rw [setVisible, hfound]
    exact update_ends _ _ _

end

/-- The rule of every command that FAULT lets through goes by the command's checks. -/
theorem ruleOf_decided {i : Instr} {rule : State → State × Reply} (h : ruleOf i = some rule) {s : State}
    (hf : s.fault = false ∨ runsWhileFaulted i = true) : Decided i s (rule s) := by
  by_cases hoff : i = .disable
  · subst hoff
    exact Option.some.inj h ▸ disableRule_decided s
  replace hf : s.fault = false := hf.resolve_right (mt (runsWhileFaulted_iff i).1 hoff)
  cases i with
  | enable => exact Option.some.inj h ▸ enableRule_decided hf
  | disable => exact absurd rfl hoff
  | damage x1 x2 y1 y2 => exact Option.some.inj h ▸ damageRule_decided hf x1 x2 y1 y2
  | refresh => exact Option.some.inj h ▸ .passes (by simp [commandCheck, hf]) (update_ends _ _ s)
  | setInvert v =>
    exact Option.some.inj h ▸ .passes (by simp [commandCheck, hf])
      (ite_fullRefresh_ends (v ≠ s.invert) { s with invert := v })
  | setDither m =>
    exact Option.some.inj h ▸ .passes (by simp [commandCheck, hf])
      (ite_fullRefresh_ends (m ≠ s.ditherMode) { s with ditherMode := m })
  | setCutoff c =>
    exact Option.some.inj h ▸ .passes (by simp [commandCheck, hf])
      (ite_fullRefresh_ends (c ≠ s.cutoff) { s with cutoff := c })
  | setIndicator idx g => exact Option.some.inj h ▸ setIndicatorRule_decided hf idx g
  | ovlAdd x y w h' pix => exact Option.some.inj h ▸ ovlAddRule_decided hf x y w h' pix
  | ovlRemove handle => exact Option.some.inj h ▸ ovlRemoveRule_decided hf handle
  | ovlShow handle => exact Option.some.inj h ▸ setVisible_decided hf true (.inl rfl)
  | ovlHide handle => exact Option.some.inj h ▸ setVisible_decided hf false (.inr rfl)
  | ovlClear => exact Option.some.inj h ▸ .passes (by simp [commandCheck, hf]) (update_ends _ _ _)
  | wireClear => cases h
  | wireWriteLines _ _ => cases h

/-! ### Commands and packets -/

/-- The checks do not look at EXEC's phase. -/
theorem commandCheck_during (s : State) (i : Instr) : commandCheck (s.during i) i = commandCheck s i := by
  cases i <;> rfl

/-- FAULT is the first check of every command but DISABLE (60_exceptions.md R124). -/
theorem commandCheck_faulted {i : Instr} {rule : State → State × Reply} (h : ruleOf i = some rule) {s : State}
    (hf : s.fault = true) (hi : runsWhileFaulted i = false) : commandCheck s i = some .preconditionFault := by
  cases i with
  | disable => cases hi
  | wireClear => cases h
  | wireWriteLines _ _ => cases h
  | _ => simp [commandCheck, hf]

/-- A command goes by its checks: the first that fails ends it quietly, and with none failed its code is below 3
(42_update.md R93, 60_exceptions.md R124). -/
theorem exec_decided {i : Instr} {rule : State → State × Reply} (h : ruleOf i = some rule) (s : State) :
    (∃ code, commandCheck s i = some code ∧ EndsQuietly i s (s.refusedWith code) (.error code)) ∨
    (commandCheck s i = none ∧ ∃ t, exec i s = .next t ∧ t.result.bits.toNat < 3) := by
  have he := exec_command h s
  rcases commandCycle_cases i rule s with ⟨hf, hi, -⟩ | ⟨hf, hc⟩
  · refine .inl ⟨_, commandCheck_faulted h hf hi, ?_⟩
    rw [State.refusedWith_eq fun _ => hf]
    exact endsQuietly_of_fault rule he hf hi
  · cases ruleOf_decided h (s := s.during i) hf with
    | fails check refuses =>
      rw [commandCheck_during] at check
      exact .inl ⟨_, check, endsQuietly_of_rule rule he hf refuses⟩
    | passes check ends =>
      rw [commandCheck_during] at check
      exact .inr ⟨check, _, he.trans (congrArg _ hc), ends.bits_lt⟩

/-- Settles O25: a wire form has no check, and a command goes by its checks. -/
theorem failedChecksHaveNoEffect : Obligations.FailedChecksHaveNoEffect := by
  intro s i code hcheck
  cases hr : ruleOf i with
  | none =>
    cases i with
    | wireClear => cases hcheck
    | wireWriteLines _ _ => cases hcheck
    | _ => cases hr
  | some rule =>
    rcases exec_decided hr s with ⟨code', hcheck', hquiet⟩ | ⟨hnone, -⟩
    · obtain rfl := Option.some.inj (hcheck.symm.trans hcheck')
      exact hquiet
    · exact absurd (hnone.symm.trans hcheck) nofun

/-- Settles O26: with a code from 3 up a check of the command has failed, or the packet is none of the table's. -/
theorem preciseErrorsHaveNoEffect : Obligations.PreciseErrorsHaveNoEffect := by
  intro s t ws he hcode
  cases hd : decodePacket ws with
  | ok i =>
    rw [runPacket_decoded hd] at he
    obtain ⟨rule, hr⟩ := ruleOf_decodePacket hd
    rcases exec_decided hr s with ⟨code, -, io, hrun, hio⟩ | ⟨-, t', hrun, hlt⟩
    · obtain rfl := Host.Outcome.next.inj (hrun.symm.trans he)
      exact ⟨io, rfl, hio⟩
    · obtain rfl := Host.Outcome.next.inj (hrun.symm.trans he)
      exact absurd hcode (Nat.not_le.2 hlt)
  | error e =>
    rw [runPacket_rejected hd ((runPacket_answers_iff ws s).1 ⟨t, he⟩), rejectPacket_eq] at he
    obtain rfl := Host.Outcome.next.inj he
    obtain ⟨io, hend, hio⟩ := finish_quiet (.error (if s.fault then .preconditionFault else .invalidCommand)) s
      (.busy none)
    refine ⟨io, hend.trans ?_, hio⟩
    exact congrArg (fun u : State => u.ended _ io) (State.refusedWith_eq fun h => by simpa using h).symm

end Sys2Proof.Machine
end

section
/-! A reset inside a command: the events that had happened by then stay, a chip select that they left asserted is
deasserted, and the RESULT, which comes last, is among them only where the command was over (70_reset_and_hazards.md
R137, R138). -/

namespace Sys2Proof.Machine

/-- A reset is seen on the trace where the chip select was asserted (70_reset_and_hazards.md R138). -/
theorem State.resetInput_trace (s : State) :
    s.resetInput.io.trace = s.io.trace ++ if s.io.cs then [.cs false] else [] := by
  cases hcs : s.io.cs <;> simp [State.resetInput, Io.afterReset, hcs]

/-- What a cut command adds to the trace: its first events, then the deasserting of a chip select that they leave
asserted. -/
theorem newEvents_resetWithin (s done : State) (events : Nat) :
    newEvents s (s.resetWithin done events) = (newEvents s done).take events ++
      if csAfter s.io.cs ((newEvents s done).take events) then [.cs false] else [] :=
  newEvents_eq ((State.resetInput_trace _).trans (List.append_assoc _ _ _))

/-- A cut packet goes to the reset state after the first events of the packet taken whole. -/
theorem runInput_resetDuring {ws : List Word} {s done : State} (hd : runPacket ws s = .next done) (events : Nat) :
    runInput (.resetDuring ws events) s = .next (s.resetWithin done events) := by
  simp [runInput, hd]

/-- RESULT is the last of the events of a packet, so none comes before it. -/
theorem Answered.result_notMem_take {s t : State} (h : Answered s t) {events : Nat}
    (hlt : events < (newEvents s t).length) (code : ResultCode) : .result code ∉ (newEvents s t).take events := by
  obtain ⟨io, ⟨evs, htrace, hno⟩, hio⟩ := h.trace
  have hnew : newEvents s t = evs ++ [.result t.result] :=
    newEvents_eq (by rw [hio, Io.log_trace, htrace, List.append_assoc])
  have hle : events ≤ evs.length := by
    rw [hnew, List.length_append, List.length_singleton] at hlt
    exact Nat.le_of_lt_succ hlt
  rw [hnew, List.take_append_of_le_length hle]
  exact fun hmem => Bool.noConfusion (hno _ (List.mem_of_mem_take hmem))

/-- A command that was not over when the reset came has no RESULT (70_reset_and_hazards.md R137). -/
theorem Answered.result_notMem_resetWithin {s done : State} (h : Answered s done) {events : Nat}
    (hlt : events < (newEvents s done).length) (code : ResultCode) :
    .result code ∉ newEvents s (s.resetWithin done events) := by
  rw [newEvents_resetWithin, List.mem_append, not_or]
  refine ⟨h.result_notMem_take hlt code, ?_⟩
  split <;> simp

/-- Settles O12: the step runs the packet, keeps its first events, among which its RESULT, the last, stands only where
all are kept, and resets. -/
theorem resetInsideACommandCutsIt : Obligations.ResetInsideACommandCutsIt := by
  intro s rest ws events hc hm hi hne
  obtain ⟨done, hd⟩ := (runPacket_answers_iff ws { s with inputs := rest }).2 hne
  refine ⟨done, _, hd, (step_takes hc hm hi).trans (runInput_resetDuring hd events), AtReset.resetInput _,
    (runPacket_untouched hd).cfg, newEvents_resetWithin _ done events, ?_⟩
  exact (runPacket_answered hd).result_notMem_resetWithin

end Sys2Proof.Machine
end
